-- ==== Sys2Proof/Word.lean ====
section
/-! DEFINITION. The value types of R10, R11 and R80: bytes, 32-bit words, USB-MIDI event packets. -/

namespace Sys2Proof

/-- "A byte is an unsigned integer in [0, 255]" (R10). -/
abbrev Byte := BitVec 8

/-- "A word is an unsigned 32-bit integer in [0, 2^32 - 1]" (R10). -/
abbrev Word := BitVec 32

/-- A USB-MIDI event packet: exactly 4 bytes `[hdr, b0, b1, b2]` (R80). -/
structure Packet where
  hdr : Byte
  b0 : Byte
  b1 : Byte
  b2 : Byte
deriving DecidableEq, Repr

/-- The packet's bytes, header first (R56 (a)). -/
def Packet.bytes (p : Packet) : List Byte := [p.hdr, p.b0, p.b1, p.b2]

end Sys2Proof
end

