-- ==== Sys2Proof/Config.lean ====
section
/-! DEFINITION. The fixed constants of R7, the parameters of R8 with the legality constraints of R9, the example
configuration of 95_test_vectors.md section 0, and the free values (opaque constants without a body). -/

namespace Sys2Proof

namespace Config

/-! ## Constants (R7) -/

/-- `P_SYSEX_MAX`: capacity of one SysEx message, framing bytes included. -/
abbrev sysexMax : Nat := 256
/-- `P_MANUF`: bytes 1 to 3 of every message. -/
abbrev manuf : List Byte := [0x00, 0x00, 0x7E]
/-- `P_DEVID_STD`: accepted on receive, always used on transmit. -/
abbrev devIdStd : Byte := 0x40
/-- `P_DEVID_LEGACY`: also accepted on receive. -/
abbrev devIdLegacy : Byte := 0x4E
/-- `P_MIN_MSG`: minimum message length. -/
abbrev minMsg : Nat := 8
/-- `P_WB_MAX`: largest WRITE_BLOCK data length the engine accepts. -/
abbrev writeBlockMax : Nat := 256
/-- `P_CRC_POLY`. -/
abbrev crcPoly : Word := 0xEDB88320
/-- `P_CRC_INIT`. -/
abbrev crcInit : Word := 0xFFFFFFFF
/-- `P_CRC_XOROUT`. -/
abbrev crcXorOut : Word := 0xFFFFFFFF
/-- SysEx start (R86). -/
abbrev sysexStart : Byte := 0xF0
/-- SysEx end (R86). -/
abbrev sysexEnd : Byte := 0xF7
/-- One past the last address of the 32-bit address space (R50). -/
abbrev addressSpace : Nat := 2 ^ 32

end Config

/-! ## Parameters (R8) -/

/-- `P_PROGRAM_SEM` (R8, R62). -/
inductive ProgramSem where
  | and
  | store
deriving DecidableEq, Repr, Inhabited

/-- One entry of `P_APP_SECTORS`: (sector number n, base, size). -/
structure Sector where
  number : Nat
  base : Word
  size : Nat
deriving DecidableEq, Repr, Inhabited

/-- The parameters of R8. The ones the spec decides have their decided value as the default. `P_BOOT_REGION` is
`[bootLo, bootHi)`. `P_SETTLE` is not modelled (R8, D42). -/
structure Params where
  appStart : Word
  appMaxSize : Word
  sectors : List Sector
  bootLo : Nat
  bootHi : Nat
  progUnit : Nat
  erased : Byte := 0xFF
  programSem : ProgramSem := .and
  ramLo : Word
  ramHi : Word
  magic : Word
  flagAddr : Word
  magicClear : Word := 0
  verMajor : Byte
  verMinor : Byte
  verPatch : Byte
  flashSizeKB : Word
  respInfo : Byte
  respCable : BitVec 2 := 0
  queueDepth : Nat := 1
deriving DecidableEq, Repr, Inhabited

/-- First address of the application region (R51). -/
def Params.appLo (p : Params) : Nat := p.appStart.toNat
/-- One past the last address of the application region (R51). -/
def Params.appHi (p : Params) : Nat := p.appStart.toNat + p.appMaxSize.toNat
/-- First address of a sector. -/
def Sector.lo (s : Sector) : Nat := s.base.toNat
/-- One past the last address of a sector. -/
def Sector.hi (s : Sector) : Nat := s.base.toNat + s.size

/-- The address `a` lies in the application region (R51). -/
abbrev Params.InApp (p : Params) (a : Nat) : Prop := p.appLo ≤ a ∧ a < p.appHi
/-- The address `a` lies in the sector. -/
abbrev Sector.Has (s : Sector) (a : Nat) : Prop := s.lo ≤ a ∧ a < s.hi

/-- `[a, b)` and `[c, d)` have no address in common. -/
def disjointRanges (a b c d : Nat) : Bool := b ≤ a || d ≤ c || b ≤ c || d ≤ a

/-- The sectors, taken in ascending order, leave no address of `[lo, hi)` uncovered. -/
def coversFrom (lo hi : Nat) : List Sector → Bool
  | [] => hi ≤ lo
  | s :: rest => hi ≤ lo || (s.lo ≤ lo && coversFrom (max lo s.hi) hi rest)

/-! The constraints of R9, one definition each, and those the "type" column of R8 states. -/

/-- R9 (a): the region does not wrap. -/
def Params.noWrap (p : Params) : Bool := p.appHi ≤ Config.addressSpace
/-- R9 (b): the vector words are aligned. -/
def Params.aligned (p : Params) : Bool := p.appLo % 4 == 0
/-- R9 (c): the application region is disjoint from the bootloader's region. -/
def Params.appOffBoot (p : Params) : Bool := disjointRanges p.appLo p.appHi p.bootLo p.bootHi
/-- R8: the sectors stand in ascending base order. Two that follow each other may have one base: R8 does not say whether
"ascending" leaves that out, and R9 does not [DESIGN CHOICE, safe: notes/assumptions/24.md]. -/
def Params.sectorsAscend (p : Params) : Bool := decide (p.sectors.Pairwise fun x y => x.lo ≤ y.lo)
/-- R9 (d), first half: the sectors cover the region. -/
def Params.sectorsCover (p : Params) : Bool := coversFrom p.appLo p.appHi p.sectors
/-- R9 (d), second half: no sector overlaps the bootloader's region. -/
def Params.sectorsOffBoot (p : Params) : Bool :=
  p.sectors.all fun s => disjointRanges s.lo s.hi p.bootLo p.bootHi
/-- R9 (e): the version bytes and the INFO selector are 7-bit values. -/
def Params.sevenBit (p : Params) : Bool :=
  p.verMajor ≤ 0x7F && p.verMinor ≤ 0x7F && p.verPatch ≤ 0x7F && p.respInfo ≤ 0x7F
/-- R9 (f): the sentinel differs from the value that clears it. -/
def Params.magicDiffers (p : Params) : Bool := p.magic != p.magicClear
/-- R9 (g): the flag lies outside the application region and outside the bootloader's region. -/
def Params.flagOutside (p : Params) : Bool :=
  !(p.appLo ≤ p.flagAddr.toNat && p.flagAddr.toNat < p.appHi) &&
    !(p.bootLo ≤ p.flagAddr.toNat && p.flagAddr.toNat < p.bootHi)
/-- R8: the programming unit is a power of two, at least 1. -/
def Params.unitPower (p : Params) : Bool := 2 ^ p.progUnit.log2 == p.progUnit
/-- R8: the queue holds at least one message. -/
def Params.queueHolds (p : Params) : Bool := 1 ≤ p.queueDepth

/-- A legal configuration (R9, with the types of R8). -/
def Params.legal (p : Params) : Bool :=
  p.noWrap && p.aligned && p.appOffBoot && p.sectorsAscend && p.sectorsCover && p.sectorsOffBoot &&
    p.sevenBit && p.magicDiffers && p.flagOutside && p.unitPower && p.queueHolds

/-- A legal configuration as data: "a model refuses a configuration that breaks one" (R9), so an illegal one cannot be
put into a state at all. -/
abbrev Platform := { p : Params // p.legal = true }

/-- Accept a configuration or refuse it (R9). -/
def Platform.ofParams (p : Params) : Option Platform :=
  if h : p.legal = true then some ⟨p, h⟩ else none

/-- The example configuration of 95_test_vectors.md section 0. It is NOT the device's: only tests and witnesses use it. -/
def exampleParams : Params where
  appStart := 0x08008000
  appMaxSize := 0x00078000
  sectors := [⟨2, 0x08008000, 0x4000⟩, ⟨3, 0x0800C000, 0x4000⟩, ⟨4, 0x08010000, 0x10000⟩,
    ⟨5, 0x08020000, 0x20000⟩, ⟨6, 0x08040000, 0x20000⟩, ⟨7, 0x08060000, 0x20000⟩]
  bootLo := 0x08000000
  bootHi := 0x08008000
  progUnit := 4
  ramLo := 0x20000000
  ramHi := 0x20020000
  magic := 0xB00710AD
  flagAddr := 0x2001FFF0
  verMajor := 1
  verMinor := 0
  verPatch := 0
  flashSizeKB := 1024
  respInfo := 0x0F

theorem exampleParams_legal : exampleParams.legal = true := by decide

namespace Config

/-! ## Free values

None of these has a body: nothing can be proved of what it is. -/

/-- The OPEN parameters of the machine that `State.reset` starts (R8). -/
opaque launchParams : Params

/-- `pflag` at power-on: "any 32-bit value (a draw; it may equal P_MAGIC)" (R35, D37). -/
opaque powerOnFlag : Word

/-- Whether the collaborator refuses the draw with this number, where the environment has not said (R14). -/
opaque refuses : Nat → Bool

/-- What a byte left unspecified (R61, R62, R280) holds, by draw number and address. -/
opaque unspecified : Nat → Nat → Byte

/-- The byte an operation reads at an index at or past the end of its data operand, by index. -/
opaque absentByte : Nat → Byte

/-- The configuration that `State.reset` starts with: the OPEN parameters are free, the decided ones have their decided
values, and an illegal choice is refused (R9), the example configuration standing in its place. -/
def launch : Platform :=
  (Platform.ofParams { launchParams with
    erased := 0xFF, programSem := .and, magicClear := 0, respCable := 0, queueDepth := 1 }).getD
    ⟨exampleParams, exampleParams_legal⟩

end Config

end Sys2Proof
end

