-- ==== Sys2Proof/Syntax.lean ====
section
/-! DEFINITION. The instructions of the block: one constructor for each row of spec/opcode_table.json. -/

namespace Sys2Proof

/-- The two device ids accepted on receive (R87): 0x40 "standard" and 0x4E "legacy". -/
inductive DevId where
  | standard
  | legacy
deriving DecidableEq, Repr

/-- The error codes of R102, reserved `INVALID_ADDR` included: R102 keeps the code, and no rule raises it. -/
inductive ErrorCode where
  | invalidCmd
  | invalidLen
  | invalidAddr
  | writeFailed
  | eraseFailed
  | verifyFailed
  | checksum
deriving DecidableEq, Repr

/-- How a row of the opcode table is written down: as a packet (R80), as a request message (R86, R93), as a response
message (R98), or not at all (the table's "internal" rows, whose match and mask are null). -/
inductive Format where
  | packet
  | request
  | response
  | internal
deriving DecidableEq, Repr

/-- The instructions. A packet row keeps every bit of its packet. A command row keeps the device id, the payload
`m[6..L-2)` and the checksum byte as received, so that every message that R151 to R153 accept is one instruction, a
wrong checksum (R155) or a wrong WRITE_BLOCK length (R158) included. -/
inductive Instr where
  /-- RX_CIN4 (R131) -/
  | rxCin4 (cable : BitVec 4) (b0 b1 b2 : Byte)
  /-- RX_CIN5 (R132) -/
  | rxCin5 (cable : BitVec 4) (b0 b1 b2 : Byte)
  /-- RX_CIN6 (R133) -/
  | rxCin6 (cable : BitVec 4) (b0 b1 b2 : Byte)
  /-- RX_CIN7 (R134) -/
  | rxCin7 (cable : BitVec 4) (b0 b1 b2 : Byte)
  /-- RX_OTHER_0_3 (R137): `cin` is CIN[1:0], CIN[3:2] being 0 -/
  | rxOther03 (cable : BitVec 4) (cin : BitVec 2) (b0 b1 b2 : Byte)
  /-- RX_OTHER_8_F (R137): `cin` is CIN[2:0], CIN[3] being 1 -/
  | rxOther8F (cable : BitVec 4) (cin : BitVec 3) (b0 b1 b2 : Byte)
  /-- QUERY (R157) -/
  | query (dev : DevId) (payload : List Byte) (chk : Byte)
  /-- WRITE_BLOCK (R158 to R160); the payload is `offset(5) len(2) data(len)` when it is well formed -/
  | writeBlock (dev : DevId) (payload : List Byte) (chk : Byte)
  /-- ERASE_APP (R161) -/
  | eraseApp (dev : DevId) (payload : List Byte) (chk : Byte)
  /-- JUMP_APP (R162) -/
  | jumpApp (dev : DevId) (payload : List Byte) (chk : Byte)
  /-- UNKNOWN_CMD (R164): any other command byte -/
  | unknownCmd (dev : DevId) (cmd : Byte) (payload : List Byte) (chk : Byte)
  /-- ACK (R168) -/
  | ack (cmd : Byte) (value : Word)
  /-- ERROR (R170) -/
  | error (cmd : Byte) (code : ErrorCode)
  /-- INFO (R169): its contents are configuration -/
  | info
  /-- SendSysex (R126); `cable` is any integer from 0 on, and R121 fails those above 3. R120 says "an integer"; that none is
negative here is the model's [DESIGN CHOICE, safe: notes/assumptions/31.md] -/
  | sendSysex (data : List Byte) (cable : Nat)
  /-- EraseApplication (R191) -/
  | eraseApplication
  /-- WriteFlash (R193 to R196) -/
  | writeFlash (offset : Word) (data : List Byte) (len : Word)
  /-- VerifyFlash (R197) -/
  | verifyFlash (offset : Word) (data : List Byte) (len : Word)
  /-- Crc32 (R198) -/
  | crc32 (data : List Byte) (len : Word)
  /-- CheckApplication (R208) -/
  | checkApplication
  /-- JumpToApplication (R210 to R212) -/
  | jumpToApplication
  /-- BootStep (R232) -/
  | bootStep
  /-- RequestEntry (R233) -/
  | requestEntry
  /-- SettleDone (R163) -/
  | settleDone
deriving DecidableEq, Repr

/-- The format column of the opcode table. -/
def Instr.format : Instr → Format
  | .rxCin4 _ _ _ _ => .packet
  | .rxCin5 _ _ _ _ => .packet
  | .rxCin6 _ _ _ _ => .packet
  | .rxCin7 _ _ _ _ => .packet
  | .rxOther03 _ _ _ _ _ => .packet
  | .rxOther8F _ _ _ _ _ => .packet
  | .query _ _ _ => .request
  | .writeBlock _ _ _ => .request
  | .eraseApp _ _ _ => .request
  | .jumpApp _ _ _ => .request
  | .unknownCmd _ _ _ _ => .request
  | .ack _ _ => .response
  | .error _ _ => .response
  | .info => .response
  | .sendSysex _ _ => .internal
  | .eraseApplication => .internal
  | .writeFlash _ _ _ => .internal
  | .verifyFlash _ _ _ => .internal
  | .crc32 _ _ => .internal
  | .checkApplication => .internal
  | .jumpToApplication => .internal
  | .bootStep => .internal
  | .requestEntry => .internal
  | .settleDone => .internal

end Sys2Proof
end

