-- ==== Sys2Proof/Machine/Operands.lean ====
section
/-! DEFINITION. The wire forms of 30_encoding.md: wire integers, the message layout, the responses, packetisation, the
operands of WRITE_BLOCK, and the operand data of the flash service. -/

namespace Sys2Proof.Machine

/-- `m[a..b)`: bytes a to b-1 (R11). -/
def slice (m : List Byte) (a b : Nat) : List Byte := (m.take b).drop a

/-- `m[i]` (R11). Every use is guarded by a length check. -/
def byteAt (m : List Byte) (i : Nat) : Byte := m.getD i 0

/-! ## Wire integers (R90 to R92) -/

/-- `Enc5(v) = [v[31:28], v[27:21], v[20:14], v[13:7], v[6:0]]` (R90). -/
def enc5 (v : Word) : List Byte :=
  [(v.extractLsb 31 28).setWidth 8, (v.extractLsb 27 21).setWidth 8, (v.extractLsb 20 14).setWidth 8,
    (v.extractLsb 13 7).setWidth 8, (v.extractLsb 6 0).setWidth 8]

/-- The low 7 bits of a byte, as a word (R91). -/
def low7 (c : Byte) : Word := (c &&& 0x7F).setWidth 32

/-- `Dec5`: each byte masked to 7 bits, the result truncated to 32 bits (R91). -/
def dec5 (c0 c1 c2 c3 c4 : Byte) : Word :=
  low7 c0 <<< 28 ||| low7 c1 <<< 21 ||| low7 c2 <<< 14 ||| low7 c3 <<< 7 ||| low7 c4

/-- `Enc2(n) = [n[13:7], n[6:0]]` (R92). -/
def enc2 (n : BitVec 14) : List Byte := [(n.extractLsb 13 7).setWidth 8, (n.extractLsb 6 0).setWidth 8]

/-- `Dec2(c0, c1)`: masked, most significant first (R92). -/
def dec2 (c0 c1 : Byte) : Nat := (c0.toNat % 128) * 128 + c1.toNat % 128

/-! ## Checksum (R88) -/

/-- The sum of the bytes of a sequence, on unbounded integers (R10). -/
def byteSum (s : List Byte) : Nat := (s.map BitVec.toNat).sum

/-- `Chk(s) = (128 - (sum mod 128)) mod 128` (R88). -/
def checksum (s : List Byte) : Byte := BitVec.ofNat 8 ((128 - byteSum s % 128) % 128)

/-! ## Messages (R86, R93 to R101, R167 to R170) -/

/-- The device id byte (R87). -/
def devIdByte : DevId → Byte
  | .standard => Config.devIdStd
  | .legacy => Config.devIdLegacy

/-- The device id a byte stands for, if any (R87). -/
def devIdOfByte (b : Byte) : Option DevId :=
  if b = Config.devIdStd then some .standard else if b = Config.devIdLegacy then some .legacy else none

/-- The code's number (R102). -/
def errorByte : ErrorCode → Byte
  | .invalidCmd => 1
  | .invalidLen => 2
  | .invalidAddr => 3
  | .writeFailed => 4
  | .eraseFailed => 5
  | .verifyFailed => 6
  | .checksum => 7

/-- The code a byte stands for, if any (R102). -/
def errorOfByte (b : Byte) : Option ErrorCode :=
  [ErrorCode.invalidCmd, .invalidLen, .invalidAddr, .writeFailed, .eraseFailed, .verifyFailed, .checksum].find?
    fun e => errorByte e == b

/-- The message layout of R86 with its device id, selector, payload and checksum byte. -/
def layout (dev : Byte) (sel : Byte) (payload : List Byte) (chk : Byte) : List Byte :=
  Config.sysexStart :: (Config.manuf ++ [dev, sel] ++ payload ++ [chk, Config.sysexEnd])

/-- `BuildMsg(sel, payload)`: a message with device id 0x40 and its own checksum (R167). -/
def buildMsg (sel : Byte) (payload : List Byte) : List Byte :=
  layout Config.devIdStd sel payload (checksum (sel :: payload))

/-- `ACK(cmd, v)` (R99, R168). -/
def ackMsg (cmd : Byte) (v : Word) : List Byte := buildMsg 0x0F (cmd :: enc5 v)

/-- `ERROR(cmd, code)` (R100, R170). -/
def errorMsg (cmd : Byte) (code : ErrorCode) : List Byte := buildMsg 0x0E [cmd, errorByte code]

/-- `INFO` (R101, R169). -/
def infoMsg (p : Params) : List Byte :=
  buildMsg p.respInfo ([p.verMajor, p.verMinor, p.verPatch] ++ enc5 p.flashSizeKB ++ enc5 p.appStart)

/-! ## Packets (R80 to R84, R122) -/

/-- `hdr = (cable << 4) | CIN` (R80). -/
def header (cable cin : BitVec 4) : Byte := cable ++ cin

/-- `EncodePackets(d, c)` (R122): from each scan position, the first F7 within the next up to 3 bytes ends the encoding
with a terminal packet (R123); else 3 bytes go in a continue packet (R124); else the remainder is sent best-effort
(R125). Unused bytes are 0x00 (R84). -/
def encodePackets (c : BitVec 4) : List Byte → List Packet
  | [] => []
  | [x] => [⟨header c 5, x, 0, 0⟩]
  | [x, y] => if x = Config.sysexEnd then [⟨header c 5, x, 0, 0⟩] else [⟨header c 6, x, y, 0⟩]
  | x :: y :: z :: rest =>
    if x = Config.sysexEnd then [⟨header c 5, x, 0, 0⟩]
    else if y = Config.sysexEnd then [⟨header c 6, x, y, 0⟩]
    else if z = Config.sysexEnd then [⟨header c 7, x, y, z⟩]
    else ⟨header c 4, x, y, z⟩ :: encodePackets c rest

/-! ## Operands of WRITE_BLOCK (R95, R158) -/

/-- Step 1 of WRITE_BLOCK: offset and data, or nothing where R158 raises INVALID_LEN (`L < 15`, `n = 0`, `n > 256` or
`L != 15 + n`). The payload is `m[6..L-2)`, so `L` is its length plus 8. -/
def parseWriteBlock (payload : List Byte) : Option (Word × List Byte) :=
  let l := payload.length + 8
  if l < 15 then none
  else
    let offset := dec5 (byteAt payload 0) (byteAt payload 1) (byteAt payload 2) (byteAt payload 3) (byteAt payload 4)
    let n := dec2 (byteAt payload 5) (byteAt payload 6)
    if n = 0 ∨ n > Config.writeBlockMax ∨ l ≠ 15 + n then none else some (offset, slice payload 7 (7 + n))

/-! ## Operands of the flash service (R194) -/

/-- The `len` bytes an operation takes from its data operand. Where `len` is at most the operand's length these are its
first `len` bytes; the spec gives no byte at or past the operand's end, and such a byte is free
[DESIGN CHOICE, safe: notes/assumptions/12.md]. -/
def operandBytes (data : List Byte) (len : Nat) : List Byte :=
  data.take len ++ (List.range' data.length (len - data.length)).map Config.absentByte

/-- `Unit(k)`: the k-th programming unit, the last one padded with `P_ERASED` (R194). -/
def progUnitBytes (p : Params) (data : List Byte) (k : Nat) : List Byte :=
  let u := slice data (k * p.progUnit) ((k + 1) * p.progUnit)
  u ++ List.replicate (p.progUnit - u.length) p.erased

/-- The programming calls of WriteFlash, in order: unit k at `P_APP_START + offset + k*P`, for the
`U = ceil(len / P)` units (R194, R195). The last unit is programmed whole, also where `P_BOOT_REGION` begins at the end
of the application region (R9 (c)): R52 says that no rule programs that region, R53 and R195 program the padding there
[DESIGN CHOICE, unsafe: notes/assumptions/27.md]. -/
def programCalls (p : Params) (offset : Nat) (data : List Byte) : List (Nat × List Byte) :=
  (List.range ((data.length + p.progUnit - 1) / p.progUnit)).map fun k =>
    (p.appLo + offset + k * p.progUnit, progUnitBytes p data k)

/-- A little-endian word from 4 bytes (R56 (c)). -/
def le32 (b0 b1 b2 b3 : Byte) : Word := b3 ++ b2 ++ b1 ++ b0

/-- The 4 bytes of a word, least significant first (R56 (c)). -/
def le32Bytes (w : Word) : List Byte :=
  [w.extractLsb 7 0, w.extractLsb 15 8, w.extractLsb 23 16, w.extractLsb 31 24]

end Sys2Proof.Machine
end

