-- ==== Sys2Proof/WellFormed.lean ====
section
/-! DEFINITION. The operands an instruction may have: what its row of the opcode table and its rule admit. -/

namespace Sys2Proof

/-- The command bytes of R93 that are known. -/
def knownCmd (cmd : Byte) : Bool := cmd == 0x01 || cmd == 0x02 || cmd == 0x04 || cmd == 0x05

/-- The longest payload a message of at most 256 bytes can carry (R86). -/
def maxPayload : Nat := Config.sysexMax - Config.minMsg

/-- Well-formedness: a request is at most 256 bytes long (R86); UNKNOWN_CMD has an unknown command byte (R164); ERROR's
code is not the reserved one (R102, R103); an operation's `len` is at most the length of its data operand (R11). -/
def Instr.wf : Instr → Bool
  | .rxCin4 _ _ _ _ => true
  | .rxCin5 _ _ _ _ => true
  | .rxCin6 _ _ _ _ => true
  | .rxCin7 _ _ _ _ => true
  | .rxOther03 _ _ _ _ _ => true
  | .rxOther8F _ _ _ _ _ => true
  | .query _ payload _ => payload.length ≤ maxPayload
  | .writeBlock _ payload _ => payload.length ≤ maxPayload
  | .eraseApp _ payload _ => payload.length ≤ maxPayload
  | .jumpApp _ payload _ => payload.length ≤ maxPayload
  | .unknownCmd _ cmd payload _ => !knownCmd cmd && payload.length ≤ maxPayload
  | .ack _ _ => true
  | .error _ code => code != .invalidAddr
  | .info => true
  | .sendSysex _ _ => true
  | .eraseApplication => true
  | .writeFlash _ data len => len.toNat ≤ data.length
  | .verifyFlash _ data len => len.toNat ≤ data.length
  | .crc32 data len => len.toNat ≤ data.length
  | .checkApplication => true
  | .jumpToApplication => true
  | .bootStep => true
  | .requestEntry => true
  | .settleDone => true

end Sys2Proof
end

