-- ==== Sys2Proof/Decode.lean ====
section
/-! DEFINITION. Decoding packets, request messages and response messages into instructions, rejecting by name; the
encoder; and the reading of a word of spec/opcode_table.json. -/

namespace Sys2Proof

open Sys2Proof.Machine

/-- Why bytes are no instruction. The first four are the IGNORED outcomes of R151 to R153. -/
inductive Reject where
  /-- R151: fewer than 8 bytes -/
  | tooShort
  /-- R152: the first byte is not F0 or the last is not F7 -/
  | badFraming
  /-- R153: manufacturer bytes other than 00 00 7E -/
  | foreignManufacturer
  /-- R153: device id outside the accepted set -/
  | foreignDevice
  /-- R80: a packet is exactly 4 bytes -/
  | notFourBytes
  /-- R102, R103: ERROR with the reserved code INVALID_ADDR, which is never sent -/
  | reservedErrorCode
  /-- R98 to R101: the bytes are none of the responses -/
  | notAResponse
  /-- an internal operation has no encoding (opcode_table.json: match and mask null) -/
  | noEncoding
deriving DecidableEq, Repr

/-- The CIN of a header byte (R81). -/
def headerCin (hdr : Byte) : BitVec 4 := hdr.extractLsb 3 0
/-- The cable number of a header byte (R81). -/
def headerCable (hdr : Byte) : BitVec 4 := hdr.extractLsb 7 4

/-- The packet's instruction, by its CIN (R82, R83, R130). Every packet is one. -/
def decodePacket (p : Packet) : Instr :=
  let cable := headerCable p.hdr
  let cin := headerCin p.hdr
  if cin = 4 then .rxCin4 cable p.b0 p.b1 p.b2
  else if cin = 5 then .rxCin5 cable p.b0 p.b1 p.b2
  else if cin = 6 then .rxCin6 cable p.b0 p.b1 p.b2
  else if cin = 7 then .rxCin7 cable p.b0 p.b1 p.b2
  else if cin.getLsbD 3 then .rxOther8F cable (cin.extractLsb 2 0) p.b0 p.b1 p.b2
  else .rxOther03 cable (cin.extractLsb 1 0) p.b0 p.b1 p.b2

/-- The command a message selects: the command byte compared whole (R93, R156). -/
def commandOf (dev : DevId) (cmd : Byte) (payload : List Byte) (chk : Byte) : Instr :=
  if cmd = 0x01 then .query dev payload chk
  else if cmd = 0x02 then .writeBlock dev payload chk
  else if cmd = 0x04 then .eraseApp dev payload chk
  else if cmd = 0x05 then .jumpApp dev payload chk
  else .unknownCmd dev cmd payload chk

/-- The command a received message is, after the checks of R151 to R153 in their order (R253). -/
def decodeRequest (m : List Byte) : Except Reject Instr :=
  let l := m.length
  if l < Config.minMsg then .error .tooShort
  else if byteAt m 0 ≠ Config.sysexStart ∨ byteAt m (l - 1) ≠ Config.sysexEnd then .error .badFraming
  else if slice m 1 4 ≠ Config.manuf then .error .foreignManufacturer
  else
    match devIdOfByte (byteAt m 4) with
    | none => .error .foreignDevice
    | some dev => .ok (commandOf dev (byteAt m 5) (slice m 6 (l - 2)) (byteAt m (l - 2)))

/-- The response a message is: the one of R99, R100 or R101 whose bytes it has, all of them. -/
def decodeResponse (p : Params) (m : List Byte) : Except Reject Instr :=
  let cmd := byteAt m 6
  let v := dec5 (byteAt m 7) (byteAt m 8) (byteAt m 9) (byteAt m 10) (byteAt m 11)
  if m = ackMsg cmd v then .ok (.ack cmd v)
  else
    match errorOfByte (byteAt m 7) with
    | some code =>
      if m = errorMsg cmd code then
        if code = .invalidAddr then .error .reservedErrorCode else .ok (.error cmd code)
      else if m = infoMsg p then .ok .info else .error .notAResponse
    | none => if m = infoMsg p then .ok .info else .error .notAResponse

/-- The decoder: total on any bytes of any format. -/
def decode (p : Params) (f : Format) (bs : List Byte) : Except Reject Instr :=
  match f with
  | .packet =>
    match bs with
    | [h, b0, b1, b2] => .ok (decodePacket ⟨h, b0, b1, b2⟩)
    | _ => .error .notFourBytes
  | .request => decodeRequest bs
  | .response => decodeResponse p bs
  | .internal => .error .noEncoding

/-- The packet of a packet row (R80). -/
def packetOf (cable cin : BitVec 4) (b0 b1 b2 : Byte) : Packet := ⟨header cable cin, b0, b1, b2⟩

/-- The encoder: the bytes of a packet (R80), a request (R86, R93 to R97) or a response (R99 to R101); nothing for an
internal operation. -/
def encode (p : Params) : Instr → Option (List Byte)
  | .rxCin4 cable b0 b1 b2 => some (packetOf cable 4 b0 b1 b2).bytes
  | .rxCin5 cable b0 b1 b2 => some (packetOf cable 5 b0 b1 b2).bytes
  | .rxCin6 cable b0 b1 b2 => some (packetOf cable 6 b0 b1 b2).bytes
  | .rxCin7 cable b0 b1 b2 => some (packetOf cable 7 b0 b1 b2).bytes
  | .rxOther03 cable cin b0 b1 b2 => some (packetOf cable ((0 : BitVec 2) ++ cin) b0 b1 b2).bytes
  | .rxOther8F cable cin b0 b1 b2 => some (packetOf cable ((1 : BitVec 1) ++ cin) b0 b1 b2).bytes
  | .query dev payload chk => some (layout (devIdByte dev) 0x01 payload chk)
  | .writeBlock dev payload chk => some (layout (devIdByte dev) 0x02 payload chk)
  | .eraseApp dev payload chk => some (layout (devIdByte dev) 0x04 payload chk)
  | .jumpApp dev payload chk => some (layout (devIdByte dev) 0x05 payload chk)
  | .unknownCmd dev cmd payload chk => some (layout (devIdByte dev) cmd payload chk)
  | .ack cmd v => some (ackMsg cmd v)
  | .error cmd code => some (errorMsg cmd code)
  | .info => some (infoMsg p)
  | .sendSysex _ _ => none
  | .eraseApplication => none
  | .writeFlash _ _ _ => none
  | .verifyFlash _ _ _ => none
  | .crc32 _ _ => none
  | .checkApplication => none
  | .jumpToApplication => none
  | .bootStep => none
  | .requestEntry => none
  | .settleDone => none

/-- `n` bytes of a table word: bit 0 is the least significant bit of the first byte. -/
def wordBytes (n w : Nat) : List Byte := (List.range n).map fun i => BitVec.ofNat 8 (w / 256 ^ i)

/-- The bytes a table word stands for, with their format. The table gives most rows one byte: a packet row its header, a
command or response row its selector. A one-byte word is read as the row whose pattern fixes the most of its bits: a
selector (eight bits fixed) before a header (one to four). A selector is laid out in a message of its own, with device
id 0x40, operand bytes 0 (but ERROR's code, which has no value 0: the lowest, 1) and its own checksum; a header is
followed by three bytes 0. A longer word is a packet (up to 4 bytes) or a whole message: a response where its selector is
0E or 0F, else a request, and so INFO under another `P_RESP_INFO` (R98) is read as a request
[DESIGN CHOICE, safe: notes/assumptions/15.md]. -/
def tableLayout (nbits w : Nat) : Format × List Byte :=
  if nbits ≤ 8 then
    let b : Byte := BitVec.ofNat 8 w
    if b = 0x01 ∨ b = 0x04 ∨ b = 0x05 then (.request, buildMsg b [])
    else if b = 0x02 then (.request, buildMsg b (List.replicate 7 0))
    else if b = 0x0F then (.response, ackMsg 0 0)
    else if b = 0x0E then (.response, errorMsg 0 .invalidCmd)
    else (.packet, [b, 0, 0, 0])
  else if nbits ≤ 32 then (.packet, wordBytes 4 w)
  else
    let m := wordBytes ((nbits + 7) / 8) w
    let sel := byteAt m 5
    if sel = 0x0E ∨ sel = 0x0F then (.response, m) else (.request, m)

/-- The instruction the decoder reads from a word of spec/opcode_table.json. -/
def decodeTableWord (nbits w : Nat) : Option Instr :=
  match decode Config.launch.1 (tableLayout nbits w).1 (tableLayout nbits w).2 with
  | .ok i => some i
  | .error _ => none

end Sys2Proof
end

