-- ==== Sys2Proof/Machine/Flags.lean ====
section
/-! DEFINITION. The block has no condition codes and no arithmetic flags (R31). This file holds what it computes in
their place: the checksum condition, the range condition, the validity predicate, the stay decision, and CRC-32. -/

namespace Sys2Proof.Machine

/-- R155: the checksum byte, compared as a whole byte, is `Chk(m[5..L-2))`. -/
def checksumOk (cmd : Byte) (payload : List Byte) (chk : Byte) : Bool := chk == checksum (cmd :: payload)

/-- R193, R197: `offset + len <= P_APP_MAX_SIZE`, on unbounded integers. -/
def inRange (p : Params) (offset len : Nat) : Bool := offset + len ≤ p.appMaxSize.toNat

/-- `ApplicationVectorTable` (R205). -/
structure VectorTable where
  sp : Word
  rv : Word
deriving DecidableEq, Repr

/-- `Valid(t)` (R207). -/
def validTable (p : Params) (t : VectorTable) : Bool :=
  (p.ramLo.toNat ≤ t.sp.toNat && t.sp.toNat ≤ p.ramHi.toNat) &&
    (p.appLo ≤ t.rv.toNat && t.rv.toNat < p.appHi) && t.rv.getLsbD 0

/-- How the block came to be in the bootloader (R27, R28). BUTTON and SYSEX are kept, and no rule produces them (R235). -/
inductive EntryReason where
  | none
  | request
  | noApp
  | button
  | sysex
deriving DecidableEq, Repr

/-- The numeric codes of R28. -/
def EntryReason.code : EntryReason → Nat
  | .none => 0
  | .request => 1
  | .noApp => 2
  | .button => 3
  | .sysex => 4

/-- `Stay(reason) = (reason != NONE)` (R231). -/
def EntryReason.stay (r : EntryReason) : Bool := r != .none

/-- One pass of the inner loop of R198. -/
def crcBit (crc : Word) : Word := if crc.getLsbD 0 then (crc >>> 1) ^^^ Config.crcPoly else crc >>> 1

/-- One byte of R198: xor it in, then 8 passes. -/
def crcByte (crc : Word) (b : Byte) : Word :=
  crcBit (crcBit (crcBit (crcBit (crcBit (crcBit (crcBit (crcBit (crc ^^^ b.setWidth 32))))))))

/-- `Crc32(data, len)` (R198). -/
def crc32Of (data : List Byte) : Word := data.foldl crcByte Config.crcInit ^^^ Config.crcXorOut

end Sys2Proof.Machine
end

