-- ==== Sys2Proof/Machine/Memory.lean ====
section
/-! DEFINITION. The flash address space (R32, R50): a list of (address, byte) pairs in one canonical form. -/

namespace Sys2Proof.Machine

/-- Memory as a list of cells. -/
abbrev Memory := List Host.Cell

/-- What an address that is not listed reads as: an erased byte
[DESIGN CHOICE, unsafe: the launch content is a parameter of the spec, notes/assumptions/3.md]. -/
def Memory.blank : Byte := 0xFF

/-- The canonical form: addresses strictly rising, every one in the 32-bit address space (R50), and no entry equal to what
an unlisted address reads as. -/
abbrev Memory.wf (m : Memory) : Prop :=
  m.Pairwise (fun x y => x.1 < y.1) ∧ ∀ c ∈ m, c.2 ≠ Memory.blank ∧ c.1 < Config.addressSpace

/-- The byte at an address. -/
def Memory.read (m : Memory) (a : Nat) : Byte := (m.lookup a).getD Memory.blank

/-- One past the last address that a change of the `n` bytes from `lo` reaches: addresses at or past 2^32 do not exist
[DEDUCED from R50: notes/assumptions/13.md]. -/
def Memory.stop (lo n : Nat) : Nat := max lo (min (lo + n) Config.addressSpace)

/-- The byte at each address `a` of `[lo, lo+n)` becomes `f a`. -/
def Memory.overwrite (m : Memory) (lo n : Nat) (f : Nat → Byte) : Memory :=
  m.filter (fun c => c.1 < lo) ++
    ((List.range' lo (Memory.stop lo n - lo)).filterMap fun a =>
      if f a = Memory.blank then none else some (a, f a)) ++
    m.filter (fun c => Memory.stop lo n ≤ c.1)

/-- Every byte of `[lo, lo+n)` becomes `v`. For the blank value the entries are dropped at once
(`Memory.fill_eq_overwrite`). -/
def Memory.fill (m : Memory) (lo n : Nat) (v : Byte) : Memory :=
  if v = Memory.blank then m.filter (fun c => c.1 < lo) ++ m.filter (fun c => Memory.stop lo n ≤ c.1)
  else Memory.overwrite m lo n fun _ => v

end Sys2Proof.Machine
end

