-- ==== Sys2Proof/Machine/State.lean ====
section
/-! DEFINITION. The state of the block (10_state.md), the reasons a step can stop, and the state after power-on reset. -/

namespace Sys2Proof.Machine

/-- `mode` (R20). -/
inductive Mode where
  | boot
  | bootloader
  | settle
  | jumped
deriving DecidableEq, Repr

/-- `flash_lock` (R26). -/
inductive FlashLock where
  | locked
  | unlocked
deriving DecidableEq, Repr

/-- `last_status` (R30). -/
inductive SvcStatus where
  | none
  | ignored
  | responded
  | txFailed
deriving DecidableEq, Repr

/-- The answer of a collaborator call (R13). -/
inductive Answer where
  | ok
  | fail
deriving DecidableEq, Repr

/-- The two kinds of reset (R280); a power-on reset brings the value the flag cell then holds (R35). -/
inductive ResetKind where
  | powerOn (flag : Word)
  | soft
deriving DecidableEq, Repr

/-- A boundary event (R34): a collaborator call of R13 with its arguments and answer, a received packet, a reset. An
answer of `none` is a call that a reset ended (R280). -/
inductive Event where
  | received (p : Packet)
  | transmit (p : Packet) (a : Option Answer)
  | flashUnlock
  | flashLock
  | flashEraseSector (n : Nat) (a : Option Answer)
  | flashProgramUnit (addr : Nat) (u : List Byte) (a : Option Answer)
  /-- `none` is Fault -/
  | memRead (addr n : Nat) (r : Option (List Byte))
  | memWrite (addr n : Nat) (v : Word)
  | disableInterrupts
  | relocateVectorTable (addr : Word)
  | setStackPointer (addr : Word)
  | branch (addr : Word)
  | systemReset
  | reset (k : ResetKind)
deriving DecidableEq, Repr

/-- What happens while a BOOT or SVC step runs: a step is given a list of these, soonest first. Each stands between the
call made last and the next one. That `request_entry` may land inside a step at all is the model's choice: R233 lets it
occur in any mode, and neither it nor R280 says whether that is at step boundaries only
[DESIGN CHOICE, safe: notes/assumptions/9.md]. -/
inductive Landing where
  /-- the step makes its next collaborator call, and that call completes -/
  | call
  /-- RX: a packet arrives (R150, R254) -/
  | packet (p : Packet)
  /-- a reset (R280): before the next call or, if `during`, while that call is in progress -/
  | reset (during : Bool) (kind : ResetKind)
  /-- `request_entry` (R233), its flag write and its reset: before the next call or, if `during`, while that call is in
  progress -/
  | request (during : Bool)
deriving DecidableEq, Repr

/-- What the environment lets happen next (R15). -/
inductive Turn where
  /-- the block's own enabled step: BOOT or SVC, and what lands inside it -/
  | own (landings : List Landing)
  /-- RX: a packet arrives -/
  | packet (p : Packet)
  /-- ENV: `request_entry` (R233) -/
  | requestEntry
  /-- ENV: a reset at a step boundary (R280) -/
  | reset (k : ResetKind)
  /-- a response message handed to the transmit side
  [DESIGN CHOICE, safe: notes/assumptions/10.md] -/
  | respond (m : List Byte)
  /-- a direct call of an internal operation
  [DESIGN CHOICE, safe: notes/assumptions/10.md] -/
  | call (i : Instr)
deriving DecidableEq, Repr

/-- What a directly called internal operation answered. -/
inductive OpResult where
  | nothing
  | ok
  | fail
  | truth (b : Bool)
  | word (w : Word)
  | remained
deriving DecidableEq, Repr

/-- Why the machine stops with a fault. There is no such reason: "No source behaviour is treated as `fault`"
(93_implementation_defined.md section 1.2), "No condition inside this core is treated as fatal" (R256). -/
inductive Fault where
deriving DecidableEq, Repr

/-- Why the model refuses a step. -/
inductive Refusal where
  /-- raised by an arm of `exec` for an instruction without a meaning: there is none (safe) -/
  | notModelled (mnemonic : String)
  /-- raised by `State.readEntryReason` in mode BOOT, before the BOOT step: "a model must give such a read no value"
  (R27) (safe) -/
  | entryReasonUnset
  /-- raised by ERROR with the code INVALID_ADDR: the code "is never sent" (R102, R103, 93 section 1.1) (safe) -/
  | reservedErrorCode
  /-- raised by a `respond` turn whose bytes are no response (R98 to R101); no rule gives such a turn (safe) -/
  | notAResponse
  /-- raised by a `call` turn whose instruction is no internal operation; no rule gives such a turn (safe) -/
  | notAnOperation
deriving DecidableEq, Repr

/-- The state of the block. Down to `trace` the fields are the spec's (R20 to R34); the others are the model's own. -/
@[ext]
structure State where
  /-- the configuration (R8, R9), fixed for the machine -/
  platform : Platform
  /-- R20 -/
  mode : Mode
  /-- `rx_buf[0..rx_len)` (R23) -/
  rxBuf : List Byte
  /-- R25, head first -/
  msgQ : List (List Byte)
  /-- R26 -/
  flashLock : FlashLock
  /-- R27; `none` is unset -/
  entryReason : Option EntryReason
  /-- R29 -/
  pflag : Word
  /-- R30 -/
  lastStatus : SvcStatus
  /-- R32 -/
  flash : Memory
  /-- R34, oldest first -/
  trace : List Event
  /-- what the environment does next, soonest first (R15) -/
  turns : List Turn
  /-- the environment's next answers (R14) -/
  answers : List Answer
  /-- the number of draws made -/
  draws : Nat
  /-- what lands inside the step now running (R150, R254, R280), soonest first -/
  landings : List Landing
  /-- the last answer of a directly called operation -/
  result : OpResult
deriving DecidableEq, Repr

/-- The parameters of the state's configuration. -/
def State.params (s : State) : Params := s.platform.1

/-- `rx_len` (R24). -/
def State.rxLen (s : State) : Nat := s.rxBuf.length

/-- The state right after power-on reset (R35). -/
def State.reset : State where
  platform := Config.launch
  mode := .boot
  rxBuf := []
  msgQ := []
  flashLock := .locked
  entryReason := none
  pflag := Config.powerOnFlag
  lastStatus := .none
  flash := []
  trace := []
  turns := []
  answers := []
  draws := 0
  landings := []
  result := .nothing

/-! One update for each field that the rules write. -/

def State.emit (s : State) (e : Event) : State := { s with trace := s.trace ++ [e] }
def State.setMode (s : State) (v : Mode) : State := { s with mode := v }
def State.setRxBuf (s : State) (v : List Byte) : State := { s with rxBuf := v }
def State.setMsgQ (s : State) (v : List (List Byte)) : State := { s with msgQ := v }
def State.setLock (s : State) (v : FlashLock) : State := { s with flashLock := v }
def State.setReason (s : State) (v : Option EntryReason) : State := { s with entryReason := v }
def State.setPflag (s : State) (v : Word) : State := { s with pflag := v }
def State.setStatus (s : State) (v : SvcStatus) : State := { s with lastStatus := v }
def State.setFlash (s : State) (v : Memory) : State := { s with flash := v }
def State.setTurns (s : State) (v : List Turn) : State := { s with turns := v }
def State.setAnswers (s : State) (v : List Answer) : State := { s with answers := v }
def State.setDraws (s : State) (v : Nat) : State := { s with draws := v }
def State.setLandings (s : State) (v : List Landing) : State := { s with landings := v }
def State.setResult (s : State) (v : OpResult) : State := { s with result := v }

end Sys2Proof.Machine
end

