-- ==== Sys2Proof/Machine/Ops.lean ====
section
/-! DEFINITION. The shared operations: reset, draws, the collaborator primitives, reception, transmission, the flash
sequencer, the application check and jump, raising an error, and the engine's frame around a command. -/

namespace Sys2Proof.Machine

/-! ## Reset (R35, R280) -/

/-- Either kind of reset: every element takes the value of R35, and the step that was running is over. A power-on reset
empties the trace and draws the flag; a soft reset keeps the flag and is recorded. Flash survives both. -/
def State.afterReset (s : State) (k : ResetKind) : State :=
  let t := { s with
    mode := .boot, rxBuf := [], msgQ := [], flashLock := .locked, entryReason := none, lastStatus := .none
    landings := [], result := .nothing }
  match k with
  | .powerOn flag => { t with pflag := flag, trace := [] }
  | .soft => t.emit (.reset .soft)

/-- Reading `entry_reason` before the BOOT step has run is refused (R27). -/
def State.readEntryReason (s : State) : Host.Outcome EntryReason Fault Refusal :=
  match s.entryReason with
  | some r => .next r
  | none => .refused .entryReasonUnset

/-! ## Running an operation -/

/-- What running an operation gives: an answer and a state, or the state after a reset that landed inside it (R280). -/
inductive Run (α : Type) where
  | done (a : α) (s : State)
  | cut (s : State)

/-- Go on with `f` unless a reset has landed. -/
def Run.bind {α β : Type} (r : Run α) (f : α → State → Run β) : Run β :=
  match r with
  | .done a s => f a s
  | .cut s => .cut s

/-- The state an operation ends in: `f` writes its answer, and a state after a reset stands as it is. -/
def Run.finish {α : Type} (r : Run α) (f : α → State → State) : State :=
  match r with
  | .done a s => f a s
  | .cut s => s

/-! ## Draws (R14) -/

/-- The answer of a call: the environment's next one, or a free value where it has none. -/
def State.answer (s : State) : Answer :=
  match s.answers with
  | a :: _ => a
  | [] => if Config.refuses s.draws then .fail else .ok

/-- The state after an answer has been taken. -/
def State.drawn (s : State) : State := (s.setAnswers s.answers.tail).setDraws (s.draws + 1)

/-- Every byte of `[lo, lo+n)` becomes unspecified: "a model draws any value per byte" (R61, R62). -/
def State.scramble (s : State) (lo n : Nat) : State :=
  (s.setFlash (s.flash.overwrite lo n (Config.unspecified s.draws))).setDraws (s.draws + 1)

/-! ## Reception (R130 to R137) -/

/-- RX steps only in these modes (R20, R130). -/
def State.rxEnabled (s : State) : Bool := s.mode == .bootloader || s.mode == .settle

/-- `Append(b)` (R135). -/
def append (b : Byte) (s : State) : State :=
  if s.rxBuf.length < Config.sysexMax then s.setRxBuf (s.rxBuf ++ [b]) else s

/-- `Complete()` (R136). -/
def complete (s : State) : State :=
  if s.msgQ.length < s.params.queueDepth then (s.setRxBuf []).setMsgQ (s.msgQ ++ [s.rxBuf]) else s.setRxBuf []

/-- What a packet with CIN 4 does (R131). Near the capacity it keeps as many of its bytes as there is room for (R135), which
R131's own corner case for `rx_len` 254 contradicts [DEDUCED, unsafe: notes/assumptions/29.md]. -/
def acceptCin4 (b0 b1 b2 : Byte) (s : State) : State := append b2 (append b1 (append b0 s))
/-- What a packet with CIN 5 does (R132). -/
def acceptCin5 (b0 : Byte) (s : State) : State := complete (append b0 s)
/-- What a packet with CIN 6 does (R133). -/
def acceptCin6 (b0 b1 : Byte) (s : State) : State := complete (append b1 (append b0 s))
/-- What a packet with CIN 7 does (R134). No byte is inspected (R138), so a data byte of 0x80 or above can come in `b0` here
too, where R104 says that one reaches the engine only inside a CIN 4 packet [DEDUCED, unsafe: notes/assumptions/30.md]. -/
def acceptCin7 (b0 b1 b2 : Byte) (s : State) : State := complete (append b2 (append b1 (append b0 s)))

/-- RECEIVE_PACKET: in a mode where RX steps the packet is recorded and `f` acts; in another mode it is not seen (R130,
D52). -/
def receive (p : Packet) (f : State → State) (s : State) : State :=
  if s.rxEnabled then f (s.emit (.received p)) else s

/-- What a packet does, by its CIN (R130 to R137). -/
def accept (p : Packet) (s : State) : State :=
  let cin := headerCin p.hdr
  if cin = 4 then acceptCin4 p.b0 p.b1 p.b2 s
  else if cin = 5 then acceptCin5 p.b0 s
  else if cin = 6 then acceptCin6 p.b0 p.b1 s
  else if cin = 7 then acceptCin7 p.b0 p.b1 p.b2 s
  else s

/-- A whole RX step, as it lands inside another agent's step (R150, R254). -/
def rxStep (p : Packet) (s : State) : State := receive p (accept p) s

/-! ## The collaborator primitives (R13, R60 to R63) -/

/-- `request_entry` has written the flag and reset the block (R233). -/
def State.afterRequest (s : State) : State :=
  (((s.setPflag s.params.magic).emit (.memWrite s.params.flagAddr.toNat 4 s.params.magic)).emit .systemReset).afterReset
    .soft

/-- What lands before the next call is made, and then that call, `f`. Packets are received if `rx` says that RX may step
here (R150, R254). A reset or `request_entry` ends the step before the call, or while the call is in progress, when
`inProgress` says what the call has done (R280). -/
def land {α : Type} (rx : Bool) (inProgress : State → State) (f : State → Run α) : List Landing → State → Run α
  | [], s => f (s.setLandings [])
  | .call :: rest, s => f (s.setLandings rest)
  | .packet p :: rest, s => land rx inProgress f rest (if rx then rxStep p s else s)
  | .reset during kind :: _, s => .cut ((if during then inProgress s else s).afterReset kind)
  | .request during :: _, s => .cut (if during then inProgress s else s).afterRequest

/-- One collaborator call, with what lands before it. -/
def atCall {α : Type} (s : State) (inProgress : State → State) (f : State → Run α) : Run α :=
  land true inProgress f s.landings s

/-- One collaborator call after interrupts have been disabled: no RX step lands here (R211, D41). -/
def atMaskedCall {α : Type} (s : State) (f : State → Run α) : Run α := land false id f s.landings s

/-- A call without an answer, recorded as `e`, with its effect. While it is in progress it has done nothing, and a reset then
leaves no record of it: whether R34's trace holds such a call the spec does not say
[DESIGN CHOICE, safe: notes/assumptions/16.md]. -/
def voidCall (e : Event) (effect : State → State) (s : State) : Run Unit :=
  atCall s id fun s => .done () ((effect s).emit e)

/-- A call without an answer, as `voidCall`, after interrupts have been disabled. -/
def maskedCall (e : Event) (effect : State → State) (s : State) : Run Unit :=
  atMaskedCall s fun s => .done () ((effect s).emit e)

/-- `Transmit(hdr, b0, b1, b2)` (R13). -/
def transmit (p : Packet) (s : State) : Run Answer :=
  atCall s (fun s => s.emit (.transmit p none)) fun s =>
    .done s.answer (s.drawn.emit (.transmit p (some s.answer)))

/-- `FlashUnlock()` (R60). -/
def flashUnlock (s : State) : Run Unit := voidCall .flashUnlock (fun s => s.setLock .unlocked) s

/-- `FlashLock()` (R60). -/
def flashLock (s : State) : Run Unit := voidCall .flashLock (fun s => s.setLock .locked) s

/-- `FlashEraseSector(n)`: on `ok` every byte of the sector becomes `P_ERASED`, on `fail` every byte of it becomes
unspecified (R61). -/
def flashEraseSector (x : Sector) (s : State) : Run Answer :=
  atCall s (fun s => (s.scramble x.lo x.size).emit (.flashEraseSector x.number none)) fun s =>
    match s.answer with
    | .ok => .done .ok ((s.drawn.setFlash (s.flash.fill x.lo x.size s.params.erased)).emit
        (.flashEraseSector x.number (some .ok)))
    | .fail => .done .fail ((s.drawn.scramble x.lo x.size).emit (.flashEraseSector x.number (some .fail)))

/-- How a successful programming call combines an old byte with a new one (R62). -/
def combine (sem : ProgramSem) (old new : Byte) : Byte :=
  match sem with
  | .and => old &&& new
  | .store => new

/-- `FlashProgramUnit(a, u)`: on `ok` byte j combines with `u[j]`, on `fail` every byte becomes unspecified (R62). -/
def flashProgramUnit (a : Nat) (u : List Byte) (s : State) : Run Answer :=
  atCall s (fun s => (s.scramble a u.length).emit (.flashProgramUnit a u none)) fun s =>
    match s.answer with
    | .ok => .done .ok ((s.drawn.setFlash (s.flash.overwrite a u.length fun x =>
        combine s.params.programSem (s.flash.read x) (byteAt u (x - a)))).emit (.flashProgramUnit a u (some .ok)))
    | .fail => .done .fail ((s.drawn.scramble a u.length).emit (.flashProgramUnit a u (some .fail)))

/-- `MemRead(a, 1)` inside the application region, which never faults (R63). A read that a reset ends is not recorded, here
and in the other reads [DESIGN CHOICE, safe: notes/assumptions/16.md]. -/
def memReadByte (a : Nat) (s : State) : Run Byte :=
  atCall s id fun s => .done (s.flash.read a) (s.emit (.memRead a 1 (some [s.flash.read a])))

/-- The 4 bytes from `a`. -/
def State.bytes4 (s : State) (a : Nat) : List Byte :=
  [s.flash.read a, s.flash.read (a + 1), s.flash.read (a + 2), s.flash.read (a + 3)]

/-- The little-endian word at `a` (R56 (c)). -/
def State.word (s : State) (a : Nat) : Word :=
  le32 (s.flash.read a) (s.flash.read (a + 1)) (s.flash.read (a + 2)) (s.flash.read (a + 3))

/-- `MemRead(a, 4)`: the word, or `none` for Fault. Whether it faults is a draw (R14, R63); it does where it reaches past
the address space (R50) [DESIGN CHOICE, safe: notes/assumptions/11.md]. -/
def memReadWord (a : Nat) (s : State) : Run (Option Word) :=
  atCall s id fun s =>
    if a + 4 ≤ Config.addressSpace ∧ s.answer = .ok then
      .done (some (s.word a)) (s.drawn.emit (.memRead a 4 (some (s.bytes4 a))))
    else .done none (s.drawn.emit (.memRead a 4 none))

/-- `MemRead32(P_FLAG_ADDR)` (R58). -/
def readFlag (s : State) : Run Word :=
  atCall s id fun s => .done s.pflag (s.emit (.memRead s.params.flagAddr.toNat 4 (some (le32Bytes s.pflag))))

/-- `MemWrite(P_FLAG_ADDR, 4, v)` (R58). -/
def writeFlag (v : Word) (s : State) : Run Unit :=
  voidCall (.memWrite s.params.flagAddr.toNat 4 v) (fun s => s.setPflag v) s

/-- `SystemReset()`: it does not return (R13, R257); the soft reset follows (R280). -/
def systemReset (s : State) : State := (s.emit .systemReset).afterReset .soft

/-! ## Transmission (R121, R126, R171) -/

/-- Offer packets in order, stopping at the first refused one (R126); whether all were accepted. -/
def transmitAll : List Packet → State → Run Bool
  | [], s => .done true s
  | p :: ps, s =>
    (transmit p s).bind fun a s =>
      match a with
      | .ok => transmitAll ps s
      | .fail => .done false s

/-- The precondition of SEND_SYSEX (R121). For a negative `cable` R121's sentence and its pseudocode differ, and the model has
no such call [DESIGN CHOICE, safe: notes/assumptions/31.md]. -/
def sendable (data : List Byte) (cable : Nat) : Bool :=
  !data.isEmpty && byteAt data 0 == Config.sysexStart && byteAt data (data.length - 1) == Config.sysexEnd && cable ≤ 3

/-- `SendSysex(data, cable)`: whether it answers OK (R126). -/
def runSendSysex (data : List Byte) (cable : Nat) (s : State) : Run Bool :=
  if sendable data cable then transmitAll (encodePackets (BitVec.ofNat 4 cable) data) s else .done false s

/-- `Respond(r)` (R171). -/
def respond (r : List Byte) (s : State) : Run SvcStatus :=
  (runSendSysex r s.params.respCable.toNat s).bind fun ok s => .done (if ok then .responded else .txFailed) s

/-- `raise Err(code)` in the command `cmd`: the rest of the command is abandoned, flash effects stand, ERROR is sent, and
the SVC step ends (R13, R255). -/
def raiseErr (cmd : Byte) (code : ErrorCode) (s : State) : Run SvcStatus := respond (errorMsg cmd code) s

/-- The frame of a command: an SVC step runs only in mode BOOTLOADER (R150); a wrong checksum is answered by
ERROR(cmd, CHECKSUM) and nothing else (R155); the outcome goes to `last_status` (R150). -/
def serve (cmd : Byte) (payload : List Byte) (chk : Byte) (body : State → Run SvcStatus) (s : State) : State :=
  if s.mode = .bootloader then
    (if checksumOk cmd payload chk then body s else raiseErr cmd .checksum s).finish fun st s => s.setStatus st
  else s

/-! ## The flash sequencer (R190 to R197) -/

/-- Erase sectors in order, stopping at the first refused one (R191). -/
def eraseSectors : List Sector → State → Run Bool
  | [], s => .done true s
  | x :: xs, s =>
    (flashEraseSector x s).bind fun a s =>
      match a with
      | .ok => eraseSectors xs s
      | .fail => .done false s

/-- An operation between `FlashUnlock()` and `FlashLock()`, on every exit path (R190). -/
def bracketed (op : State → Run Bool) (s : State) : Run Bool :=
  (flashUnlock s).bind fun _ s => (op s).bind fun ok s => (flashLock s).bind fun _ s => .done ok s

/-- `EraseApplication()`: whether it answers OK (R191). -/
def runErase (s : State) : Run Bool := bracketed (eraseSectors s.params.sectors) s

/-- Program units in order, stopping at the first refused one (R195). -/
def programUnits : List (Nat × List Byte) → State → Run Bool
  | [], s => .done true s
  | (a, u) :: rest, s =>
    (flashProgramUnit a u s).bind fun ans s =>
      match ans with
      | .ok => programUnits rest s
      | .fail => .done false s

/-- `WriteFlash(offset, data, len(data))`: whether it answers OK. The range check comes before any call (R193), and no
call is made for no data (R196). -/
def runWrite (offset : Nat) (data : List Byte) (s : State) : Run Bool :=
  if inRange s.params offset data.length then
    if data.length = 0 then .done true s else bracketed (programUnits (programCalls s.params offset data)) s
  else .done false s

/-- Compare flash from `a` with `data`, byte for byte, stopping at the first difference (R197). -/
def compareFlash : Nat → List Byte → State → Run Bool
  | _, [], s => .done true s
  | a, d :: ds, s =>
    (memReadByte a s).bind fun b s => if b = d then compareFlash (a + 1) ds s else .done false s

/-- `VerifyFlash(offset, data, len(data))` (R197). -/
def runVerify (offset : Nat) (data : List Byte) (s : State) : Run Bool :=
  if inRange s.params offset data.length then compareFlash (s.params.appLo + offset) data s else .done false s

/-! ## The application check and the jump (R206 to R212) -/

/-- `ReadVectorTable()`: `none` for Fault (R206). Both words are read also where the application region is shorter than they
are and `P_BOOT_REGION` begins right behind it: R52 says that no rule reads that region, R206 reads the word
[DESIGN CHOICE, unsafe: notes/assumptions/28.md]. -/
def readVectorTable (s : State) : Run (Option VectorTable) :=
  (memReadWord s.params.appLo s).bind fun w0 s =>
    match w0 with
    | none => .done none s
    | some sp =>
      (memReadWord (s.params.appLo + 4) s).bind fun w1 s =>
        match w1 with
        | none => .done none s
        | some rv => .done (some ⟨sp, rv⟩) s

/-- `CheckApplication()` (R208). -/
def runCheck (s : State) : Run Bool :=
  (readVectorTable s).bind fun t s =>
    match t with
    | none => .done false s
    | some t => .done (validTable s.params t) s

/-- The jump's four calls, in order, and mode JUMPED; no RX step lands between them (R211). -/
def jumpCalls (t : VectorTable) (s : State) : Run Unit :=
  (voidCall .disableInterrupts id s).bind fun _ s =>
    (maskedCall (.relocateVectorTable s.params.appStart) id s).bind fun _ s =>
      (maskedCall (.setStackPointer t.sp) id s).bind fun _ s =>
        (maskedCall (.branch t.rv) (fun s => s.setMode .jumped) s).bind fun _ s => .done () s

/-- `JumpToApplication()`: `true` where it jumped and did not return (R211), `false` for REMAINED (R210, R212). -/
def runJump (s : State) : Run Bool :=
  (readVectorTable s).bind fun t s =>
    match t with
    | none => .done false s
    | some t => if validTable s.params t then (jumpCalls t s).bind fun _ s => .done true s else .done false s

/-! ## The boot decision (R230) -/

/-- `BootEval()` (R230). -/
def runBootEval (s : State) : Run EntryReason :=
  (readFlag s).bind fun flag s =>
    if flag = s.params.magic then
      (writeFlag s.params.magicClear s).bind fun _ s => .done .request s
    else (runCheck s).bind fun valid s => .done (if valid then .none else .noApp) s

end Sys2Proof.Machine
end

