-- ==== Sys2Proof/Machine/Commands.lean ====
section
/-! DEFINITION. The Protocol Engine's commands (41_protocol_engine.md section 3): `Process(m)` for a message that passed
R151 to R153. The device id plays no further part (R87). -/

namespace Sys2Proof.Machine

/-- QUERY: INFO, whatever payload the message carries (R157, R165). -/
def execQuery (_dev : DevId) (payload : List Byte) (chk : Byte) (s : State) : Host.Outcome State Fault Refusal :=
  .next (serve 0x01 payload chk (fun s => respond (infoMsg s.params) s) s)

/-- WRITE_BLOCK: parse (R158), program (R159), verify and acknowledge (R160). -/
def execWriteBlock (_dev : DevId) (payload : List Byte) (chk : Byte) (s : State) : Host.Outcome State Fault Refusal :=
  .next (serve 0x02 payload chk (fun s =>
    match parseWriteBlock payload with
    | none => raiseErr 0x02 .invalidLen s
    | some (offset, data) =>
      (runWrite offset.toNat data s).bind fun written s =>
        if written then
          (runVerify offset.toNat data s).bind fun verified s =>
            if verified then respond (ackMsg 0x02 offset) s else raiseErr 0x02 .verifyFailed s
        else raiseErr 0x02 .writeFailed s) s)

/-- ERASE_APP: erase every sector and acknowledge (R161). -/
def execEraseApp (_dev : DevId) (payload : List Byte) (chk : Byte) (s : State) : Host.Outcome State Fault Refusal :=
  .next (serve 0x04 payload chk (fun s =>
    (runErase s).bind fun erased s =>
      if erased then respond (ackMsg 0x04 0) s else raiseErr 0x04 .eraseFailed s) s)

/-- JUMP_APP: acknowledge, then enter SETTLE whether or not the acknowledgement was transmitted (R162). -/
def execJumpApp (_dev : DevId) (payload : List Byte) (chk : Byte) (s : State) : Host.Outcome State Fault Refusal :=
  .next (serve 0x05 payload chk (fun s =>
    (respond (ackMsg 0x05 s.params.appStart) s).bind fun st s => .done st (s.setMode .settle)) s)

/-- UNKNOWN_CMD: ERROR(cmd, INVALID_CMD) and no other effect (R164). -/
def execUnknownCmd (_dev : DevId) (cmd : Byte) (payload : List Byte) (chk : Byte) (s : State) :
    Host.Outcome State Fault Refusal :=
  .next (serve cmd payload chk (fun s => raiseErr cmd .invalidCmd s) s)

end Sys2Proof.Machine
end

