-- ==== Sys2Proof/Machine/Entry.lean ====
section
/-! DEFINITION. The Entry/State Controller (43_entry_controller.md) and the jump step of JUMP_APP (R163). -/

namespace Sys2Proof.Machine

/-- After a jump that returned the block serves as a bootloader (R163, R232); after one that did not it is in JUMPED. -/
def stayIfRemained (jumped : Bool) (s : State) : State := if jumped then s else s.setMode .bootloader

/-- BootStep, enabled exactly in mode BOOT (R232); elsewhere BOOT has no step. -/
def execBootStep (s : State) : Host.Outcome State Fault Refusal :=
  .next (if s.mode = .boot then
    (runBootEval s).finish fun reason s =>
      let s := s.setReason (some reason)
      if reason.stay then s.setMode .bootloader else (runJump s).finish stayIfRemained
  else s)

/-- RequestEntry, in any mode (R233, D40): the sentinel into the flag, then the soft reset. -/
def execRequestEntry (s : State) : Host.Outcome State Fault Refusal :=
  .next ((writeFlag s.params.magic s).finish fun _ s => systemReset s)

/-- SettleDone, enabled exactly in mode SETTLE (R163); elsewhere this SVC step does not exist. -/
def execSettleDone (s : State) : Host.Outcome State Fault Refusal :=
  .next (if s.mode = .settle then (runJump s).finish stayIfRemained else s)

end Sys2Proof.Machine
end

