-- ==== Sys2Proof/Machine/Receive.lean ====
section
/-! DEFINITION. The Packet Codec's decoder: the six packet rows (40_packet_codec.md section 2). The cable is ignored
(R130, D19). -/

namespace Sys2Proof.Machine

/-- RX_CIN4: append 3 bytes (R131). -/
def execRxCin4 (cable : BitVec 4) (b0 b1 b2 : Byte) (s : State) : Host.Outcome State Fault Refusal :=
  .next (receive (packetOf cable 4 b0 b1 b2) (acceptCin4 b0 b1 b2) s)

/-- RX_CIN5: append 1 byte and complete (R132). -/
def execRxCin5 (cable : BitVec 4) (b0 b1 b2 : Byte) (s : State) : Host.Outcome State Fault Refusal :=
  .next (receive (packetOf cable 5 b0 b1 b2) (acceptCin5 b0) s)

/-- RX_CIN6: append 2 bytes and complete (R133). -/
def execRxCin6 (cable : BitVec 4) (b0 b1 b2 : Byte) (s : State) : Host.Outcome State Fault Refusal :=
  .next (receive (packetOf cable 6 b0 b1 b2) (acceptCin6 b0 b1) s)

/-- RX_CIN7: append 3 bytes and complete (R134). -/
def execRxCin7 (cable : BitVec 4) (b0 b1 b2 : Byte) (s : State) : Host.Outcome State Fault Refusal :=
  .next (receive (packetOf cable 7 b0 b1 b2) (acceptCin7 b0 b1 b2) s)

/-- RX_OTHER, CIN 0 to 3: no state of the block changes (R137). -/
def execRxOther03 (cable : BitVec 4) (cin : BitVec 2) (b0 b1 b2 : Byte) (s : State) :
    Host.Outcome State Fault Refusal :=
  .next (receive (packetOf cable ((0 : BitVec 2) ++ cin) b0 b1 b2) id s)

/-- RX_OTHER, CIN 8 to F: no state of the block changes (R137). -/
def execRxOther8F (cable : BitVec 4) (cin : BitVec 3) (b0 b1 b2 : Byte) (s : State) :
    Host.Outcome State Fault Refusal :=
  .next (receive (packetOf cable ((1 : BitVec 1) ++ cin) b0 b1 b2) id s)

end Sys2Proof.Machine
end

