-- ==== Sys2Proof/Machine/Responses.lean ====
section
/-! DEFINITION. The responses (41_protocol_engine.md section 4): each is built and transmitted, and the outcome is
recorded in `last_status` (R171). -/

namespace Sys2Proof.Machine

/-- ACK (R168, R171). -/
def execAck (cmd : Byte) (value : Word) (s : State) : Host.Outcome State Fault Refusal :=
  .next ((respond (ackMsg cmd value) s).finish fun st s => s.setStatus st)

/-- ERROR (R170, R171). The code INVALID_ADDR is never sent (R102, R103). -/
def execError (cmd : Byte) (code : ErrorCode) (s : State) : Host.Outcome State Fault Refusal :=
  if code = .invalidAddr then .refused .reservedErrorCode
  else .next ((respond (errorMsg cmd code) s).finish fun st s => s.setStatus st)

/-- INFO (R169, R171). -/
def execInfo (s : State) : Host.Outcome State Fault Refusal :=
  .next ((respond (infoMsg s.params) s).finish fun st s => s.setStatus st)

end Sys2Proof.Machine
end

