-- ==== Sys2Proof/Machine/Service.lean ====
section
/-! DEFINITION. The internal operations called directly: the encoder (R126) and the Flash Programming Service
(42_flash_service.md). What an operation answers is kept in `result`, the model's own field, which no rule reads
[DESIGN CHOICE, safe: notes/assumptions/10.md]. -/

namespace Sys2Proof.Machine

/-- OK or FAIL, kept as the operation's answer. -/
def keepOk (ok : Bool) (s : State) : State := s.setResult (if ok then .ok else .fail)

/-- TRUE or FALSE, kept as the operation's answer. -/
def keepTruth (b : Bool) (s : State) : State := s.setResult (.truth b)

/-- SendSysex (R120 to R126). -/
def execSendSysex (data : List Byte) (cable : Nat) (s : State) : Host.Outcome State Fault Refusal :=
  .next ((runSendSysex data cable s).finish keepOk)

/-- EraseApplication (R191). -/
def execEraseApplication (s : State) : Host.Outcome State Fault Refusal := .next ((runErase s).finish keepOk)

/-- WriteFlash (R193 to R196). -/
def execWriteFlash (offset : Word) (data : List Byte) (len : Word) (s : State) : Host.Outcome State Fault Refusal :=
  .next ((runWrite offset.toNat (operandBytes data len.toNat) s).finish keepOk)

/-- VerifyFlash (R197). -/
def execVerifyFlash (offset : Word) (data : List Byte) (len : Word) (s : State) : Host.Outcome State Fault Refusal :=
  .next ((runVerify offset.toNat (operandBytes data len.toNat) s).finish keepTruth)

/-- Crc32: a pure function; no state of the block changes (R198, R199). -/
def execCrc32 (data : List Byte) (len : Word) (s : State) : Host.Outcome State Fault Refusal :=
  .next (s.setResult (.word (crc32Of (operandBytes data len.toNat))))

/-- CheckApplication (R208). -/
def execCheckApplication (s : State) : Host.Outcome State Fault Refusal := .next ((runCheck s).finish keepTruth)

/-- JumpToApplication: mode JUMPED and no return (R211), or REMAINED (R212). -/
def execJumpToApplication (s : State) : Host.Outcome State Fault Refusal :=
  .next ((runJump s).finish fun jumped s => if jumped then s else s.setResult .remained)

end Sys2Proof.Machine
end

