-- ==== Sys2Proof/Machine/Dispatch.lean ====
section
/-! DEFINITION. The meaning of every instruction: one arm per constructor of Instr. -/

namespace Sys2Proof.Machine

def exec (i : Instr) (s : State) : Host.Outcome State Fault Refusal :=
  match i with
  | .rxCin4 cable b0 b1 b2 => Sys2Proof.Machine.execRxCin4 cable b0 b1 b2 s
  | .rxCin5 cable b0 b1 b2 => Sys2Proof.Machine.execRxCin5 cable b0 b1 b2 s
  | .rxCin6 cable b0 b1 b2 => Sys2Proof.Machine.execRxCin6 cable b0 b1 b2 s
  | .rxCin7 cable b0 b1 b2 => Sys2Proof.Machine.execRxCin7 cable b0 b1 b2 s
  | .rxOther03 cable cin b0 b1 b2 => Sys2Proof.Machine.execRxOther03 cable cin b0 b1 b2 s
  | .rxOther8F cable cin b0 b1 b2 => Sys2Proof.Machine.execRxOther8F cable cin b0 b1 b2 s
  | .query dev payload chk => Sys2Proof.Machine.execQuery dev payload chk s
  | .writeBlock dev payload chk => Sys2Proof.Machine.execWriteBlock dev payload chk s
  | .eraseApp dev payload chk => Sys2Proof.Machine.execEraseApp dev payload chk s
  | .jumpApp dev payload chk => Sys2Proof.Machine.execJumpApp dev payload chk s
  | .unknownCmd dev cmd payload chk => Sys2Proof.Machine.execUnknownCmd dev cmd payload chk s
  | .ack cmd value => Sys2Proof.Machine.execAck cmd value s
  | .error cmd code => Sys2Proof.Machine.execError cmd code s
  | .info => Sys2Proof.Machine.execInfo s
  | .sendSysex data cable => Sys2Proof.Machine.execSendSysex data cable s
  | .eraseApplication => Sys2Proof.Machine.execEraseApplication s
  | .writeFlash offset data len => Sys2Proof.Machine.execWriteFlash offset data len s
  | .verifyFlash offset data len => Sys2Proof.Machine.execVerifyFlash offset data len s
  | .crc32 data len => Sys2Proof.Machine.execCrc32 data len s
  | .checkApplication => Sys2Proof.Machine.execCheckApplication s
  | .jumpToApplication => Sys2Proof.Machine.execJumpToApplication s
  | .bootStep => Sys2Proof.Machine.execBootStep s
  | .requestEntry => Sys2Proof.Machine.execRequestEntry s
  | .settleDone => Sys2Proof.Machine.execSettleDone s

end Sys2Proof.Machine
end

