-- ==== Sys2Proof/Machine/Fetch.lean ====
section
/-! DEFINITION. Which instruction the block runs next, and in what state. The environment's next turn decides; with no
turn pending the block's own enabled step runs (R15, R20) [DESIGN CHOICE: notes/assumptions/7.md]. -/

namespace Sys2Proof.Machine

/-- What a step finds to do. -/
inductive Fetched where
  /-- run this instruction in this state -/
  | run (i : Instr) (s : State)
  /-- no instruction runs; the step ends in this state -/
  | idle (s : State)
  /-- the turn holds nothing a rule knows -/
  | stop (r : Refusal)
deriving Repr

/-- The block's own enabled step. In BOOT it is the BOOT step (R232, R281). In BOOTLOADER the SVC step dequeues the head
of `msg_q` (R150): a message R151 to R153 ignore only sets `last_status` (R154), and with no message SVC waits (R150,
R261). In SETTLE it is SettleDone (R163). In JUMPED there is none (R20, R292). -/
def fetchOwn (s : State) : Fetched :=
  match s.mode with
  | .boot => .run .bootStep s
  | .bootloader =>
    match s.msgQ with
    | [] => .idle s
    | m :: q =>
      match decode s.params .request m with
      | .ok i => .run i (s.setMsgQ q)
      | .error _ => .idle ((s.setMsgQ q).setStatus .ignored)
  | .settle => .run .settleDone s
  | .jumped => .idle s

/-- A response message handed to the transmit side, in the mode in which SVC runs. -/
def fetchResponse (m : List Byte) (s : State) : Fetched :=
  if s.mode = .bootloader then
    match decode s.params .response m with
    | .ok i => .run i s
    | .error .reservedErrorCode => .stop .reservedErrorCode
    | .error _ => .stop .notAResponse
  else .idle s

/-- A direct call of an internal operation, in the mode in which SVC runs. -/
def fetchCall (i : Instr) (s : State) : Fetched :=
  if i.format = .internal then (if s.mode = .bootloader then .run i s else .idle s) else .stop .notAnOperation

/-- What a turn gives the block to do, once it is taken off the schedule. -/
def fetchTurn (t : Turn) (s : State) : Fetched :=
  match t with
  | .own landings => fetchOwn (s.setLandings landings)
  | .packet p => .run (decodePacket p) s
  | .requestEntry => .run .requestEntry s
  | .reset k => .idle (s.afterReset k)
  | .respond m => fetchResponse m s
  | .call i => fetchCall i s

/-- What the next step does. -/
def fetch (s : State) : Fetched :=
  match s.turns with
  | [] => fetchOwn s
  | t :: rest => fetchTurn t (s.setTurns rest)

/-- The end of a step: what found no call to land at does not land [DESIGN CHOICE: notes/assumptions/9.md]. -/
def endStep (o : Host.Outcome State Fault Refusal) : Host.Outcome State Fault Refusal :=
  match o with
  | .next s => .next (s.setLandings [])
  | .fault r => .fault r
  | .refused r => .refused r

/-- `s` with the instruction of a table word placed where the next step fetches: the mode is made one in which its agent
steps, and the instruction's bytes are put at the head of the schedule, a request's at the head of `msg_q`
[DESIGN CHOICE: notes/assumptions/15.md]. -/
def placeWord (s : State) (nbits w : Nat) : State :=
  let bs := (tableLayout nbits w).2
  match (tableLayout nbits w).1 with
  | .packet =>
    (if s.rxEnabled then s else s.setMode .bootloader).setTurns
      (.packet ⟨byteAt bs 0, byteAt bs 1, byteAt bs 2, byteAt bs 3⟩ :: s.turns)
  | .request => ((s.setMode .bootloader).setMsgQ (bs :: s.msgQ)).setTurns (.own [] :: s.turns)
  | .response => (s.setMode .bootloader).setTurns (.respond bs :: s.turns)
  | .internal => s

end Sys2Proof.Machine
end

