-- ==== Sys2Proof/Machine/Step.lean ====
section
/-! DEFINITION. One step of the block, and the placing of a table word for the next step. -/

namespace Sys2Proof.Machine

/-- One step: run what `fetch` finds. -/
def step (s : State) : Host.Outcome State Fault Refusal :=
  match fetch s with
  | .run i t => endStep (exec i t)
  | .idle t => endStep (.next t)
  | .stop r => .refused r

/-- `s` with a table word placed for the next step (`placeWord`). -/
def State.withFetchWord (s : State) (nbits w : Nat) : State := placeWord s nbits w

end Sys2Proof.Machine
end

