-- ==== Sys2Proof/Safety.lean ====
section
/-! DEFINITION. What counts as a safe state and a safe step, and the words the claims use: what the block may change in
flash, what it transmits for a response, and what an answer sequence makes of it. -/

namespace Sys2Proof.Machine

/-- The addresses of flash the block may change: its sectors, and the application region with the padding of a last unit
past its end (R53). -/
def Touchable (p : Params) (a : Nat) : Prop :=
  (∃ x ∈ p.sectors, x.Has a) ∨ (p.appLo ≤ a ∧ a + 1 < p.appHi + p.progUnit)

/-- The invariant of the block between steps. -/
structure State.Inv (s : State) : Prop where
  /-- the memory is in its canonical form -/
  flash_wf : s.flash.wf
  /-- `rx_len` is in [0, 256] (R24) -/
  rx_fits : s.rxBuf.length ≤ Config.sysexMax
  /-- `msg_q` holds at most `P_QUEUE_DEPTH` messages (R25) -/
  queue_fits : s.msgQ.length ≤ s.params.queueDepth
  /-- each of 1 to 256 bytes (R25) -/
  messages_fit : ∀ m ∈ s.msgQ, 1 ≤ m.length ∧ m.length ≤ Config.sysexMax
  /-- flash is locked between any two steps (R26, R190) -/
  locked : s.flashLock = .locked
  /-- `entry_reason` is unset exactly in mode BOOT (R27, R35) -/
  reason_set : s.entryReason = none ↔ s.mode = .boot
  /-- nothing is waiting to land between steps -/
  no_landing : s.landings = []

/-- It is the turn of the block's own step: no turn is pending, or the next one is its own. `u` is the state it runs in,
with the turn taken off the schedule. -/
def OwnTurn (s u : State) : Prop :=
  (s.turns = [] ∧ u = s) ∨ ∃ (ls : List Landing) (rest : List Turn), s.turns = .own ls :: rest ∧
    u = (s.setTurns rest).setLandings ls

/-- The packets among what lands inside a step. -/
def packetsOf (ls : List Landing) : List Packet := ls.filterMap fun l => match l with | .packet p => some p | _ => none

/-- What is yet to land once `n` more calls have been made. -/
def afterCalls : Nat → List Landing → List Landing
  | 0, ls => ls
  | n + 1, ls => afterCalls n (ls.dropWhile fun l => l != .call).tail

/-- The packets that land after `n` more calls have been made, and before the next. -/
def packetsBefore (n : Nat) (ls : List Landing) : List Packet :=
  packetsOf ((afterCalls n ls).takeWhile fun l => l != .call)

/-- Nothing of this ends a step. -/
def OnlyPackets (ls : List Landing) : Prop := ∀ l ∈ ls, l = .call ∨ ∃ p, l = .packet p

/-- What the trace holds of packets that land in `s`: all of them in a mode where RX steps, else none (R130). -/
def State.heard (s : State) (ps : List Packet) : List Event := if s.rxEnabled then ps.map .received else []

/-- `s` after the RX steps of these packets, in order. -/
def State.fed (s : State) (ps : List Packet) : State := ps.foldl (fun s p => rxStep p s) s

/-- A packet was received. -/
def Event.isReceived : Event → Bool
  | .received _ => true
  | _ => false

/-- Every element of `t` but flash has the value of R35 after a reset of this kind, which ended a step that had begun in `s`
and had been recorded as `es`. -/
structure ResetTo (s t : State) (kind : ResetKind) (es : List Event) : Prop where
  mode : t.mode = .boot
  rxLen : t.rxLen = 0
  msgQ : t.msgQ = []
  flashLock : t.flashLock = .locked
  entryReason : t.entryReason = none
  lastStatus : t.lastStatus = .none
  soft : kind = .soft → t.pflag = s.pflag ∧ t.trace = s.trace ++ es ++ [.reset .soft]
  powerOn : ∀ w, kind = .powerOn w → t.pflag = w ∧ t.trace = []

/-- The packets a response goes out in (R122, R171). -/
def replyPackets (p : Params) (r : List Byte) : List Packet := encodePackets (p.respCable.setWidth 4) r

/-- The next `n` answers of the environment are ok, and nothing is waiting to land. -/
abbrev State.Accepts (s : State) (n : Nat) : Prop := s.landings = [] ∧ s.answers.take n = List.replicate n .ok

/-- The next answers are `n` times ok and then fail, and nothing is waiting to land. -/
abbrev State.RefusesAt (s : State) (n : Nat) : Prop :=
  s.landings = [] ∧ s.answers.take (n + 1) = List.replicate n .ok ++ [.fail]

/-- `t` is `s` after the response `r` has been offered: only `trace`, `answers`, `draws` and `last_status` differ; the
packets are offered in order, the first refused one is the last (R126); and `last_status` is RESPONDED exactly when all
were accepted (R171). -/
structure Responds (s t : State) (r : List Byte) : Prop where
  frame : t = { s with trace := t.trace, answers := t.answers, draws := t.draws, lastStatus := t.lastStatus }
  sent : ∃ as : List Answer,
    t.trace = s.trace ++ List.zipWith (fun p a => Event.transmit p (some a)) (replyPackets s.params r) as ∧
      as.length ≤ (replyPackets s.params r).length ∧ (∀ a ∈ as.dropLast, a = .ok) ∧
      ((t.lastStatus = .responded ∧ as = List.replicate (replyPackets s.params r).length .ok) ∨
        (t.lastStatus = .txFailed ∧ as.getLast? = some .fail))

/-- `t` is `s` after the response `r` has been offered with every packet accepted. -/
def State.afterReply (s : State) (r : List Byte) : State :=
  { s with
    trace := s.trace ++ (replyPackets s.params r).map fun p => .transmit p (some .ok)
    answers := s.answers.drop (replyPackets s.params r).length
    draws := s.draws + (replyPackets s.params r).length
    lastStatus := .responded }

/-- The application's vector table as flash holds it (R205, R206). -/
def State.vectorTable (s : State) : VectorTable := ⟨s.word s.params.appLo, s.word (s.params.appLo + 4)⟩

/-- The vector words lie inside the address space. -/
abbrev VectorsMapped (p : Params) : Prop := p.appLo + 8 ≤ Config.addressSpace

/-- Both vector reads have been made and answered: `s` with two events more and two draws taken. -/
def State.afterVectorReads (s : State) : State :=
  { s with
    trace := s.trace ++ [.memRead s.params.appLo 4 (some (s.bytes4 s.params.appLo)),
      .memRead (s.params.appLo + 4) 4 (some (s.bytes4 (s.params.appLo + 4)))]
    answers := s.answers.drop 2
    draws := s.draws + 2 }

/-- The jump has been made: four calls more, in this order, and mode JUMPED (R211). -/
def State.afterJump (s : State) (t : VectorTable) : State :=
  { s with
    mode := .jumped
    trace := s.trace ++ [.disableInterrupts, .relocateVectorTable s.params.appStart, .setStackPointer t.sp, .branch t.rv] }

/-- The bytes of flash from `a` are `d`. -/
def State.Holds (s : State) (a : Nat) (d : List Byte) : Prop := ∀ i < d.length, s.flash.read (a + i) = byteAt d i

/-- `t` is `s` after every sector has been erased (R191, R192): the calls made, in order; every byte of every sector holds
`P_ERASED`; every other byte and every other element is as before. -/
structure Erased (s t : State) : Prop where
  frame : t = { s with
    flash := t.flash
    flashLock := .locked
    trace := s.trace ++ [.flashUnlock] ++
      s.params.sectors.map (fun x => .flashEraseSector x.number (some .ok)) ++ [.flashLock]
    answers := s.answers.drop s.params.sectors.length
    draws := s.draws + s.params.sectors.length }
  erased : ∀ x ∈ s.params.sectors, ∀ a < Config.addressSpace, x.Has a → t.flash.read a = s.params.erased
  kept : ∀ a, (∀ x ∈ s.params.sectors, ¬ x.Has a) → t.flash.read a = s.flash.read a

/-- `t` is `s` after the sector `x`, the one after the first `k`, has been refused (R191, R192): the first `k` are erased,
nothing is said of `x`'s own bytes, and every other byte and every other element is as before. -/
structure ErasedUpTo (s t : State) (k : Nat) (x : Sector) : Prop where
  frame : t = { s with
    flash := t.flash
    flashLock := .locked
    trace := s.trace ++ [.flashUnlock] ++
      (s.params.sectors.take k).map (fun y => .flashEraseSector y.number (some .ok)) ++
      [.flashEraseSector x.number (some .fail), .flashLock]
    answers := s.answers.drop (k + 1)
    draws := t.draws }
  erased : ∀ y ∈ s.params.sectors.take k, ∀ a < Config.addressSpace, y.Has a → ¬ x.Has a →
    t.flash.read a = s.params.erased
  kept : ∀ a, (∀ y ∈ s.params.sectors.take k, ¬ y.Has a) → ¬ x.Has a → t.flash.read a = s.flash.read a

/-- `t` is `s` after every programming unit of `data` has been programmed from `offset` (R194, R195): the calls made, in
order; each data byte combined with the old one by `P_PROGRAM_SEM` (R62), each padding byte with `P_ERASED`; every other
byte and every other element as before. -/
structure Programmed (s t : State) (offset : Nat) (data : List Byte) : Prop where
  frame : t = { s with
    flash := t.flash
    flashLock := .locked
    trace := s.trace ++ [.flashUnlock] ++
      (programCalls s.params offset data).map (fun c => .flashProgramUnit c.1 c.2 (some .ok)) ++ [.flashLock]
    answers := s.answers.drop (programCalls s.params offset data).length
    draws := s.draws + (programCalls s.params offset data).length }
  bytes : ∀ i < data.length, t.flash.read (s.params.appLo + offset + i) =
    combine s.params.programSem (s.flash.read (s.params.appLo + offset + i)) (byteAt data i)
  padding : ∀ a < Config.addressSpace, s.params.appLo + offset + data.length ≤ a →
    a < s.params.appLo + offset + (programCalls s.params offset data).length * s.params.progUnit →
    t.flash.read a = combine s.params.programSem (s.flash.read a) s.params.erased
  kept : ∀ a, ¬ (s.params.appLo + offset ≤ a ∧
      a < s.params.appLo + offset + (programCalls s.params offset data).length * s.params.progUnit) →
    t.flash.read a = s.flash.read a

/-- `t` is `s` after the unit `c`, the one after the first `k`, has been refused (R195): the first `k` units are
programmed, nothing is said of the bytes of `c`, and every other byte and every other element is as before. -/
structure ProgrammedUpTo (s t : State) (offset : Nat) (data : List Byte) (k : Nat) (c : Nat × List Byte) : Prop where
  frame : t = { s with
    flash := t.flash
    flashLock := .locked
    trace := s.trace ++ [.flashUnlock] ++
      ((programCalls s.params offset data).take k).map (fun c => .flashProgramUnit c.1 c.2 (some .ok)) ++
      [.flashProgramUnit c.1 c.2 (some .fail), .flashLock]
    answers := s.answers.drop (k + 1)
    draws := t.draws }
  bytes : ∀ i < k * s.params.progUnit, t.flash.read (s.params.appLo + offset + i) =
    combine s.params.programSem (s.flash.read (s.params.appLo + offset + i)) (byteAt data i)
  kept : ∀ a, ¬ (s.params.appLo + offset ≤ a ∧ a < s.params.appLo + offset + (k + 1) * s.params.progUnit) →
    t.flash.read a = s.flash.read a

/-- The reads a comparison of `d` from `a` makes when every byte is equal (R197). -/
def compareReads (a : Nat) (d : List Byte) : List Event :=
  (List.range d.length).map fun i => .memRead (a + i) 1 (some [byteAt d i])

/-- A packet that carries message bytes: CIN 4 to 7 (R82). -/
def carriesMessage (p : Packet) : Bool := 4 ≤ (headerCin p.hdr).toNat && (headerCin p.hdr).toNat ≤ 7

/-- The message passes R151 to R153. -/
def acceptedHeader (m : List Byte) : Prop :=
  8 ≤ m.length ∧ byteAt m 0 = 0xF0 ∧ byteAt m (m.length - 1) = 0xF7 ∧ slice m 1 4 = [0x00, 0x00, 0x7E] ∧
    (byteAt m 4 = 0x40 ∨ byteAt m 4 = 0x4E)

/-- The operands of a WRITE_BLOCK whose payload is `m[6..L-2)` (R95, R158): 5 offset bytes, 2 length bytes, both masked to
7 bits as `Dec5` and `Dec2` say, and then as many data bytes as the length says, between 1 and 256. -/
structure BlockOperands (payload : List Byte) (offset : Word) (data : List Byte) : Prop where
  offset : offset = dec5 (byteAt payload 0) (byteAt payload 1) (byteAt payload 2) (byteAt payload 3) (byteAt payload 4)
  len : data.length = dec2 (byteAt payload 5) (byteAt payload 6)
  bound : 1 ≤ data.length ∧ data.length ≤ 256
  data : payload.drop 7 = data ∧ payload.length = 7 + data.length

end Sys2Proof.Machine
end

