-- ==== Sys2Proof/Certificates/Slice0/Obligations.lean ====
section
/-! DEFINITION. The statements for the provers. -/

open Sys2Proof Sys2Proof.Machine

/-! ## Encodings -/

/-- Decoding the encoding of a well-formed instruction gives the instruction back, for every packet, request and
response and every value of their operands, under any configuration. -/
def Obligations.DecodeInvertsEncode : Prop :=
  ∀ (p : Params) (i : Instr) (bs : List Byte), i.wf = true → encode p i = some bs → decode p i.format bs = .ok i

/-- Bytes that decode to an instruction are exactly its encoding: no bit of a packet, a request or a response is
dropped. -/
def Obligations.EncodeInvertsDecode : Prop :=
  ∀ (p : Params) (f : Format) (bs : List Byte) (i : Instr),
    decode p f bs = .ok i → i.format = f ∧ encode p i = some bs

/-- Words written out from the spec's encodings decode to what they stand for: packets of R131 to R134 and R137, with CIN 0
to 3 and 8 to F, the requests of R94 to R97, and the responses of R99 to R101 (INFO with the example configuration). -/
def Obligations.WrittenWordsDecode : Prop :=
  decode exampleParams .packet [0x34, 0xF0, 0x01, 0x02] = .ok (.rxCin4 3 0xF0 0x01 0x02) ∧
  decode exampleParams .packet [0x15, 0xF7, 0x00, 0x55] = .ok (.rxCin5 1 0xF7 0x00 0x55) ∧
  decode exampleParams .packet [0x06, 0x7F, 0xF7, 0x00] = .ok (.rxCin6 0 0x7F 0xF7 0x00) ∧
  decode exampleParams .packet [0xF7, 0xF0, 0x01, 0xF7] = .ok (.rxCin7 15 0xF0 0x01 0xF7) ∧
  decode exampleParams .packet [0x23, 0x01, 0x02, 0x03] = .ok (.rxOther03 2 3 0x01 0x02 0x03) ∧
  decode exampleParams .packet [0x09, 0x90, 0x3C, 0x7F] = .ok (.rxOther8F 0 1 0x90 0x3C 0x7F) ∧
  decode exampleParams .request [0xF0, 0x00, 0x00, 0x7E, 0x4E, 0x01, 0x7F, 0xF7] = .ok (.query .legacy [] 0x7F) ∧
  decode exampleParams .request
    [0xF0, 0x00, 0x00, 0x7E, 0x40, 0x02, 0x10, 0x00, 0x00, 0x00, 0x00, 0x00, 0x01, 0x5A, 0x13, 0xF7] =
    .ok (.writeBlock .standard [0x10, 0x00, 0x00, 0x00, 0x00, 0x00, 0x01, 0x5A] 0x13) ∧
  decode exampleParams .request [0xF0, 0x00, 0x00, 0x7E, 0x40, 0x04, 0x7C, 0xF7] = .ok (.eraseApp .standard [] 0x7C) ∧
  decode exampleParams .request [0xF0, 0x00, 0x00, 0x7E, 0x40, 0x05, 0x7B, 0xF7] = .ok (.jumpApp .standard [] 0x7B) ∧
  decode exampleParams .request [0xF0, 0x00, 0x00, 0x7E, 0x40, 0x09, 0x77, 0xF7] =
    .ok (.unknownCmd .standard 0x09 [] 0x77) ∧
  decode exampleParams .response [0xF0, 0x00, 0x00, 0x7E, 0x40, 0x0E, 0x04, 0x07, 0x67, 0xF7] =
    .ok (.error 0x04 .checksum) ∧
  decode exampleParams .response
    [0xF0, 0x00, 0x00, 0x7E, 0x40, 0x0F, 0x02, 0x00, 0x00, 0x00, 0x02, 0x00, 0x6D, 0xF7] = .ok (.ack 0x02 0x100) ∧
  decode exampleParams .response [0xF0, 0x00, 0x00, 0x7E, 0x40, 0x0F, 0x01, 0x00, 0x00, 0x00, 0x00, 0x00, 0x08, 0x00, 0x00,
    0x40, 0x02, 0x00, 0x00, 0x26, 0xF7] = .ok .info

/-- R89: the checksum law. -/
def Obligations.ChecksumLaw : Prop :=
  ∀ S : List Byte, (byteSum S + (checksum S).toNat) % 128 = 0 ∧ (checksum S).toNat ≤ 127

/-- R91, R92: `Dec5` masks each byte to 7 bits, assembles them and truncates to 32 bits; only `c0[3:0]` of the first byte
contributes; it inverts `Enc5`; and `Enc5` inverts it only on canonical bytes. `Enc2` carries a 14-bit length as its upper
and its lower 7 bits, in this order; `Dec2` masks both bytes to 7 bits and assembles them in this order; it inverts `Enc2`,
and is below 2^14. -/
def Obligations.WireIntegersMaskAndInvert : Prop :=
  (∀ c0 c1 c2 c3 c4 : Byte,
    (dec5 c0 c1 c2 c3 c4).toNat =
      (c0.toNat % 128 * 2 ^ 28 + c1.toNat % 128 * 2 ^ 21 + c2.toNat % 128 * 2 ^ 14 + c3.toNat % 128 * 2 ^ 7 +
        c4.toNat % 128) % 2 ^ 32 ∧
    dec5 c0 c1 c2 c3 c4 = dec5 (c0 &&& 0x0F) c1 c2 c3 c4 ∧
    (enc5 (dec5 c0 c1 c2 c3 c4) = [c0, c1, c2, c3, c4] ↔
      c0 ≤ 0x0F ∧ c1 ≤ 0x7F ∧ c2 ≤ 0x7F ∧ c3 ≤ 0x7F ∧ c4 ≤ 0x7F)) ∧
  (∀ v : Word, ∃ c0 c1 c2 c3 c4 : Byte, enc5 v = [c0, c1, c2, c3, c4] ∧ dec5 c0 c1 c2 c3 c4 = v) ∧
  (∀ c0 c1 : Byte, dec2 c0 c1 = (c0.toNat % 128) * 2 ^ 7 + c1.toNat % 128 ∧ dec2 c0 c1 < 2 ^ 14) ∧
  ∀ n : BitVec 14, ∃ c0 c1 : Byte, enc2 n = [c0, c1] ∧ c0.toNat = n.toNat / 2 ^ 7 ∧ c1.toNat = n.toNat % 2 ^ 7 ∧
    dec2 c0 c1 = n.toNat

/-- R99, R100, R101: the bytes of the three responses. -/
def Obligations.ResponseLayouts : Prop :=
  (∀ (cmd : Byte) (v : Word),
    ackMsg cmd v = [0xF0, 0x00, 0x00, 0x7E, 0x40, 0x0F, cmd] ++ enc5 v ++ [checksum ([0x0F, cmd] ++ enc5 v), 0xF7] ∧
      (ackMsg cmd v).length = 14) ∧
  (∀ (cmd : Byte) (code : ErrorCode),
    errorMsg cmd code = [0xF0, 0x00, 0x00, 0x7E, 0x40, 0x0E, cmd, errorByte code,
      checksum [0x0E, cmd, errorByte code], 0xF7] ∧ (errorMsg cmd code).length = 10) ∧
  ∀ p : Params,
    infoMsg p = [0xF0, 0x00, 0x00, 0x7E, 0x40, p.respInfo, p.verMajor, p.verMinor, p.verPatch] ++ enc5 p.flashSizeKB ++
      enc5 p.appStart ++
      [checksum ([p.respInfo, p.verMajor, p.verMinor, p.verPatch] ++ enc5 p.flashSizeKB ++ enc5 p.appStart), 0xF7] ∧
      (infoMsg p).length = 21

/-! ## The step -/

/-- A step runs the decoded instruction: a packet turn runs the packet's instruction; the block's own step in BOOTLOADER
dequeues the head message and, where it decodes, runs its command; in BOOTLOADER a response message handed over runs its
response, and a call its operation; the request for a reset runs RequestEntry. Around `exec` the step takes the turn off
the schedule and, at the end, drops what found no call to land at. The schedule of turns is the model's
(notes/assumptions/7.md), so are the turns that hand over a response or call an operation (10.md), and so is that what
found no call to land at does not land (9.md). -/
def Obligations.StepRunsDecodedInstruction : Prop :=
  (∀ (s : State) (p : Packet) (rest : List Turn), s.turns = .packet p :: rest →
    decode s.params .packet p.bytes = .ok (decodePacket p) ∧
      step s = endStep (exec (decodePacket p) (s.setTurns rest))) ∧
  (∀ (s u : State) (m : List Byte) (q : List (List Byte)) (i : Instr), OwnTurn s u → s.mode = .bootloader →
    s.msgQ = m :: q → decode s.params .request m = .ok i → step s = endStep (exec i (u.setMsgQ q))) ∧
  (∀ (s : State) (m : List Byte) (i : Instr) (rest : List Turn), s.turns = .respond m :: rest → s.mode = .bootloader →
    decode s.params .response m = .ok i → step s = endStep (exec i (s.setTurns rest))) ∧
  (∀ (s : State) (i : Instr) (rest : List Turn), s.turns = .call i :: rest → s.mode = .bootloader →
    i.format = .internal → step s = endStep (exec i (s.setTurns rest))) ∧
  (∀ (s : State) (rest : List Turn), s.turns = .requestEntry :: rest →
    step s = endStep (exec .requestEntry (s.setTurns rest))) ∧
  ∀ t : State, endStep (.next t) = .next { t with landings := [] }

/-- Which own step a mode enables (R20, R150, R163, R232, R281, R292): the BOOT step in BOOT, SettleDone in SETTLE, none
in JUMPED, and none in BOOTLOADER while `msg_q` is empty. The schedule of turns is the model's (notes/assumptions/7.md);
that a mode with no step goes on unchanged is too (8.md). -/
def Obligations.OwnStepOfEachMode : Prop :=
  ∀ s u : State, OwnTurn s u →
    (s.mode = .boot → step s = endStep (exec .bootStep u)) ∧
    (s.mode = .settle → step s = endStep (exec .settleDone u)) ∧
    (s.mode = .jumped → step s = .next { u with landings := [] }) ∧
    (s.mode = .bootloader → s.msgQ = [] → step s = .next { u with landings := [] })

/-- R151 to R154: a message that is too short, badly framed, or of another manufacturer or device is dequeued, sets
`last_status` to IGNORED, and does nothing else; any other message runs a command. The schedule of turns is the model's
(notes/assumptions/7.md). -/
def Obligations.IgnoredMessages : Prop :=
  ∀ (s u : State) (m : List Byte) (q : List (List Byte)), OwnTurn s u → s.mode = .bootloader → s.msgQ = m :: q →
    (¬ acceptedHeader m → step s = .next { u with msgQ := q, lastStatus := .ignored, landings := [] }) ∧
    (acceptedHeader m → ∃ dev : DevId, devIdByte dev = byteAt m 4 ∧
      step s = endStep (exec (commandOf dev (byteAt m 5) (slice m 6 (m.length - 2)) (byteAt m (m.length - 2)))
        { u with msgQ := q }))

/-! ## Packet Codec -/

/-- R24, R135: RX_CIN4 appends its three bytes, dropping those past 256, and completes nothing. At `rx_len` 254 that is two
bytes appended and one dropped, by R135 and R24 and the vectors of 95_test_vectors.md section 2.4; R131's own corner case
has it the other way round, and that the model follows R135 is read from the spec by inference (notes/assumptions/29.md). -/
def Obligations.ContinuePacketAppends : Prop :=
  ∀ (s : State) (cable : BitVec 4) (b0 b1 b2 : Byte), s.rxEnabled = true → s.rxBuf.length ≤ 256 →
    exec (.rxCin4 cable b0 b1 b2) s = .next { s with
      rxBuf := (s.rxBuf ++ [b0, b1, b2]).take 256
      trace := s.trace ++ [.received ⟨cable ++ (4 : BitVec 4), b0, b1, b2⟩] }

/-- R132, R133, R134, R136: a terminal packet appends its one, two or three bytes, empties the buffer, and delivers what
it held to `msg_q`, or drops it where the queue is full. -/
def Obligations.TerminalPacketsDeliver : Prop :=
  ∀ (s : State) (cable : BitVec 4) (b0 b1 b2 : Byte), s.rxEnabled = true → s.rxBuf.length ≤ 256 →
    let deliver (bs : List Byte) (p : Packet) : State := { s with
      rxBuf := []
      msgQ := if s.msgQ.length < s.params.queueDepth then s.msgQ ++ [(s.rxBuf ++ bs).take 256] else s.msgQ
      trace := s.trace ++ [.received p] }
    exec (.rxCin5 cable b0 b1 b2) s = .next (deliver [b0] ⟨cable ++ (5 : BitVec 4), b0, b1, b2⟩) ∧
    exec (.rxCin6 cable b0 b1 b2) s = .next (deliver [b0, b1] ⟨cable ++ (6 : BitVec 4), b0, b1, b2⟩) ∧
    exec (.rxCin7 cable b0 b1 b2) s = .next (deliver [b0, b1, b2] ⟨cable ++ (7 : BitVec 4), b0, b1, b2⟩)

/-- R137: a packet with any other CIN changes no state of the block; only the observation record grows. -/
def Obligations.OtherPacketsChangeNothing : Prop :=
  ∀ (s : State) (cable : BitVec 4) (b0 b1 b2 : Byte), s.rxEnabled = true →
    (∀ cin : BitVec 2, exec (.rxOther03 cable cin b0 b1 b2) s =
      .next { s with trace := s.trace ++ [.received ⟨cable ++ ((0 : BitVec 2) ++ cin), b0, b1, b2⟩] }) ∧
    ∀ cin : BitVec 3, exec (.rxOther8F cable cin b0 b1 b2) s =
      .next { s with trace := s.trace ++ [.received ⟨cable ++ ((1 : BitVec 1) ++ cin), b0, b1, b2⟩] }

/-- R20, R130: RX steps only in BOOTLOADER and SETTLE; in BOOT and JUMPED no packet of any kind changes anything. -/
def Obligations.PacketsUnseenOutsideService : Prop :=
  ∀ (s : State) (p : Packet), s.mode = .boot ∨ s.mode = .jumped → exec (decodePacket p) s = .next s

/-- R84, R122 to R124, R127: a message goes out up to its first F7, at index `j`: what follows is not encoded, and the
`ceil((j+1)/3)` packets carry the bytes up to it, in order, on the cable asked for, all but the last with CIN 4 and the last
with CIN `5 + (j mod 3)` and its unused bytes 0x00. -/
def Obligations.PacketsCarryTheMessage : Prop :=
  ∀ (c : BitVec 4) (d : List Byte) (j : Nat), j < d.length → byteAt d j = 0xF7 → (∀ i < j, byteAt d i ≠ 0xF7) →
    (encodePackets c d).length = (j + 3) / 3 ∧
    ∀ (k : Nat) (p : Packet), (encodePackets c d)[k]? = some p →
      headerCable p.hdr = c ∧
      (headerCin p.hdr).toNat = (if k + 1 < (j + 3) / 3 then 4 else 5 + j % 3) ∧
      p.b0 = byteAt d (3 * k) ∧
      p.b1 = (if 3 * k + 1 ≤ j then byteAt d (3 * k + 1) else 0x00) ∧
      p.b2 = if 3 * k + 2 ≤ j then byteAt d (3 * k + 2) else 0x00

/-- R139: the packets of a buffer, fed to RX in order from an empty accumulation buffer, with any packets of other CINs in
between, complete exactly one message, and it is the buffer. It is queued if the queue has room (R136). That packets come
as turns is the model's choice (notes/assumptions/7.md). -/
def Obligations.CodecRoundTrip : Prop :=
  ∀ (s : State) (B : List Byte) (c : BitVec 4) (ps : List Packet) (rest : List Turn),
    s.rxEnabled = true → s.rxBuf = [] → s.landings = [] →
    byteAt B 0 = 0xF0 → byteAt B (B.length - 1) = 0xF7 → 2 ≤ B.length → B.length ≤ 256 →
    (∀ i, i + 1 < B.length → byteAt B i ≠ 0xF7) → c ≤ 3 →
    ps.filter carriesMessage = encodePackets c B → s.turns = ps.map .packet ++ rest →
    Host.Core.run Sys2Proof.core ps.length s = .next { s with
      turns := rest
      msgQ := if s.msgQ.length < s.params.queueDepth then s.msgQ ++ [B] else s.msgQ
      trace := s.trace ++ ps.map .received }

/-- R121: input that is empty, does not start with F0, does not end in F7, or names a cable above 3 fails, and no packet
is offered. That no cable is negative is the model's choice (notes/assumptions/31.md). -/
def Obligations.SendSysexRejectsMalformed : Prop :=
  ∀ (s : State) (data : List Byte) (cable : Nat),
    data = [] ∨ byteAt data 0 ≠ 0xF0 ∨ byteAt data (data.length - 1) ≠ 0xF7 ∨ 3 < cable →
    exec (.sendSysex data cable) s = .next { s with result := .fail }

/-- R126: with every packet accepted the answer is OK and all packets went out, in order; at a refused packet the answer
is FAIL and no further packet is offered. Nothing else changes. -/
def Obligations.SendSysexTransmits : Prop :=
  ∀ (s : State) (data : List Byte) (cable : Nat),
    data ≠ [] → byteAt data 0 = 0xF0 → byteAt data (data.length - 1) = 0xF7 → cable ≤ 3 →
    let ps := encodePackets (BitVec.ofNat 4 cable) data
    (s.Accepts ps.length → exec (.sendSysex data cable) s = .next { s with
      trace := s.trace ++ ps.map fun p => .transmit p (some .ok)
      answers := s.answers.drop ps.length
      draws := s.draws + ps.length
      result := .ok }) ∧
    ∀ (k : Nat) (p : Packet), ps[k]? = some p → s.RefusesAt k → exec (.sendSysex data cable) s = .next { s with
      trace := s.trace ++ (ps.take k).map (fun p => .transmit p (some .ok)) ++ [.transmit p (some .fail)]
      answers := s.answers.drop (k + 1)
      draws := s.draws + (k + 1)
      result := .fail }

/-! ## Protocol Engine -/

/-- R157, R165: QUERY is answered by INFO, whatever payload and device id the message carries and whatever the
environment answers; nothing but trace, draws and `last_status` changes. -/
def Obligations.QueryAnswersInfo : Prop :=
  ∀ (s : State) (dev : DevId) (payload : List Byte) (chk : Byte), s.mode = .bootloader → s.landings = [] →
    chk = checksum (0x01 :: payload) →
    ∃ t, exec (.query dev payload chk) s = .next t ∧ Responds s t (infoMsg s.params)

/-- R164: an unknown command byte is answered by ERROR(cmd, INVALID_CMD), or by ERROR(cmd, CHECKSUM) where the checksum is
wrong, with no other effect. -/
def Obligations.UnknownCommandAnswersError : Prop :=
  ∀ (s : State) (dev : DevId) (cmd : Byte) (payload : List Byte) (chk : Byte), s.mode = .bootloader → s.landings = [] →
    cmd ≠ 0x01 → cmd ≠ 0x02 → cmd ≠ 0x04 → cmd ≠ 0x05 →
    ∃ t, exec (.unknownCmd dev cmd payload chk) s = .next t ∧
      Responds s t (errorMsg cmd (if chk = checksum (cmd :: payload) then .invalidCmd else .checksum))

/-- R155: a wrong checksum byte, compared whole, is answered by ERROR(cmd, CHECKSUM) for every command, known or not, and
nothing else is done. -/
def Obligations.WrongChecksumAnswersError : Prop :=
  ∀ (s : State) (dev : DevId) (cmd : Byte) (payload : List Byte) (chk : Byte), s.mode = .bootloader → s.landings = [] →
    chk ≠ checksum (cmd :: payload) →
    ∃ t, exec (commandOf dev cmd payload chk) s = .next t ∧ Responds s t (errorMsg cmd .checksum)

/-- R20, R150: a command runs in no mode but BOOTLOADER. By the rules the step does not exist in another mode; that the
model goes on there with the state unchanged is its own choice (notes/assumptions/8.md). -/
def Obligations.CommandsOnlyInBootloader : Prop :=
  ∀ (s : State) (dev : DevId) (cmd : Byte) (payload : List Byte) (chk : Byte), s.mode ≠ .bootloader →
    exec (commandOf dev cmd payload chk) s = .next s

/-- R158: WRITE_BLOCK with `L < 15`, `n = 0`, `n > 256` or `L != 15 + n` is answered by ERROR(INVALID_LEN), and no flash
call is made; `L` is the payload's length plus 8. -/
def Obligations.WriteBlockBadLength : Prop :=
  ∀ (s : State) (dev : DevId) (payload : List Byte) (chk : Byte), s.mode = .bootloader → s.landings = [] →
    chk = checksum (0x02 :: payload) →
    (let L := payload.length + 8
     let n := dec2 (byteAt payload 5) (byteAt payload 6)
     L < 15 ∨ n = 0 ∨ n > 256 ∨ L ≠ 15 + n) →
    ∃ t, exec (.writeBlock dev payload chk) s = .next t ∧ Responds s t (errorMsg 0x02 .invalidLen)

/-- R159, R193: WRITE_BLOCK whose `offset + n`, summed without wrap, passes `P_APP_MAX_SIZE` is answered by
ERROR(WRITE_FAILED), and no flash call is made. -/
def Obligations.WriteBlockOutOfRange : Prop :=
  ∀ (s : State) (dev : DevId) (payload : List Byte) (chk : Byte) (offset : Word) (data : List Byte),
    s.mode = .bootloader → s.landings = [] → chk = checksum (0x02 :: payload) → BlockOperands payload offset data →
    s.params.appMaxSize.toNat < offset.toNat + data.length →
    ∃ t, exec (.writeBlock dev payload chk) s = .next t ∧ Responds s t (errorMsg 0x02 .writeFailed)

/-- R158 to R160: WRITE_BLOCK in range with every unit accepted programs the data between unlock and lock, then compares
it with flash: equal bytes are answered by ACK with the decoded offset, any difference by ERROR(VERIFY_FAILED). The
comparison makes reads of one byte and nothing else, and neither it nor the response changes flash. -/
def Obligations.WriteBlockProgramsAndVerifies : Prop :=
  ∀ (s : State) (dev : DevId) (payload : List Byte) (chk : Byte) (offset : Word) (data : List Byte),
    s.mode = .bootloader → chk = checksum (0x02 :: payload) → BlockOperands payload offset data →
    offset.toNat + data.length ≤ s.params.appMaxSize.toNat →
    s.Accepts (programCalls s.params offset.toNat data).length →
    let start := s.params.appLo + offset.toNat
    ∃ u v t, exec (.writeBlock dev payload chk) s = .next t ∧ Programmed s u offset.toNat data ∧
      v = { u with trace := v.trace } ∧
      (u.Holds start data → v.trace = u.trace ++ compareReads start data ∧ Responds v t (ackMsg 0x02 offset)) ∧
      (¬ u.Holds start data → (∃ es, v.trace = u.trace ++ es ∧ ∀ e ∈ es, ∃ a b, e = .memRead a 1 (some [b])) ∧
        Responds v t (errorMsg 0x02 .verifyFailed))

/-- R159, R195: WRITE_BLOCK whose unit after the first `k` is refused is answered by ERROR(WRITE_FAILED); the earlier units
stand, nothing is said of the refused unit's bytes, flash is locked, and nothing else changes. -/
def Obligations.WriteBlockRefusedUnit : Prop :=
  ∀ (s : State) (dev : DevId) (payload : List Byte) (chk : Byte) (offset : Word) (data : List Byte) (k : Nat)
    (c : Nat × List Byte),
    s.mode = .bootloader → chk = checksum (0x02 :: payload) → BlockOperands payload offset data →
    offset.toNat + data.length ≤ s.params.appMaxSize.toNat →
    (programCalls s.params offset.toNat data)[k]? = some c → s.RefusesAt k →
    ∃ u t, exec (.writeBlock dev payload chk) s = .next t ∧ ProgrammedUpTo s u offset.toNat data k c ∧
      Responds u t (errorMsg 0x02 .writeFailed)

/-- R161, R191, R192: ERASE_APP with every sector accepted erases every sector and is answered by ACK(04, 0). -/
def Obligations.EraseAppErasesAll : Prop :=
  ∀ (s : State) (dev : DevId) (payload : List Byte) (chk : Byte), s.mode = .bootloader →
    chk = checksum (0x04 :: payload) → s.Accepts s.params.sectors.length →
    ∃ u t, exec (.eraseApp dev payload chk) s = .next t ∧ Erased s u ∧ Responds u t (ackMsg 0x04 0)

/-- R161, R191, R192: ERASE_APP whose sector after the first `k` is refused is answered by ERROR(04, ERASE_FAILED): the
earlier sectors are erased, the refused one's bytes are unspecified, and later ones are as before. -/
def Obligations.EraseAppStopsAtRefusal : Prop :=
  ∀ (s : State) (dev : DevId) (payload : List Byte) (chk : Byte) (k : Nat) (x : Sector), s.mode = .bootloader →
    chk = checksum (0x04 :: payload) → s.params.sectors[k]? = some x → s.RefusesAt k →
    ∃ u t, exec (.eraseApp dev payload chk) s = .next t ∧ ErasedUpTo s u k x ∧
      Responds u t (errorMsg 0x04 .eraseFailed)

/-- R162: JUMP_APP is acknowledged with the application's base and enters SETTLE, whatever became of the
acknowledgement; the image is not looked at and no flash call is made. -/
def Obligations.JumpAppAcknowledgesAndSettles : Prop :=
  ∀ (s : State) (dev : DevId) (payload : List Byte) (chk : Byte), s.mode = .bootloader → s.landings = [] →
    chk = checksum (0x05 :: payload) →
    ∃ t, exec (.jumpApp dev payload chk) s = .next { t with mode := .settle } ∧
      Responds s t (ackMsg 0x05 s.params.appStart)

/-- R168 to R171: ACK, ERROR with a code other than the reserved one, and INFO are offered as responses. That each runs as
an instruction of its own, in any mode, and then writes `last_status`, is the model's choice (notes/assumptions/10.md,
26.md). -/
def Obligations.ResponsesAreOffered : Prop :=
  ∀ s : State, s.landings = [] →
    (∀ (cmd : Byte) (v : Word), ∃ t, exec (.ack cmd v) s = .next t ∧ Responds s t (ackMsg cmd v)) ∧
    (∀ (cmd : Byte) (code : ErrorCode), code ≠ .invalidAddr →
      ∃ t, exec (.error cmd code) s = .next t ∧ Responds s t (errorMsg cmd code)) ∧
    ∃ t, exec .info s = .next t ∧ Responds s t (infoMsg s.params)

/-- R126, R171: with every packet accepted, ACK, ERROR with a code other than the reserved one, and INFO each leave exactly
their packets in the trace and RESPONDED in `last_status`. That each runs as an instruction of its own, in any mode, and
then writes `last_status`, is the model's choice (notes/assumptions/10.md, 26.md). -/
def Obligations.AcceptedResponseGoesOutWhole : Prop :=
  ∀ s : State,
    (∀ (cmd : Byte) (v : Word), s.Accepts (replyPackets s.params (ackMsg cmd v)).length →
      exec (.ack cmd v) s = .next (s.afterReply (ackMsg cmd v))) ∧
    (∀ (cmd : Byte) (code : ErrorCode), code ≠ .invalidAddr →
      s.Accepts (replyPackets s.params (errorMsg cmd code)).length →
      exec (.error cmd code) s = .next (s.afterReply (errorMsg cmd code))) ∧
    (s.Accepts (replyPackets s.params (infoMsg s.params)).length →
      exec .info s = .next (s.afterReply (infoMsg s.params)))

/-- R102, R103: ERROR with the reserved code INVALID_ADDR stops: the code is never sent. -/
def Obligations.ReservedErrorCodeIsRefused : Prop :=
  ∀ (s : State) (cmd : Byte), exec (.error cmd .invalidAddr) s = .refused .reservedErrorCode

/-! ## Flash service -/

/-- R191, R192: EraseApplication called directly, accepted throughout or refused at a sector. -/
def Obligations.EraseApplicationErases : Prop :=
  ∀ s : State,
    (s.Accepts s.params.sectors.length →
      ∃ t, exec .eraseApplication s = .next { t with result := .ok } ∧ Erased s t) ∧
    ∀ (k : Nat) (x : Sector), s.params.sectors[k]? = some x → s.RefusesAt k →
      ∃ t, exec .eraseApplication s = .next { t with result := .fail } ∧ ErasedUpTo s t k x

/-- R192: an erase that succeeds leaves every byte of the application region erased (R9 (d)), and a second one leaves the
same flash content as the first. -/
def Obligations.EraseCoversRegionAndIsIdempotent : Prop :=
  ∀ s u t : State, s.flash.wf → s.Accepts s.params.sectors.length → exec .eraseApplication s = .next u →
    (∀ a, s.params.appLo ≤ a → a < s.params.appHi → u.flash.read a = s.params.erased) ∧
    (u.Accepts s.params.sectors.length → exec .eraseApplication u = .next t → t.flash = u.flash)

/-- R193, R196: WriteFlash out of range answers FAIL, and with no data in range OK, and neither makes any call. -/
def Obligations.WriteFlashWithoutCalls : Prop :=
  ∀ (s : State) (offset : Word) (data : List Byte) (len : Word), len.toNat ≤ data.length →
    (s.params.appMaxSize.toNat < offset.toNat + len.toNat →
      exec (.writeFlash offset data len) s = .next { s with result := .fail }) ∧
    (offset.toNat ≤ s.params.appMaxSize.toNat → len.toNat = 0 →
      exec (.writeFlash offset data len) s = .next { s with result := .ok })

/-- R195: WriteFlash in range programs its units in order between unlock and lock, and stops at the first refused one. -/
def Obligations.WriteFlashPrograms : Prop :=
  ∀ (s : State) (offset : Word) (data : List Byte) (len : Word), len.toNat ≤ data.length → 0 < len.toNat →
    offset.toNat + len.toNat ≤ s.params.appMaxSize.toNat →
    let calls := programCalls s.params offset.toNat (data.take len.toNat)
    (s.Accepts calls.length → ∃ t, exec (.writeFlash offset data len) s = .next { t with result := .ok } ∧
      Programmed s t offset.toNat (data.take len.toNat)) ∧
    ∀ (k : Nat) (c : Nat × List Byte), calls[k]? = some c → s.RefusesAt k →
      ∃ t, exec (.writeFlash offset data len) s = .next { t with result := .fail } ∧
        ProgrammedUpTo s t offset.toNat (data.take len.toNat) k c

/-- R194: the units are `ceil(len/P)` many, unit k is P bytes at `P_APP_START + offset + k*P`, and together they are the
data followed by `P_ERASED` padding. -/
def Obligations.UnitsCarryDataAndPadding : Prop :=
  ∀ (s : State) (offset : Nat) (data : List Byte),
    let P := s.params.progUnit
    let calls := programCalls s.params offset data
    calls.length = (data.length + P - 1) / P ∧
    (∀ (k : Nat) (c : Nat × List Byte), calls[k]? = some c → c.1 = s.params.appLo + offset + k * P ∧ c.2.length = P) ∧
    (calls.map Prod.snd).flatten = data ++ List.replicate (calls.length * P - data.length) s.params.erased

/-- R197: WriteFlash in range with every unit accepted answers OK, and VerifyFlash right after it answers TRUE for the same
data and FALSE for any other of the same length, under STORE, or under AND over bytes that were 0xFF. -/
def Obligations.WrittenDataVerifies : Prop :=
  ∀ (s : State) (offset : Word) (data other : List Byte) (len : Word),
    len.toNat = data.length → other.length = data.length →
    offset.toNat + data.length ≤ s.params.appMaxSize.toNat →
    s.Accepts (programCalls s.params offset.toNat data).length →
    s.params.programSem = .store ∨
      (∀ i < data.length, s.flash.read (s.params.appLo + offset.toNat + i) = 0xFF) →
    ∃ t u, exec (.writeFlash offset data len) s = .next t ∧ t.result = .ok ∧
      exec (.verifyFlash offset other len) t = .next u ∧ u.result = .truth (decide (other = data))

/-- R197: VerifyFlash answers TRUE exactly when the range is inside the region and every byte is equal; it changes nothing
but the trace, by reads of one byte alone; out of range it reads nothing, on TRUE it has read each byte once, in order, and on
a difference each byte up to the first that differs. -/
def Obligations.VerifyFlashCompares : Prop :=
  ∀ (s : State) (offset : Word) (data : List Byte) (len : Word), s.landings = [] → len.toNat ≤ data.length →
    let d := data.take len.toNat
    let start := s.params.appLo + offset.toNat
    let inside := offset.toNat + len.toNat ≤ s.params.appMaxSize.toNat
    ∃ (t : State) (b : Bool) (es : List Event), exec (.verifyFlash offset data len) s = .next t ∧
      t = { s with trace := s.trace ++ es, result := .truth b } ∧
      (b = true ↔ inside ∧ s.Holds start d) ∧
      (∀ e ∈ es, ∃ a v, e = .memRead a 1 (some [v])) ∧
      (¬ inside → es = []) ∧
      (b = true → es = compareReads start d) ∧
      ∀ k < d.length, inside → s.Holds start (d.take k) → s.flash.read (start + k) ≠ byteAt d k →
        es = compareReads start (d.take k) ++ [.memRead (start + k) 1 (some [s.flash.read (start + k)])]

/-- R200: the CRC-32 values of the corner cases. -/
def Obligations.Crc32CornerCases : Prop :=
  crc32Of [] = 0x00000000 ∧ crc32Of [0x00] = 0xD202EF8D ∧ crc32Of [0xFF, 0xFF, 0xFF, 0xFF] = 0xFFFFFFFF ∧
    crc32Of [0x00, 0x00, 0x00, 0x00] = 0x2144DF1C ∧ crc32Of [0x61] = 0xE8B7BE43

/-- R198, R199: Crc32 answers the CRC of its first `len` bytes and changes no state of the block. -/
def Obligations.Crc32IsPure : Prop :=
  ∀ (s : State) (data : List Byte) (len : Word), len.toNat ≤ data.length →
    exec (.crc32 data len) s = .next { s with result := .word (crc32Of (data.take len.toNat)) }

/-- R206 to R208: CheckApplication answers TRUE exactly when both vector reads succeed and the table flash holds is valid;
a fault at either read makes it FALSE. It changes nothing but trace, draws and its answer. That a read of the vector
table faults by a draw, inside the region too, is the model's choice (notes/assumptions/11.md). -/
def Obligations.CheckApplicationDecides : Prop :=
  ∀ s : State, s.landings = [] → VectorsMapped s.params →
    (s.answer = .ok → s.drawn.answer = .ok →
      exec .checkApplication s = .next { s with
        trace := s.trace ++ [.memRead s.params.appLo 4 (some (s.bytes4 s.params.appLo)),
          .memRead (s.params.appLo + 4) 4 (some (s.bytes4 (s.params.appLo + 4)))]
        answers := s.answers.drop 2
        draws := s.draws + 2
        result := .truth (decide (s.params.ramLo.toNat ≤ (s.word s.params.appLo).toNat ∧
          (s.word s.params.appLo).toNat ≤ s.params.ramHi.toNat ∧
          s.params.appLo ≤ (s.word (s.params.appLo + 4)).toNat ∧
          (s.word (s.params.appLo + 4)).toNat < s.params.appHi ∧
          (s.word (s.params.appLo + 4)).toNat % 2 = 1)) }) ∧
    (s.answer = .fail ∨ s.drawn.answer = .fail →
      ∃ t, exec .checkApplication s = .next t ∧ t.result = .truth false ∧
        t = { s with trace := t.trace, answers := t.answers, draws := t.draws, result := t.result })

/-- R208: a vector table whose reset vector's low bit is 0 is rejected, whatever else holds and whatever the reads
answer. -/
def Obligations.EvenResetVectorIsRejected : Prop :=
  ∀ s : State, s.landings = [] → (s.word (s.params.appLo + 4)).toNat % 2 = 0 →
    ∃ t, exec .checkApplication s = .next t ∧ t.result = .truth false

/-- R163, R210, R211, R252: with a valid table JumpToApplication, and SettleDone in SETTLE, disables interrupts, relocates the
vector table, loads the stack pointer and branches, in this order, and the mode is JUMPED. Packets that land before either
vector read, or before `DisableInterrupts()`, are received there, in a mode where RX steps, and the receive side is what their
RX steps, in order, make of it; no packet is received from then on, and nothing stands between the four calls. Nothing else
changes. Where packets land is said by the model's `landings` (notes/assumptions/9.md). -/
def Obligations.JumpToApplicationJumps : Prop :=
  ∀ (s : State) (i : Instr), i = .jumpToApplication ∨ i = .settleDone ∧ s.mode = .settle →
    OnlyPackets s.landings → s.answers.take 2 = [.ok, .ok] → VectorsMapped s.params →
    validTable s.params s.vectorTable = true →
    let p (n : Nat) : List Packet := packetsBefore n s.landings
    let rx := s.fed (p 0 ++ p 1 ++ p 2)
    exec i s = .next { (s.afterVectorReads.afterJump s.vectorTable) with
      rxBuf := rx.rxBuf
      msgQ := rx.msgQ
      landings := afterCalls 6 s.landings
      trace := s.trace ++ s.heard (p 0) ++ [.memRead s.params.appLo 4 (some (s.bytes4 s.params.appLo))] ++
        s.heard (p 1) ++ [.memRead (s.params.appLo + 4) 4 (some (s.bytes4 (s.params.appLo + 4)))] ++ s.heard (p 2) ++
        [.disableInterrupts, .relocateVectorTable s.params.appStart, .setStackPointer s.vectorTable.sp,
          .branch s.vectorTable.rv] }

/-- R212: with an invalid table, or a fault at either read, JumpToApplication answers REMAINED, makes none of the four
calls, and changes no state of the block. -/
def Obligations.JumpToApplicationRemains : Prop :=
  ∀ s : State, s.landings = [] →
    validTable s.params s.vectorTable = false ∨ s.answer = .fail ∨ s.drawn.answer = .fail →
    ∃ (t : State) (es : List Event), exec .jumpToApplication s = .next t ∧
      t = { s with trace := s.trace ++ es, answers := t.answers, draws := t.draws, result := .remained } ∧
      ∀ e ∈ es, ∃ a r, e = .memRead a 4 r

/-! ## Entry/State Controller -/

/-- R163, R211, R212: SettleDone in SETTLE jumps with a valid table; with an invalid one, or a fault at either vector read,
it returns to BOOTLOADER with no response. That `last_status` is then as it was is read from R163 by inference
(notes/assumptions/26.md); that the model goes on unchanged in another mode, where the step does not exist, is its own
choice (8.md). -/
def Obligations.SettleDoneJumpsOrReturns : Prop :=
  ∀ s : State,
    (s.mode = .settle → s.Accepts 2 → VectorsMapped s.params →
      exec .settleDone s = .next (if validTable s.params s.vectorTable then s.afterVectorReads.afterJump s.vectorTable
        else { s.afterVectorReads with mode := .bootloader })) ∧
    (s.mode = .settle → s.landings = [] → s.answer = .fail ∨ s.drawn.answer = .fail →
      ∃ (t : State) (es : List Event), exec .settleDone s = .next t ∧
        t = { s with mode := .bootloader, trace := s.trace ++ es, answers := t.answers, draws := t.draws } ∧
        ∀ e ∈ es, ∃ a r, e = .memRead a 4 r) ∧
    (s.mode ≠ .settle → exec .settleDone s = .next s)

/-- R230, R232: the BOOT step with the flag at the sentinel clears the flag, sets REQUEST and enters BOOTLOADER, and does
not read the vector table. -/
def Obligations.BootStepHonoursRequest : Prop :=
  ∀ s : State, s.mode = .boot → s.landings = [] → s.pflag = s.params.magic →
    exec .bootStep s = .next { s with
      mode := .bootloader
      entryReason := some .request
      pflag := s.params.magicClear
      trace := s.trace ++ [.memRead s.params.flagAddr.toNat 4 (some (le32Bytes s.params.magic)),
        .memWrite s.params.flagAddr.toNat 4 s.params.magicClear] }

/-- R230, R232: the BOOT step without the sentinel leaves the flag alone; with an invalid image it sets NO_APP and enters
BOOTLOADER; with a valid one it sets NONE and, the table being read again, jumps. -/
def Obligations.BootStepChecksApplication : Prop :=
  ∀ s : State, s.mode = .boot → s.pflag ≠ s.params.magic → VectorsMapped s.params →
    let r := s.emit (.memRead s.params.flagAddr.toNat 4 (some (le32Bytes s.pflag)))
    (s.Accepts 2 → validTable s.params s.vectorTable = false →
      exec .bootStep s = .next { r.afterVectorReads with mode := .bootloader, entryReason := some .noApp }) ∧
    (s.Accepts 4 → validTable s.params s.vectorTable = true →
      exec .bootStep s = .next
        { (r.afterVectorReads.afterVectorReads.afterJump s.vectorTable) with entryReason := some .none })

/-- R208, R230, R232: without the sentinel a fault at either vector read of the check makes the BOOT step set NO_APP and
stay; where the check passes and a read of the jump's re-validation faults, `entry_reason` is NONE and the mode is
BOOTLOADER all the same (D34). No call but reads is made. That the model goes on unchanged in another mode than BOOT, where
there is no BOOT step, is its own choice (notes/assumptions/8.md), and so is that these reads fault by draw (11.md). -/
def Obligations.BootStepStaysOnFault : Prop :=
  ∀ s : State,
    let stays (reason : EntryReason) : Prop := ∃ (t : State) (es : List Event), exec .bootStep s = .next t ∧
      t = { s with
        mode := .bootloader, entryReason := some reason, trace := s.trace ++ es, answers := t.answers, draws := t.draws } ∧
      ∀ e ∈ es, ∃ a r, e = .memRead a 4 r
    (s.mode = .boot → s.landings = [] → s.pflag ≠ s.params.magic → s.answer = .fail ∨ s.drawn.answer = .fail →
      stays .noApp) ∧
    (s.mode = .boot → s.pflag ≠ s.params.magic → s.Accepts 2 → VectorsMapped s.params →
      validTable s.params s.vectorTable = true →
      s.afterVectorReads.answer = .fail ∨ s.afterVectorReads.drawn.answer = .fail → stays .none) ∧
    (s.mode ≠ .boot → exec .bootStep s = .next s)

/-- R233: RequestEntry, in any mode, writes the sentinel and resets: every element then has the value of R35 for a soft
reset. -/
def Obligations.RequestEntryWritesFlagAndResets : Prop :=
  ∀ s : State, s.landings = [] →
    exec .requestEntry s = .next { s with
      mode := .boot, rxBuf := [], msgQ := [], flashLock := .locked, entryReason := none, pflag := s.params.magic
      lastStatus := .none, result := .nothing
      trace := s.trace ++ [.memWrite s.params.flagAddr.toNat 4 s.params.magic, .systemReset, .reset .soft] }

/-- R234: from a state in which the flag holds the sentinel the BOOT step gives REQUEST; and whatever steps follow, the next
BOOT step that finds a valid application and the flag as the first one left it gives NONE. The schedule of turns is the
model's (notes/assumptions/7.md). -/
def Obligations.RequestIsOneShot : Prop :=
  ∀ (s u : State), OwnTurn s u → u.landings = [] → s.mode = .boot → s.pflag = s.params.magic →
    ∃ t, step s = .next t ∧ t.entryReason = some .request ∧ t.mode = .bootloader ∧ t.pflag = s.params.magicClear ∧
      ∀ (n : Nat) (v w : State), Host.Core.run Sys2Proof.core n t = .next v → v.pflag = t.pflag → v.mode = .boot →
        OwnTurn v w → w.Accepts 4 → VectorsMapped v.params → validTable v.params v.vectorTable = true →
        ∃ x, step v = .next x ∧ x.entryReason = some .none ∧ x.mode = .jumped ∧ x.pflag = s.params.magicClear

/-! ## Reset -/

/-- R35: the value of every element after each kind of reset. That a reset comes as a turn is the model's choice
(notes/assumptions/7.md). -/
def Obligations.ResetValues : Prop :=
  ∀ (s : State) (k : ResetKind) (rest : List Turn), s.turns = .reset k :: rest →
    ∃ t, step s = .next t ∧ ResetTo s t k [] ∧ t.flash = s.flash

/-- R280: a reset that lands inside ERASE_APP, at the sector after the first `k`, or inside WRITE_BLOCK, at the unit after
the first `k`, before that call or during it, ends the command at once: every element has the value of R35, the first `k`
sectors are erased or the first `k` units programmed, the sector or unit in progress is unspecified if the call was in
progress, and every other byte stands. Where the reset lands is said by the model's `landings` (notes/assumptions/9.md). That
after a soft reset the trace holds the call in progress, without an answer, is the model's choice
(notes/assumptions/16.md): the spec does not say whether such a call stands there. -/
def Obligations.ResetInsideFlashCommand : Prop :=
  (∀ (s : State) (dev : DevId) (payload : List Byte) (chk : Byte) (k : Nat) (x : Sector) (during : Bool)
    (kind : ResetKind) (rest : List Landing),
    s.mode = .bootloader → chk = checksum (0x04 :: payload) → s.params.sectors[k]? = some x →
    s.answers.take k = List.replicate k .ok →
    s.landings = List.replicate (k + 1) .call ++ .reset during kind :: rest →
    ∃ t, exec (.eraseApp dev payload chk) s = .next t ∧
      ResetTo s t kind ([.flashUnlock] ++
        (s.params.sectors.take k).map (fun y => .flashEraseSector y.number (some .ok)) ++
        if during then [.flashEraseSector x.number none] else []) ∧
      (∀ y ∈ s.params.sectors.take k, ∀ a < 2 ^ 32, y.Has a → ¬ (during = true ∧ x.Has a) →
        t.flash.read a = s.params.erased) ∧
      ∀ a, (∀ y ∈ s.params.sectors.take k, ¬ y.Has a) → ¬ (during = true ∧ x.Has a) →
        t.flash.read a = s.flash.read a) ∧
  ∀ (s : State) (dev : DevId) (payload : List Byte) (chk : Byte) (offset : Word) (data : List Byte) (k : Nat)
    (c : Nat × List Byte) (during : Bool) (kind : ResetKind) (rest : List Landing),
    s.mode = .bootloader → chk = checksum (0x02 :: payload) → BlockOperands payload offset data →
    offset.toNat + data.length ≤ s.params.appMaxSize.toNat →
    (programCalls s.params offset.toNat data)[k]? = some c → s.answers.take k = List.replicate k .ok →
    s.landings = List.replicate (k + 1) .call ++ .reset during kind :: rest →
    let start := s.params.appLo + offset.toNat
    ∃ t, exec (.writeBlock dev payload chk) s = .next t ∧
      ResetTo s t kind ([.flashUnlock] ++
        ((programCalls s.params offset.toNat data).take k).map (fun c => .flashProgramUnit c.1 c.2 (some .ok)) ++
        if during then [.flashProgramUnit c.1 c.2 none] else []) ∧
      (∀ i < k * s.params.progUnit, t.flash.read (start + i) =
        combine s.params.programSem (s.flash.read (start + i)) (byteAt data i)) ∧
      ∀ a, ¬ (start ≤ a ∧ a < start + (if during then k + 1 else k) * s.params.progUnit) →
        t.flash.read a = s.flash.read a

/-- R27: reading `entry_reason` while it is unset is refused, and reads its value once it is set. -/
def Obligations.UnsetEntryReasonIsRefused : Prop :=
  ∀ s : State, (s.entryReason = none → s.readEntryReason = .refused .entryReasonUnset) ∧
    ∀ r, s.entryReason = some r → s.readEntryReason = .next r

/-! ## The whole machine -/

/-- The invariant holds right after reset. -/
def Obligations.ResetMeetsInvariant : Prop := State.reset.Inv

/-- Every step keeps the invariant (R24, R25, R26, R27): the buffer and the queue keep their bounds, flash is locked
between steps, `entry_reason` is unset exactly in BOOT, and the memory keeps its canonical form; and no step changes the
configuration. -/
def Obligations.StepKeepsInvariant : Prop :=
  ∀ s t : State, s.Inv → step s = .next t → t.Inv ∧ t.platform = s.platform

/-- R53: no step, whatever the environment answers and wherever a reset lands, changes a byte of flash outside the
sectors and the application region with its last unit's padding. -/
def Obligations.FlashChangesOnlyInside : Prop :=
  ∀ (s t : State) (a : Nat), step s = .next t → ¬ Touchable s.params a → t.flash.read a = s.flash.read a

/-- R207, R211: a step enters JUMPED only with a valid vector table in flash, and leaves flash as it is. -/
def Obligations.JumpsOnlyIntoValidImage : Prop :=
  ∀ s t : State, step s = .next t → s.mode ≠ .jumped → t.mode = .jumped →
    validTable t.params t.vectorTable = true ∧ t.flash = s.flash

/-- R29: a step changes the flag only by clearing the sentinel at boot, by writing it for `request_entry`, or by a
power-on reset, which brings the flag's drawn value. That `request_entry` and a reset come as turns
(notes/assumptions/7.md), that RequestEntry may be called directly (10.md), and that either may land inside a step, where
`landings` says (9.md), is the model's way of putting it. -/
def Obligations.FlagChangesOnlyByItsRules : Prop :=
  ∀ s t : State, s.landings = [] → step s = .next t → t.pflag ≠ s.pflag →
    (s.mode = .boot ∧ s.pflag = s.params.magic ∧ t.pflag = s.params.magicClear) ∨
    (t.pflag = s.params.magic ∧ (s.turns.head? = some .requestEntry ∨ s.turns.head? = some (.call .requestEntry))) ∨
    (t.pflag = s.params.magic ∧ ∃ ls d, s.turns.head? = some (.own ls) ∧ .request d ∈ ls) ∨
    s.turns.head? = some (.reset (.powerOn t.pflag)) ∨
    ∃ ls d, s.turns.head? = some (.own ls) ∧ .reset d (.powerOn t.pflag) ∈ ls

/-- R27: once set, `entry_reason` is never written again until a reset unsets it. -/
def Obligations.EntryReasonIsReadOnly : Prop :=
  ∀ (s t : State) (r : EntryReason), s.mode ≠ .boot → s.entryReason = some r → step s = .next t →
    t.entryReason = some r ∨ (t.mode = .boot ∧ t.entryReason = none)

/-- R150, R254: with packets landing among the collaborator calls of a command, the command ends as it does without them,
but for what the packets do: `rx_buf` and `msg_q` are what their RX steps, in order, make of them, so that a message they
complete waits in `msg_q` or is dropped; and the trace holds the same calls in the same order and, in theirs, the packets
received. An RX step there is what a packet's instruction does. Where packets land is said by the model's `landings` (notes/assumptions/9.md). -/
def Obligations.PacketsInsideCommand : Prop :=
  (∀ (p : Packet) (s : State), exec (decodePacket p) s = .next (rxStep p s)) ∧
  ∀ (s t : State) (dev : DevId) (cmd : Byte) (payload : List Byte) (chk : Byte), s.mode = .bootloader →
    OnlyPackets s.landings →
    exec (commandOf dev cmd payload chk) { s with landings := [] } = .next t →
    ∃ (u : State) (ls : List Landing), exec (commandOf dev cmd payload chk) s = .next u ∧
      s.landings = ls ++ u.landings ∧
      u = { t with
        rxBuf := (s.fed (packetsOf ls)).rxBuf
        msgQ := (s.fed (packetsOf ls)).msgQ
        trace := u.trace
        landings := u.landings } ∧
      u.trace.filter (fun e => !e.isReceived) = t.trace.filter (fun e => !e.isReceived) ∧
      u.trace.filter Event.isReceived = t.trace.filter Event.isReceived ++ (packetsOf ls).map .received
end

