-- ==== Sys2Proof/Laws/Memory.lean ====
section
/-! SUPPORT. Memory: what a change leaves to be read, and that every change keeps the canonical form. -/

namespace Sys2Proof.Machine

theorem Memory.lookup_append (m n : Memory) (a : Nat) :
    List.lookup a (m ++ n) = (List.lookup a m).or (List.lookup a n) := by
  induction m with
  | nil => simp
  | cons c m ih =>
    obtain ⟨k, v⟩ := c
    by_cases h : a = k
    · subst h; simp [List.lookup]
    · have hb : (a == k) = false := by simpa using h
      simp [List.lookup, hb, ih]

theorem Memory.lookup_filter (m : Memory) (q : Nat → Bool) (a : Nat) :
    List.lookup a (m.filter fun c => q c.1) = if q a then List.lookup a m else none := by
  induction m with
  | nil => simp
  | cons c m ih =>
    obtain ⟨k, v⟩ := c
    by_cases hk : q k = true
    · rw [List.filter_cons_of_pos (by simpa using hk)]
      by_cases h : a = k
      · subst h; simp [List.lookup, hk]
      · have hb : (a == k) = false := by simpa using h
        simp [List.lookup, hb, ih]
    · rw [List.filter_cons_of_neg (by simpa using hk), ih]
      by_cases h : a = k
      · subst h; simp [hk]
      · have hb : (a == k) = false := by simpa using h
        simp [List.lookup, hb]

theorem Memory.lookup_block (f : Nat → Byte) (a : Nat) (l : List Nat) :
    List.lookup a (l.filterMap fun x => if f x = Memory.blank then none else some (x, f x)) =
      if a ∈ l ∧ f a ≠ Memory.blank then some (f a) else none := by
  induction l with
  | nil => simp
  | cons x l ih =>
    by_cases hx : f x = Memory.blank
    · rw [List.filterMap_cons_none (by simp [hx]), ih]
      by_cases h : a = x
      · subst h; simp [hx]
      · simp [h]
    · rw [List.filterMap_cons_some (b := (x, f x)) (by simp [hx])]
      by_cases h : a = x
      · subst h; simp [List.lookup, hx]
      · have hb : (a == x) = false := by simpa using h
        simp [List.lookup, hb, ih, h]

theorem Memory.lo_le_stop (lo n : Nat) : lo ≤ Memory.stop lo n := le_max_left _ _

/-- The reach of a change inside the address space is exactly its range. -/
theorem Memory.lt_stop_iff {lo n a : Nat} (ha : a < Config.addressSpace) (hlo : lo ≤ a) :
    a < Memory.stop lo n ↔ a < lo + n := by
  simp only [Memory.stop, Config.addressSpace] at *; omega

/-- Reading after a change. -/
theorem Memory.read_overwrite (m : Memory) (lo n : Nat) (f : Nat → Byte) (a : Nat) :
    Memory.read (Memory.overwrite m lo n f) a =
      if lo ≤ a ∧ a < Memory.stop lo n then f a else Memory.read m a := by
  have hs := Memory.lo_le_stop lo n
  simp only [Memory.read, Memory.overwrite, Memory.lookup_append, Memory.lookup_block]
  rw [Memory.lookup_filter m (fun k => decide (k < lo)), Memory.lookup_filter m (fun k => decide (Memory.stop lo n ≤ k))]
  simp only [List.mem_range'_1, decide_eq_true_eq]
  by_cases h1 : a < lo
  · have : ¬ Memory.stop lo n ≤ a := by omega
    simp [h1, this, Nat.not_le.mpr h1]
  · by_cases h2 : a < Memory.stop lo n
    · have h3 : ¬ Memory.stop lo n ≤ a := by omega
      have h4 : lo ≤ a ∧ a < lo + (Memory.stop lo n - lo) := by omega
      by_cases hb : f a = Memory.blank
      · simp [h1, h2, h3, hb, Nat.not_lt.mp h1]
      · simp [h1, h2, h3, h4, hb]
    · have h3 : Memory.stop lo n ≤ a := by omega
      have h4 : ¬ (lo ≤ a ∧ a < lo + (Memory.stop lo n - lo)) := by omega
      simp only [h1, h2, h3, if_false, if_true, and_false, Option.none_or]
      rw [if_neg fun h => h4 h.1]
      simp

/-- Inside the address space a change reaches exactly its range. -/
theorem Memory.read_overwrite_of_lt {a : Nat} (ha : a < Config.addressSpace) (m : Memory) (lo n : Nat) (f : Nat → Byte) :
    Memory.read (Memory.overwrite m lo n f) a = if lo ≤ a ∧ a < lo + n then f a else Memory.read m a := by
  rw [Memory.read_overwrite]
  by_cases h : lo ≤ a
  · simp [h, Memory.lt_stop_iff ha h]
  · simp [h]

/-- A change leaves every address outside its range alone. -/
theorem Memory.read_overwrite_outside {lo n a : Nat} (h : ¬ (lo ≤ a ∧ a < lo + n)) (m : Memory) (f : Nat → Byte) :
    Memory.read (Memory.overwrite m lo n f) a = Memory.read m a := by
  rw [Memory.read_overwrite, if_neg]
  simp only [Memory.stop] at *; omega

/-- Filling is overwriting with one value. -/
theorem Memory.fill_eq_overwrite (m : Memory) (lo n : Nat) (v : Byte) :
    Memory.fill m lo n v = Memory.overwrite m lo n fun _ => v := by
  by_cases h : v = Memory.blank
  · simp only [Memory.fill, if_pos h, Memory.overwrite]
    simp
  · simp [Memory.fill, h]

/-- Every change keeps the canonical form. -/
theorem Memory.wf_overwrite {m : Memory} (h : Memory.wf m) (lo n : Nat) (f : Nat → Byte) :
    Memory.wf (Memory.overwrite m lo n f) := by
  obtain ⟨hs, hc⟩ := h
  have hstop := Memory.lo_le_stop lo n
  have hblock : ∀ c ∈ ((List.range' lo (Memory.stop lo n - lo)).filterMap fun a =>
      if f a = Memory.blank then none else some ((a, f a) : Nat × Byte)),
      lo ≤ c.1 ∧ c.1 < Memory.stop lo n ∧ c.2 ≠ Memory.blank := by
    intro c hmem
    obtain ⟨a, ha, hf⟩ := List.mem_filterMap.mp hmem
    rw [List.mem_range'_1] at ha
    by_cases hb : f a = Memory.blank
    · simp [hb] at hf
    · simp only [hb, if_false, Option.some.injEq] at hf
      subst hf
      exact ⟨ha.1, by simp only []; omega, hb⟩
  refine ⟨?_, ?_⟩
  · simp only [Memory.overwrite]
    rw [List.pairwise_append, List.pairwise_append]
    refine ⟨⟨hs.filter _, ?_, ?_⟩, hs.filter _, ?_⟩
    · refine List.Pairwise.filterMap _ ?_ (List.pairwise_lt_range' (s := lo) (n := Memory.stop lo n - lo))
      intro a b hab x hx y hy
      by_cases ha : f a = Memory.blank
      · simp [ha] at hx
      · by_cases hb : f b = Memory.blank
        · simp [hb] at hy
        · simp only [ha, hb, if_false, Option.some.injEq] at hx hy
          subst hx; subst hy; exact hab
    · intro x hx y hy
      have h1 : x.1 < lo := by simpa using (List.mem_filter.mp hx).2
      have h2 := hblock y hy
      omega
    · intro x hx y hy
      have h3 : Memory.stop lo n ≤ y.1 := by simpa using (List.mem_filter.mp hy).2
      rcases List.mem_append.mp hx with hx | hx
      · have h1 : x.1 < lo := by simpa using (List.mem_filter.mp hx).2
        omega
      · have h2 := hblock x hx
        omega
  · intro c hmem
    simp only [Memory.overwrite, List.mem_append] at hmem
    rcases hmem with (hmem | hmem) | hmem
    · exact hc c (List.mem_filter.mp hmem).1
    · have h2 := hblock c hmem
      refine ⟨h2.2.2, ?_⟩
      simp only [Memory.stop] at h2; omega
    · exact hc c (List.mem_filter.mp hmem).1

theorem Memory.wf_fill {m : Memory} (h : Memory.wf m) (lo n : Nat) (v : Byte) : Memory.wf (Memory.fill m lo n v) := by
  rw [Memory.fill_eq_overwrite]; exact Memory.wf_overwrite h lo n _

theorem Memory.wf_nil : Memory.wf [] := by simp [Memory.wf]

/-- Two canonical memories that read alike everywhere are the same data. -/
theorem Memory.eq_of_read_eq {m n : Memory} (hm : Memory.wf m) (hn : Memory.wf n)
    (h : ∀ a, Memory.read m a = Memory.read n a) : m = n := by
  have key : ∀ {x y : Memory}, Memory.wf x → Memory.wf y → (∀ a, Memory.read x a = Memory.read y a) →
      ∀ c ∈ x, c ∈ y := by
    intro x y hx hy hr c hc
    have hl : List.lookup c.1 x = some c.2 := by
      have hnd : (x.map Prod.fst).Nodup := by
        rw [List.Nodup, List.pairwise_map]; exact hx.1.imp fun h => Nat.ne_of_lt h
      clear hr hy hx
      induction x with
      | nil => simp at hc
      | cons d x ih =>
        obtain ⟨k, v⟩ := d
        rcases List.mem_cons.mp hc with rfl | hc
        · simp [List.lookup]
        · have hne : c.1 ≠ k := by
            intro he
            exact (List.nodup_cons.mp hnd).1 (List.mem_map.mpr ⟨c, hc, he⟩)
          have hb : (c.1 == k) = false := by simpa using hne
          simp only [List.lookup, hb]
          exact ih hc (List.nodup_cons.mp hnd).2
    have hread : Memory.read y c.1 = c.2 := by rw [← hr]; simp [Memory.read, hl]
    have hne := (hx.2 c hc).1
    have : List.lookup c.1 y = some c.2 := by
      cases hy' : List.lookup c.1 y with
      | none => rw [Memory.read, hy'] at hread; exact absurd hread.symm hne
      | some v => rw [Memory.read, hy'] at hread; simpa using hread
    have mem_of_lookup : ∀ {l : Memory} {a : Nat} {v : Byte}, List.lookup a l = some v → (a, v) ∈ l := by
      intro l
      induction l with
      | nil => intro a v h; simp at h
      | cons d l ih =>
        intro a v h
        obtain ⟨k, w⟩ := d
        by_cases he : a = k
        · subst he; simp [List.lookup] at h; simp [h]
        · have hb : (a == k) = false := by simpa using he
          simp only [List.lookup, hb] at h
          exact List.mem_cons_of_mem _ (ih h)
    exact mem_of_lookup this
  have hsub1 := key hm hn h
  have hsub2 := key hn hm fun a => (h a).symm
  have hperm : m.Perm n := by
    rw [List.perm_ext_iff_of_nodup (hm.1.imp fun h => by rintro rfl; exact Nat.lt_irrefl _ h)
      (hn.1.imp fun h => by rintro rfl; exact Nat.lt_irrefl _ h)]
    exact fun c => ⟨hsub1 c, hsub2 c⟩
  exact hperm.eq_of_pairwise (fun a b _ _ h1 h2 => absurd h1 (Nat.lt_asymm h2)) hm.1 hn.1

end Sys2Proof.Machine
end

