-- ==== Sys2Proof/Laws/State.lean ====
section
/-! SUPPORT. What each update of the state leaves in each field: one lemma per field per update, true by rfl. -/

namespace Sys2Proof.Machine

variable (s : State)

@[simp] theorem State.emit_platform (e : Event) : (s.emit e).platform = s.platform := rfl
@[simp] theorem State.emit_mode (e : Event) : (s.emit e).mode = s.mode := rfl
@[simp] theorem State.emit_rxBuf (e : Event) : (s.emit e).rxBuf = s.rxBuf := rfl
@[simp] theorem State.emit_msgQ (e : Event) : (s.emit e).msgQ = s.msgQ := rfl
@[simp] theorem State.emit_flashLock (e : Event) : (s.emit e).flashLock = s.flashLock := rfl
@[simp] theorem State.emit_entryReason (e : Event) : (s.emit e).entryReason = s.entryReason := rfl
@[simp] theorem State.emit_pflag (e : Event) : (s.emit e).pflag = s.pflag := rfl
@[simp] theorem State.emit_lastStatus (e : Event) : (s.emit e).lastStatus = s.lastStatus := rfl
@[simp] theorem State.emit_flash (e : Event) : (s.emit e).flash = s.flash := rfl
@[simp] theorem State.emit_trace (e : Event) : (s.emit e).trace = s.trace ++ [e] := rfl
@[simp] theorem State.emit_turns (e : Event) : (s.emit e).turns = s.turns := rfl
@[simp] theorem State.emit_answers (e : Event) : (s.emit e).answers = s.answers := rfl
@[simp] theorem State.emit_draws (e : Event) : (s.emit e).draws = s.draws := rfl
@[simp] theorem State.emit_landings (e : Event) : (s.emit e).landings = s.landings := rfl
@[simp] theorem State.emit_result (e : Event) : (s.emit e).result = s.result := rfl
@[simp] theorem State.emit_params (e : Event) : (s.emit e).params = s.params := rfl
@[simp] theorem State.emit_rxLen (e : Event) : (s.emit e).rxLen = s.rxLen := rfl

@[simp] theorem State.setMode_platform (v : Mode) : (s.setMode v).platform = s.platform := rfl
@[simp] theorem State.setMode_mode (v : Mode) : (s.setMode v).mode = v := rfl
@[simp] theorem State.setMode_rxBuf (v : Mode) : (s.setMode v).rxBuf = s.rxBuf := rfl
@[simp] theorem State.setMode_msgQ (v : Mode) : (s.setMode v).msgQ = s.msgQ := rfl
@[simp] theorem State.setMode_flashLock (v : Mode) : (s.setMode v).flashLock = s.flashLock := rfl
@[simp] theorem State.setMode_entryReason (v : Mode) : (s.setMode v).entryReason = s.entryReason := rfl
@[simp] theorem State.setMode_pflag (v : Mode) : (s.setMode v).pflag = s.pflag := rfl
@[simp] theorem State.setMode_lastStatus (v : Mode) : (s.setMode v).lastStatus = s.lastStatus := rfl
@[simp] theorem State.setMode_flash (v : Mode) : (s.setMode v).flash = s.flash := rfl
@[simp] theorem State.setMode_trace (v : Mode) : (s.setMode v).trace = s.trace := rfl
@[simp] theorem State.setMode_turns (v : Mode) : (s.setMode v).turns = s.turns := rfl
@[simp] theorem State.setMode_answers (v : Mode) : (s.setMode v).answers = s.answers := rfl
@[simp] theorem State.setMode_draws (v : Mode) : (s.setMode v).draws = s.draws := rfl
@[simp] theorem State.setMode_landings (v : Mode) : (s.setMode v).landings = s.landings := rfl
@[simp] theorem State.setMode_result (v : Mode) : (s.setMode v).result = s.result := rfl
@[simp] theorem State.setMode_params (v : Mode) : (s.setMode v).params = s.params := rfl
@[simp] theorem State.setMode_rxLen (v : Mode) : (s.setMode v).rxLen = s.rxLen := rfl

@[simp] theorem State.setRxBuf_platform (v : List Byte) : (s.setRxBuf v).platform = s.platform := rfl
@[simp] theorem State.setRxBuf_mode (v : List Byte) : (s.setRxBuf v).mode = s.mode := rfl
@[simp] theorem State.setRxBuf_rxBuf (v : List Byte) : (s.setRxBuf v).rxBuf = v := rfl
@[simp] theorem State.setRxBuf_msgQ (v : List Byte) : (s.setRxBuf v).msgQ = s.msgQ := rfl
@[simp] theorem State.setRxBuf_flashLock (v : List Byte) : (s.setRxBuf v).flashLock = s.flashLock := rfl
@[simp] theorem State.setRxBuf_entryReason (v : List Byte) : (s.setRxBuf v).entryReason = s.entryReason := rfl
@[simp] theorem State.setRxBuf_pflag (v : List Byte) : (s.setRxBuf v).pflag = s.pflag := rfl
@[simp] theorem State.setRxBuf_lastStatus (v : List Byte) : (s.setRxBuf v).lastStatus = s.lastStatus := rfl
@[simp] theorem State.setRxBuf_flash (v : List Byte) : (s.setRxBuf v).flash = s.flash := rfl
@[simp] theorem State.setRxBuf_trace (v : List Byte) : (s.setRxBuf v).trace = s.trace := rfl
@[simp] theorem State.setRxBuf_turns (v : List Byte) : (s.setRxBuf v).turns = s.turns := rfl
@[simp] theorem State.setRxBuf_answers (v : List Byte) : (s.setRxBuf v).answers = s.answers := rfl
@[simp] theorem State.setRxBuf_draws (v : List Byte) : (s.setRxBuf v).draws = s.draws := rfl
@[simp] theorem State.setRxBuf_landings (v : List Byte) : (s.setRxBuf v).landings = s.landings := rfl
@[simp] theorem State.setRxBuf_result (v : List Byte) : (s.setRxBuf v).result = s.result := rfl
@[simp] theorem State.setRxBuf_params (v : List Byte) : (s.setRxBuf v).params = s.params := rfl
@[simp] theorem State.setRxBuf_rxLen (v : List Byte) : (s.setRxBuf v).rxLen = v.length := rfl

@[simp] theorem State.setMsgQ_platform (v : List (List Byte)) : (s.setMsgQ v).platform = s.platform := rfl
@[simp] theorem State.setMsgQ_mode (v : List (List Byte)) : (s.setMsgQ v).mode = s.mode := rfl
@[simp] theorem State.setMsgQ_rxBuf (v : List (List Byte)) : (s.setMsgQ v).rxBuf = s.rxBuf := rfl
@[simp] theorem State.setMsgQ_msgQ (v : List (List Byte)) : (s.setMsgQ v).msgQ = v := rfl
@[simp] theorem State.setMsgQ_flashLock (v : List (List Byte)) : (s.setMsgQ v).flashLock = s.flashLock := rfl
@[simp] theorem State.setMsgQ_entryReason (v : List (List Byte)) : (s.setMsgQ v).entryReason = s.entryReason := rfl
@[simp] theorem State.setMsgQ_pflag (v : List (List Byte)) : (s.setMsgQ v).pflag = s.pflag := rfl
@[simp] theorem State.setMsgQ_lastStatus (v : List (List Byte)) : (s.setMsgQ v).lastStatus = s.lastStatus := rfl
@[simp] theorem State.setMsgQ_flash (v : List (List Byte)) : (s.setMsgQ v).flash = s.flash := rfl
@[simp] theorem State.setMsgQ_trace (v : List (List Byte)) : (s.setMsgQ v).trace = s.trace := rfl
@[simp] theorem State.setMsgQ_turns (v : List (List Byte)) : (s.setMsgQ v).turns = s.turns := rfl
@[simp] theorem State.setMsgQ_answers (v : List (List Byte)) : (s.setMsgQ v).answers = s.answers := rfl
@[simp] theorem State.setMsgQ_draws (v : List (List Byte)) : (s.setMsgQ v).draws = s.draws := rfl
@[simp] theorem State.setMsgQ_landings (v : List (List Byte)) : (s.setMsgQ v).landings = s.landings := rfl
@[simp] theorem State.setMsgQ_result (v : List (List Byte)) : (s.setMsgQ v).result = s.result := rfl
@[simp] theorem State.setMsgQ_params (v : List (List Byte)) : (s.setMsgQ v).params = s.params := rfl
@[simp] theorem State.setMsgQ_rxLen (v : List (List Byte)) : (s.setMsgQ v).rxLen = s.rxLen := rfl

@[simp] theorem State.setLock_platform (v : FlashLock) : (s.setLock v).platform = s.platform := rfl
@[simp] theorem State.setLock_mode (v : FlashLock) : (s.setLock v).mode = s.mode := rfl
@[simp] theorem State.setLock_rxBuf (v : FlashLock) : (s.setLock v).rxBuf = s.rxBuf := rfl
@[simp] theorem State.setLock_msgQ (v : FlashLock) : (s.setLock v).msgQ = s.msgQ := rfl
@[simp] theorem State.setLock_flashLock (v : FlashLock) : (s.setLock v).flashLock = v := rfl
@[simp] theorem State.setLock_entryReason (v : FlashLock) : (s.setLock v).entryReason = s.entryReason := rfl
@[simp] theorem State.setLock_pflag (v : FlashLock) : (s.setLock v).pflag = s.pflag := rfl
@[simp] theorem State.setLock_lastStatus (v : FlashLock) : (s.setLock v).lastStatus = s.lastStatus := rfl
@[simp] theorem State.setLock_flash (v : FlashLock) : (s.setLock v).flash = s.flash := rfl
@[simp] theorem State.setLock_trace (v : FlashLock) : (s.setLock v).trace = s.trace := rfl
@[simp] theorem State.setLock_turns (v : FlashLock) : (s.setLock v).turns = s.turns := rfl
@[simp] theorem State.setLock_answers (v : FlashLock) : (s.setLock v).answers = s.answers := rfl
@[simp] theorem State.setLock_draws (v : FlashLock) : (s.setLock v).draws = s.draws := rfl
@[simp] theorem State.setLock_landings (v : FlashLock) : (s.setLock v).landings = s.landings := rfl
@[simp] theorem State.setLock_result (v : FlashLock) : (s.setLock v).result = s.result := rfl
@[simp] theorem State.setLock_params (v : FlashLock) : (s.setLock v).params = s.params := rfl
@[simp] theorem State.setLock_rxLen (v : FlashLock) : (s.setLock v).rxLen = s.rxLen := rfl

@[simp] theorem State.setReason_platform (v : Option EntryReason) : (s.setReason v).platform = s.platform := rfl
@[simp] theorem State.setReason_mode (v : Option EntryReason) : (s.setReason v).mode = s.mode := rfl
@[simp] theorem State.setReason_rxBuf (v : Option EntryReason) : (s.setReason v).rxBuf = s.rxBuf := rfl
@[simp] theorem State.setReason_msgQ (v : Option EntryReason) : (s.setReason v).msgQ = s.msgQ := rfl
@[simp] theorem State.setReason_flashLock (v : Option EntryReason) : (s.setReason v).flashLock = s.flashLock := rfl
@[simp] theorem State.setReason_entryReason (v : Option EntryReason) : (s.setReason v).entryReason = v := rfl
@[simp] theorem State.setReason_pflag (v : Option EntryReason) : (s.setReason v).pflag = s.pflag := rfl
@[simp] theorem State.setReason_lastStatus (v : Option EntryReason) : (s.setReason v).lastStatus = s.lastStatus := rfl
@[simp] theorem State.setReason_flash (v : Option EntryReason) : (s.setReason v).flash = s.flash := rfl
@[simp] theorem State.setReason_trace (v : Option EntryReason) : (s.setReason v).trace = s.trace := rfl
@[simp] theorem State.setReason_turns (v : Option EntryReason) : (s.setReason v).turns = s.turns := rfl
@[simp] theorem State.setReason_answers (v : Option EntryReason) : (s.setReason v).answers = s.answers := rfl
@[simp] theorem State.setReason_draws (v : Option EntryReason) : (s.setReason v).draws = s.draws := rfl
@[simp] theorem State.setReason_landings (v : Option EntryReason) : (s.setReason v).landings = s.landings := rfl
@[simp] theorem State.setReason_result (v : Option EntryReason) : (s.setReason v).result = s.result := rfl
@[simp] theorem State.setReason_params (v : Option EntryReason) : (s.setReason v).params = s.params := rfl
@[simp] theorem State.setReason_rxLen (v : Option EntryReason) : (s.setReason v).rxLen = s.rxLen := rfl

@[simp] theorem State.setPflag_platform (v : Word) : (s.setPflag v).platform = s.platform := rfl
@[simp] theorem State.setPflag_mode (v : Word) : (s.setPflag v).mode = s.mode := rfl
@[simp] theorem State.setPflag_rxBuf (v : Word) : (s.setPflag v).rxBuf = s.rxBuf := rfl
@[simp] theorem State.setPflag_msgQ (v : Word) : (s.setPflag v).msgQ = s.msgQ := rfl
@[simp] theorem State.setPflag_flashLock (v : Word) : (s.setPflag v).flashLock = s.flashLock := rfl
@[simp] theorem State.setPflag_entryReason (v : Word) : (s.setPflag v).entryReason = s.entryReason := rfl
@[simp] theorem State.setPflag_pflag (v : Word) : (s.setPflag v).pflag = v := rfl
@[simp] theorem State.setPflag_lastStatus (v : Word) : (s.setPflag v).lastStatus = s.lastStatus := rfl
@[simp] theorem State.setPflag_flash (v : Word) : (s.setPflag v).flash = s.flash := rfl
@[simp] theorem State.setPflag_trace (v : Word) : (s.setPflag v).trace = s.trace := rfl
@[simp] theorem State.setPflag_turns (v : Word) : (s.setPflag v).turns = s.turns := rfl
@[simp] theorem State.setPflag_answers (v : Word) : (s.setPflag v).answers = s.answers := rfl
@[simp] theorem State.setPflag_draws (v : Word) : (s.setPflag v).draws = s.draws := rfl
@[simp] theorem State.setPflag_landings (v : Word) : (s.setPflag v).landings = s.landings := rfl
@[simp] theorem State.setPflag_result (v : Word) : (s.setPflag v).result = s.result := rfl
@[simp] theorem State.setPflag_params (v : Word) : (s.setPflag v).params = s.params := rfl
@[simp] theorem State.setPflag_rxLen (v : Word) : (s.setPflag v).rxLen = s.rxLen := rfl

@[simp] theorem State.setStatus_platform (v : SvcStatus) : (s.setStatus v).platform = s.platform := rfl
@[simp] theorem State.setStatus_mode (v : SvcStatus) : (s.setStatus v).mode = s.mode := rfl
@[simp] theorem State.setStatus_rxBuf (v : SvcStatus) : (s.setStatus v).rxBuf = s.rxBuf := rfl
@[simp] theorem State.setStatus_msgQ (v : SvcStatus) : (s.setStatus v).msgQ = s.msgQ := rfl
@[simp] theorem State.setStatus_flashLock (v : SvcStatus) : (s.setStatus v).flashLock = s.flashLock := rfl
@[simp] theorem State.setStatus_entryReason (v : SvcStatus) : (s.setStatus v).entryReason = s.entryReason := rfl
@[simp] theorem State.setStatus_pflag (v : SvcStatus) : (s.setStatus v).pflag = s.pflag := rfl
@[simp] theorem State.setStatus_lastStatus (v : SvcStatus) : (s.setStatus v).lastStatus = v := rfl
@[simp] theorem State.setStatus_flash (v : SvcStatus) : (s.setStatus v).flash = s.flash := rfl
@[simp] theorem State.setStatus_trace (v : SvcStatus) : (s.setStatus v).trace = s.trace := rfl
@[simp] theorem State.setStatus_turns (v : SvcStatus) : (s.setStatus v).turns = s.turns := rfl
@[simp] theorem State.setStatus_answers (v : SvcStatus) : (s.setStatus v).answers = s.answers := rfl
@[simp] theorem State.setStatus_draws (v : SvcStatus) : (s.setStatus v).draws = s.draws := rfl
@[simp] theorem State.setStatus_landings (v : SvcStatus) : (s.setStatus v).landings = s.landings := rfl
@[simp] theorem State.setStatus_result (v : SvcStatus) : (s.setStatus v).result = s.result := rfl
@[simp] theorem State.setStatus_params (v : SvcStatus) : (s.setStatus v).params = s.params := rfl
@[simp] theorem State.setStatus_rxLen (v : SvcStatus) : (s.setStatus v).rxLen = s.rxLen := rfl

@[simp] theorem State.setFlash_platform (v : Memory) : (s.setFlash v).platform = s.platform := rfl
@[simp] theorem State.setFlash_mode (v : Memory) : (s.setFlash v).mode = s.mode := rfl
@[simp] theorem State.setFlash_rxBuf (v : Memory) : (s.setFlash v).rxBuf = s.rxBuf := rfl
@[simp] theorem State.setFlash_msgQ (v : Memory) : (s.setFlash v).msgQ = s.msgQ := rfl
@[simp] theorem State.setFlash_flashLock (v : Memory) : (s.setFlash v).flashLock = s.flashLock := rfl
@[simp] theorem State.setFlash_entryReason (v : Memory) : (s.setFlash v).entryReason = s.entryReason := rfl
@[simp] theorem State.setFlash_pflag (v : Memory) : (s.setFlash v).pflag = s.pflag := rfl
@[simp] theorem State.setFlash_lastStatus (v : Memory) : (s.setFlash v).lastStatus = s.lastStatus := rfl
@[simp] theorem State.setFlash_flash (v : Memory) : (s.setFlash v).flash = v := rfl
@[simp] theorem State.setFlash_trace (v : Memory) : (s.setFlash v).trace = s.trace := rfl
@[simp] theorem State.setFlash_turns (v : Memory) : (s.setFlash v).turns = s.turns := rfl
@[simp] theorem State.setFlash_answers (v : Memory) : (s.setFlash v).answers = s.answers := rfl
@[simp] theorem State.setFlash_draws (v : Memory) : (s.setFlash v).draws = s.draws := rfl
@[simp] theorem State.setFlash_landings (v : Memory) : (s.setFlash v).landings = s.landings := rfl
@[simp] theorem State.setFlash_result (v : Memory) : (s.setFlash v).result = s.result := rfl
@[simp] theorem State.setFlash_params (v : Memory) : (s.setFlash v).params = s.params := rfl
@[simp] theorem State.setFlash_rxLen (v : Memory) : (s.setFlash v).rxLen = s.rxLen := rfl

@[simp] theorem State.setTurns_platform (v : List Turn) : (s.setTurns v).platform = s.platform := rfl
@[simp] theorem State.setTurns_mode (v : List Turn) : (s.setTurns v).mode = s.mode := rfl
@[simp] theorem State.setTurns_rxBuf (v : List Turn) : (s.setTurns v).rxBuf = s.rxBuf := rfl
@[simp] theorem State.setTurns_msgQ (v : List Turn) : (s.setTurns v).msgQ = s.msgQ := rfl
@[simp] theorem State.setTurns_flashLock (v : List Turn) : (s.setTurns v).flashLock = s.flashLock := rfl
@[simp] theorem State.setTurns_entryReason (v : List Turn) : (s.setTurns v).entryReason = s.entryReason := rfl
@[simp] theorem State.setTurns_pflag (v : List Turn) : (s.setTurns v).pflag = s.pflag := rfl
@[simp] theorem State.setTurns_lastStatus (v : List Turn) : (s.setTurns v).lastStatus = s.lastStatus := rfl
@[simp] theorem State.setTurns_flash (v : List Turn) : (s.setTurns v).flash = s.flash := rfl
@[simp] theorem State.setTurns_trace (v : List Turn) : (s.setTurns v).trace = s.trace := rfl
@[simp] theorem State.setTurns_turns (v : List Turn) : (s.setTurns v).turns = v := rfl
@[simp] theorem State.setTurns_answers (v : List Turn) : (s.setTurns v).answers = s.answers := rfl
@[simp] theorem State.setTurns_draws (v : List Turn) : (s.setTurns v).draws = s.draws := rfl
@[simp] theorem State.setTurns_landings (v : List Turn) : (s.setTurns v).landings = s.landings := rfl
@[simp] theorem State.setTurns_result (v : List Turn) : (s.setTurns v).result = s.result := rfl
@[simp] theorem State.setTurns_params (v : List Turn) : (s.setTurns v).params = s.params := rfl
@[simp] theorem State.setTurns_rxLen (v : List Turn) : (s.setTurns v).rxLen = s.rxLen := rfl

@[simp] theorem State.setAnswers_platform (v : List Answer) : (s.setAnswers v).platform = s.platform := rfl
@[simp] theorem State.setAnswers_mode (v : List Answer) : (s.setAnswers v).mode = s.mode := rfl
@[simp] theorem State.setAnswers_rxBuf (v : List Answer) : (s.setAnswers v).rxBuf = s.rxBuf := rfl
@[simp] theorem State.setAnswers_msgQ (v : List Answer) : (s.setAnswers v).msgQ = s.msgQ := rfl
@[simp] theorem State.setAnswers_flashLock (v : List Answer) : (s.setAnswers v).flashLock = s.flashLock := rfl
@[simp] theorem State.setAnswers_entryReason (v : List Answer) : (s.setAnswers v).entryReason = s.entryReason := rfl
@[simp] theorem State.setAnswers_pflag (v : List Answer) : (s.setAnswers v).pflag = s.pflag := rfl
@[simp] theorem State.setAnswers_lastStatus (v : List Answer) : (s.setAnswers v).lastStatus = s.lastStatus := rfl
@[simp] theorem State.setAnswers_flash (v : List Answer) : (s.setAnswers v).flash = s.flash := rfl
@[simp] theorem State.setAnswers_trace (v : List Answer) : (s.setAnswers v).trace = s.trace := rfl
@[simp] theorem State.setAnswers_turns (v : List Answer) : (s.setAnswers v).turns = s.turns := rfl
@[simp] theorem State.setAnswers_answers (v : List Answer) : (s.setAnswers v).answers = v := rfl
@[simp] theorem State.setAnswers_draws (v : List Answer) : (s.setAnswers v).draws = s.draws := rfl
@[simp] theorem State.setAnswers_landings (v : List Answer) : (s.setAnswers v).landings = s.landings := rfl
@[simp] theorem State.setAnswers_result (v : List Answer) : (s.setAnswers v).result = s.result := rfl
@[simp] theorem State.setAnswers_params (v : List Answer) : (s.setAnswers v).params = s.params := rfl
@[simp] theorem State.setAnswers_rxLen (v : List Answer) : (s.setAnswers v).rxLen = s.rxLen := rfl

@[simp] theorem State.setDraws_platform (v : Nat) : (s.setDraws v).platform = s.platform := rfl
@[simp] theorem State.setDraws_mode (v : Nat) : (s.setDraws v).mode = s.mode := rfl
@[simp] theorem State.setDraws_rxBuf (v : Nat) : (s.setDraws v).rxBuf = s.rxBuf := rfl
@[simp] theorem State.setDraws_msgQ (v : Nat) : (s.setDraws v).msgQ = s.msgQ := rfl
@[simp] theorem State.setDraws_flashLock (v : Nat) : (s.setDraws v).flashLock = s.flashLock := rfl
@[simp] theorem State.setDraws_entryReason (v : Nat) : (s.setDraws v).entryReason = s.entryReason := rfl
@[simp] theorem State.setDraws_pflag (v : Nat) : (s.setDraws v).pflag = s.pflag := rfl
@[simp] theorem State.setDraws_lastStatus (v : Nat) : (s.setDraws v).lastStatus = s.lastStatus := rfl
@[simp] theorem State.setDraws_flash (v : Nat) : (s.setDraws v).flash = s.flash := rfl
@[simp] theorem State.setDraws_trace (v : Nat) : (s.setDraws v).trace = s.trace := rfl
@[simp] theorem State.setDraws_turns (v : Nat) : (s.setDraws v).turns = s.turns := rfl
@[simp] theorem State.setDraws_answers (v : Nat) : (s.setDraws v).answers = s.answers := rfl
@[simp] theorem State.setDraws_draws (v : Nat) : (s.setDraws v).draws = v := rfl
@[simp] theorem State.setDraws_landings (v : Nat) : (s.setDraws v).landings = s.landings := rfl
@[simp] theorem State.setDraws_result (v : Nat) : (s.setDraws v).result = s.result := rfl
@[simp] theorem State.setDraws_params (v : Nat) : (s.setDraws v).params = s.params := rfl
@[simp] theorem State.setDraws_rxLen (v : Nat) : (s.setDraws v).rxLen = s.rxLen := rfl

@[simp] theorem State.setLandings_platform (v : List Landing) : (s.setLandings v).platform = s.platform := rfl
@[simp] theorem State.setLandings_mode (v : List Landing) : (s.setLandings v).mode = s.mode := rfl
@[simp] theorem State.setLandings_rxBuf (v : List Landing) : (s.setLandings v).rxBuf = s.rxBuf := rfl
@[simp] theorem State.setLandings_msgQ (v : List Landing) : (s.setLandings v).msgQ = s.msgQ := rfl
@[simp] theorem State.setLandings_flashLock (v : List Landing) : (s.setLandings v).flashLock = s.flashLock := rfl
@[simp] theorem State.setLandings_entryReason (v : List Landing) : (s.setLandings v).entryReason = s.entryReason := rfl
@[simp] theorem State.setLandings_pflag (v : List Landing) : (s.setLandings v).pflag = s.pflag := rfl
@[simp] theorem State.setLandings_lastStatus (v : List Landing) : (s.setLandings v).lastStatus = s.lastStatus := rfl
@[simp] theorem State.setLandings_flash (v : List Landing) : (s.setLandings v).flash = s.flash := rfl
@[simp] theorem State.setLandings_trace (v : List Landing) : (s.setLandings v).trace = s.trace := rfl
@[simp] theorem State.setLandings_turns (v : List Landing) : (s.setLandings v).turns = s.turns := rfl
@[simp] theorem State.setLandings_answers (v : List Landing) : (s.setLandings v).answers = s.answers := rfl
@[simp] theorem State.setLandings_draws (v : List Landing) : (s.setLandings v).draws = s.draws := rfl
@[simp] theorem State.setLandings_landings (v : List Landing) : (s.setLandings v).landings = v := rfl
@[simp] theorem State.setLandings_result (v : List Landing) : (s.setLandings v).result = s.result := rfl
@[simp] theorem State.setLandings_params (v : List Landing) : (s.setLandings v).params = s.params := rfl
@[simp] theorem State.setLandings_rxLen (v : List Landing) : (s.setLandings v).rxLen = s.rxLen := rfl

@[simp] theorem State.setResult_platform (v : OpResult) : (s.setResult v).platform = s.platform := rfl
@[simp] theorem State.setResult_mode (v : OpResult) : (s.setResult v).mode = s.mode := rfl
@[simp] theorem State.setResult_rxBuf (v : OpResult) : (s.setResult v).rxBuf = s.rxBuf := rfl
@[simp] theorem State.setResult_msgQ (v : OpResult) : (s.setResult v).msgQ = s.msgQ := rfl
@[simp] theorem State.setResult_flashLock (v : OpResult) : (s.setResult v).flashLock = s.flashLock := rfl
@[simp] theorem State.setResult_entryReason (v : OpResult) : (s.setResult v).entryReason = s.entryReason := rfl
@[simp] theorem State.setResult_pflag (v : OpResult) : (s.setResult v).pflag = s.pflag := rfl
@[simp] theorem State.setResult_lastStatus (v : OpResult) : (s.setResult v).lastStatus = s.lastStatus := rfl
@[simp] theorem State.setResult_flash (v : OpResult) : (s.setResult v).flash = s.flash := rfl
@[simp] theorem State.setResult_trace (v : OpResult) : (s.setResult v).trace = s.trace := rfl
@[simp] theorem State.setResult_turns (v : OpResult) : (s.setResult v).turns = s.turns := rfl
@[simp] theorem State.setResult_answers (v : OpResult) : (s.setResult v).answers = s.answers := rfl
@[simp] theorem State.setResult_draws (v : OpResult) : (s.setResult v).draws = s.draws := rfl
@[simp] theorem State.setResult_landings (v : OpResult) : (s.setResult v).landings = s.landings := rfl
@[simp] theorem State.setResult_result (v : OpResult) : (s.setResult v).result = v := rfl
@[simp] theorem State.setResult_params (v : OpResult) : (s.setResult v).params = s.params := rfl
@[simp] theorem State.setResult_rxLen (v : OpResult) : (s.setResult v).rxLen = s.rxLen := rfl

@[simp] theorem State.drawn_platform : s.drawn.platform = s.platform := rfl
@[simp] theorem State.drawn_mode : s.drawn.mode = s.mode := rfl
@[simp] theorem State.drawn_rxBuf : s.drawn.rxBuf = s.rxBuf := rfl
@[simp] theorem State.drawn_msgQ : s.drawn.msgQ = s.msgQ := rfl
@[simp] theorem State.drawn_flashLock : s.drawn.flashLock = s.flashLock := rfl
@[simp] theorem State.drawn_entryReason : s.drawn.entryReason = s.entryReason := rfl
@[simp] theorem State.drawn_pflag : s.drawn.pflag = s.pflag := rfl
@[simp] theorem State.drawn_lastStatus : s.drawn.lastStatus = s.lastStatus := rfl
@[simp] theorem State.drawn_flash : s.drawn.flash = s.flash := rfl
@[simp] theorem State.drawn_trace : s.drawn.trace = s.trace := rfl
@[simp] theorem State.drawn_turns : s.drawn.turns = s.turns := rfl
@[simp] theorem State.drawn_answers : s.drawn.answers = s.answers.tail := rfl
@[simp] theorem State.drawn_draws : s.drawn.draws = s.draws + 1 := rfl
@[simp] theorem State.drawn_landings : s.drawn.landings = s.landings := rfl
@[simp] theorem State.drawn_result : s.drawn.result = s.result := rfl
@[simp] theorem State.drawn_params : s.drawn.params = s.params := rfl

@[simp] theorem State.scramble_platform (lo n : Nat) : (s.scramble lo n).platform = s.platform := rfl
@[simp] theorem State.scramble_mode (lo n : Nat) : (s.scramble lo n).mode = s.mode := rfl
@[simp] theorem State.scramble_rxBuf (lo n : Nat) : (s.scramble lo n).rxBuf = s.rxBuf := rfl
@[simp] theorem State.scramble_msgQ (lo n : Nat) : (s.scramble lo n).msgQ = s.msgQ := rfl
@[simp] theorem State.scramble_flashLock (lo n : Nat) : (s.scramble lo n).flashLock = s.flashLock := rfl
@[simp] theorem State.scramble_entryReason (lo n : Nat) : (s.scramble lo n).entryReason = s.entryReason := rfl
@[simp] theorem State.scramble_pflag (lo n : Nat) : (s.scramble lo n).pflag = s.pflag := rfl
@[simp] theorem State.scramble_lastStatus (lo n : Nat) : (s.scramble lo n).lastStatus = s.lastStatus := rfl
@[simp] theorem State.scramble_flash (lo n : Nat) : (s.scramble lo n).flash = s.flash.overwrite lo n (Config.unspecified s.draws) := rfl
@[simp] theorem State.scramble_trace (lo n : Nat) : (s.scramble lo n).trace = s.trace := rfl
@[simp] theorem State.scramble_turns (lo n : Nat) : (s.scramble lo n).turns = s.turns := rfl
@[simp] theorem State.scramble_answers (lo n : Nat) : (s.scramble lo n).answers = s.answers := rfl
@[simp] theorem State.scramble_draws (lo n : Nat) : (s.scramble lo n).draws = s.draws + 1 := rfl
@[simp] theorem State.scramble_landings (lo n : Nat) : (s.scramble lo n).landings = s.landings := rfl
@[simp] theorem State.scramble_result (lo n : Nat) : (s.scramble lo n).result = s.result := rfl
@[simp] theorem State.scramble_params (lo n : Nat) : (s.scramble lo n).params = s.params := rfl

/-! After a reset (R35). -/

@[simp] theorem State.afterReset_platform (k : ResetKind) : (s.afterReset k).platform = s.platform := by cases k <;> rfl
@[simp] theorem State.afterReset_mode (k : ResetKind) : (s.afterReset k).mode = .boot := by cases k <;> rfl
@[simp] theorem State.afterReset_rxBuf (k : ResetKind) : (s.afterReset k).rxBuf = [] := by cases k <;> rfl
@[simp] theorem State.afterReset_msgQ (k : ResetKind) : (s.afterReset k).msgQ = [] := by cases k <;> rfl
@[simp] theorem State.afterReset_flashLock (k : ResetKind) : (s.afterReset k).flashLock = .locked := by cases k <;> rfl
@[simp] theorem State.afterReset_entryReason (k : ResetKind) : (s.afterReset k).entryReason = none := by cases k <;> rfl
@[simp] theorem State.afterReset_lastStatus (k : ResetKind) : (s.afterReset k).lastStatus = .none := by cases k <;> rfl
@[simp] theorem State.afterReset_flash (k : ResetKind) : (s.afterReset k).flash = s.flash := by cases k <;> rfl
@[simp] theorem State.afterReset_turns (k : ResetKind) : (s.afterReset k).turns = s.turns := by cases k <;> rfl
@[simp] theorem State.afterReset_answers (k : ResetKind) : (s.afterReset k).answers = s.answers := by cases k <;> rfl
@[simp] theorem State.afterReset_draws (k : ResetKind) : (s.afterReset k).draws = s.draws := by cases k <;> rfl
@[simp] theorem State.afterReset_landings (k : ResetKind) : (s.afterReset k).landings = [] := by cases k <;> rfl
@[simp] theorem State.afterReset_result (k : ResetKind) : (s.afterReset k).result = .nothing := by cases k <;> rfl
@[simp] theorem State.afterReset_params (k : ResetKind) : (s.afterReset k).params = s.params := by cases k <;> rfl
@[simp] theorem State.afterReset_soft_pflag : (s.afterReset .soft).pflag = s.pflag := rfl
@[simp] theorem State.afterReset_powerOn_pflag (w : Word) : (s.afterReset (.powerOn w)).pflag = w := rfl
@[simp] theorem State.afterReset_soft_trace : (s.afterReset .soft).trace = s.trace ++ [.reset .soft] := rfl
@[simp] theorem State.afterReset_powerOn_trace (w : Word) : (s.afterReset (.powerOn w)).trace = [] := rfl

/-! After `request_entry` has landed (R233). -/

@[simp] theorem State.afterRequest_platform : s.afterRequest.platform = s.platform := rfl
@[simp] theorem State.afterRequest_mode : s.afterRequest.mode = .boot := rfl
@[simp] theorem State.afterRequest_rxBuf : s.afterRequest.rxBuf = [] := rfl
@[simp] theorem State.afterRequest_msgQ : s.afterRequest.msgQ = [] := rfl
@[simp] theorem State.afterRequest_flashLock : s.afterRequest.flashLock = .locked := rfl
@[simp] theorem State.afterRequest_entryReason : s.afterRequest.entryReason = none := rfl
@[simp] theorem State.afterRequest_lastStatus : s.afterRequest.lastStatus = .none := rfl
@[simp] theorem State.afterRequest_flash : s.afterRequest.flash = s.flash := rfl
@[simp] theorem State.afterRequest_turns : s.afterRequest.turns = s.turns := rfl
@[simp] theorem State.afterRequest_landings : s.afterRequest.landings = [] := rfl
@[simp] theorem State.afterRequest_pflag : s.afterRequest.pflag = s.params.magic := rfl
@[simp] theorem State.afterRequest_params : s.afterRequest.params = s.params := rfl

/-! The environment's answers. -/

theorem State.answer_of_cons {a : Answer} {l : List Answer} (h : s.answers = a :: l) : s.answer = a := by
  simp [State.answer, h]

end Sys2Proof.Machine
end

