-- ==== Sys2Proof/Laws/Run.lean ====
section
/-! SUPPORT. What every shared operation leaves alone, whether it answers or a reset lands inside it, and with
RX steps landing inside it. -/

namespace Sys2Proof.Machine

variable {α β : Type} {s t u : State}

@[simp] theorem Run.bind_done (a : α) (s : State) (f : α → State → Run β) : (Run.done a s).bind f = f a s := rfl
@[simp] theorem Run.bind_cut (s : State) (f : α → State → Run β) : (Run.cut s : Run α).bind f = .cut s := rfl
@[simp] theorem Run.finish_done (a : α) (s : State) (f : α → State → State) : (Run.done a s).finish f = f a s := rfl
@[simp] theorem Run.finish_cut (s : State) (f : α → State → State) : (Run.cut s : Run α).finish f = s := rfl

/-- With nothing waiting to land a call simply happens. -/
theorem atCall_plain (h : s.landings = []) (p : State → State) (f : State → Run α) : atCall s p f = f s := by
  cases s; cases h; rfl

theorem atMaskedCall_plain (h : s.landings = []) (f : State → Run α) : atMaskedCall s f = f s := by
  cases s; cases h; rfl

/-! ## Quiet runs: nothing changes but flash where it may, the lock, the receive side, the trace and the draws -/

/-- The bounds of the receive side (R24, R25). -/
structure State.RxBounds (s : State) : Prop where
  rx_fits : s.rxBuf.length ≤ Config.sysexMax
  queue_fits : s.msgQ.length ≤ s.params.queueDepth
  messages_fit : ∀ m ∈ s.msgQ, 1 ≤ m.length ∧ m.length ≤ Config.sysexMax

/-- The bounds speak of these alone. -/
theorem State.RxBounds.of_eq (h : s.RxBounds) (h1 : t.rxBuf = s.rxBuf) (h2 : t.msgQ = s.msgQ)
    (h3 : t.platform = s.platform) : t.RxBounds :=
  ⟨by rw [h1]; exact h.1, by rw [h2, State.params, h3]; exact h.2, by rw [h2]; exact h.3⟩

/-- What the flash sequencer and everything below it leaves alone, with RX steps landing inside it. -/
structure Quiet (s t : State) : Prop where
  platform : t.platform = s.platform
  mode : t.mode = s.mode
  bounds : s.RxBounds → t.RxBounds
  entryReason : t.entryReason = s.entryReason
  pflag : t.pflag = s.pflag
  lastStatus : t.lastStatus = s.lastStatus
  turns : t.turns = s.turns
  result : t.result = s.result
  landings : t.landings ⊆ s.landings
  wf : s.flash.wf → t.flash.wf
  outside : ∀ a, ¬ Touchable s.params a → t.flash.read a = s.flash.read a

/-- A quiet run that leaves flash and its lock alone too. -/
structure Still (s t : State) : Prop extends Quiet s t where
  flash : t.flash = s.flash
  lock : t.flashLock = s.flashLock

theorem Quiet.refl (s : State) : Quiet s s := by constructor <;> simp
theorem Still.refl (s : State) : Still s s := ⟨.refl s, rfl, rfl⟩

theorem Quiet.params (h : Quiet s t) : t.params = s.params := by simp [State.params, h.platform]

theorem Quiet.trans (h : Quiet s t) (k : Quiet t u) : Quiet s u where
  platform := k.platform.trans h.platform
  mode := k.mode.trans h.mode
  bounds := k.bounds ∘ h.bounds
  entryReason := k.entryReason.trans h.entryReason
  pflag := k.pflag.trans h.pflag
  lastStatus := k.lastStatus.trans h.lastStatus
  turns := k.turns.trans h.turns
  result := k.result.trans h.result
  landings := fun _ hl => h.landings (k.landings hl)
  wf := k.wf ∘ h.wf
  outside a ha := (k.outside a (by rwa [h.params])).trans (h.outside a ha)

theorem Still.trans (h : Still s t) (k : Still t u) : Still s u :=
  ⟨h.toQuiet.trans k.toQuiet, k.flash.trans h.flash, k.lock.trans h.lock⟩

/-- A reset, or `request_entry`, that was waiting in `s` has ended a step at `m`, and `t` is the state after it (R280,
R233). -/
def Landed (s m t : State) : Prop :=
  (∃ d k, .reset d k ∈ s.landings ∧ t = m.afterReset k) ∨ (∃ d, .request d ∈ s.landings ∧ t = m.afterRequest)

theorem Landed.mono {s' m : State} (h : Landed s m t) (hs : s.landings ⊆ s'.landings) : Landed s' m t := by
  rcases h with ⟨d, k, h, ht⟩ | ⟨d, h, ht⟩
  · exact .inl ⟨d, k, hs h, ht⟩
  · exact .inr ⟨d, hs h, ht⟩

/-- The run answers in a state related to the first, or a reset lands in one. -/
def Run.Ends (R : State → State → Prop) (s : State) : Run α → Prop
  | .done _ t => R s t
  | .cut t => ∃ m, R s m ∧ Landed s m t

theorem Run.Ends.mono {R Q : State → State → Prop} {r : Run α} (h : r.Ends R s) (hRQ : ∀ t, R s t → Q s t) :
    r.Ends Q s := by
  cases r with
  | done a t => exact hRQ t h
  | cut t =>
    obtain ⟨m, hR, ht⟩ := h
    exact ⟨m, hRQ m hR, ht⟩

/-- A run after a run. -/
theorem Run.Ends.bind {R : State → State → Prop} {r : Run α} {f : α → State → Run β} (h : r.Ends R s)
    (hland : ∀ t, R s t → t.landings ⊆ s.landings)
    (htrans : ∀ t u, R s t → R t u → R s u) (hf : ∀ a t, r = .done a t → R s t → (f a t).Ends R t) :
    (r.bind f).Ends R s := by
  cases r with
  | cut t => exact h
  | done a t =>
    have hR : R s t := h
    have hk := hf a t rfl hR
    simp only [Run.bind_done]
    cases hfa : f a t with
    | done b u => rw [hfa] at hk; exact htrans t u hR hk
    | cut u =>
      rw [hfa] at hk
      obtain ⟨m, hRm, hu⟩ := hk
      exact ⟨m, htrans t m hR hRm, hu.mono (hland t hR)⟩

theorem Run.Ends.bind_quiet {r : Run α} {f : α → State → Run β} (h : r.Ends Quiet s)
    (hf : ∀ a t, r = .done a t → Quiet s t → (f a t).Ends Quiet t) : (r.bind f).Ends Quiet s :=
  h.bind (fun _ h => h.landings) (fun _ _ => Quiet.trans) hf

theorem Run.Ends.bind_still {r : Run α} {f : α → State → Run β} (h : r.Ends Still s)
    (hf : ∀ a t, r = .done a t → Still s t → (f a t).Ends Still t) : (r.bind f).Ends Still s :=
  h.bind (fun _ h => h.landings) (fun _ _ => Still.trans) hf

/-! ## Reception -/

theorem Still.emit (s : State) (e : Event) : Still s (s.emit e) :=
  ⟨⟨rfl, rfl, fun h => h.of_eq rfl rfl rfl, rfl, rfl, rfl, rfl, rfl, fun _ => id, id, fun _ _ => rfl⟩, rfl, rfl⟩

theorem Still.drawn (s : State) : Still s s.drawn :=
  ⟨⟨rfl, rfl, fun h => h.of_eq rfl rfl rfl, rfl, rfl, rfl, rfl, rfl, fun _ => id, id, fun _ _ => rfl⟩, rfl, rfl⟩

theorem Quiet.emit (s : State) (e : Event) : Quiet s (s.emit e) := (Still.emit s e).toQuiet

/-- The landings may be taken off one by one. -/
theorem Still.setLandings {ls : List Landing} (h : ls ⊆ s.landings) : Still s (s.setLandings ls) :=
  ⟨⟨rfl, rfl, fun h => h.of_eq rfl rfl rfl, rfl, rfl, rfl, rfl, rfl, h, id, fun _ _ => rfl⟩, rfl, rfl⟩

/-- A change of the receive side within its bounds. -/
theorem Still.setRx {buf : List Byte} {q : List (List Byte)}
    (h : s.RxBounds → ((s.setRxBuf buf).setMsgQ q).RxBounds) : Still s ((s.setRxBuf buf).setMsgQ q) :=
  ⟨⟨rfl, rfl, h, rfl, rfl, rfl, rfl, rfl, fun _ => id, id, fun _ _ => rfl⟩, rfl, rfl⟩

theorem append_length_pos (b : Byte) (s : State) : 1 ≤ (append b s).rxBuf.length := by
  unfold append
  split
  · simp
  · simp only [Config.sysexMax] at *; omega

theorem append_still (b : Byte) (s : State) : Still s (append b s) := by
  unfold append
  split
  · exact Still.setRx (buf := s.rxBuf ++ [b]) (q := s.msgQ) fun h => ⟨by simp; omega, h.2, h.3⟩
  · exact .refl s

theorem complete_still (h : 1 ≤ s.rxBuf.length) : Still s (complete s) := by
  unfold complete
  split
  · rename_i hq
    refine Still.setRx fun hb => ⟨Nat.zero_le _, by simpa using hq, fun m hm => ?_⟩
    rcases List.mem_append.mp hm with hm | hm
    · exact hb.3 m hm
    · rw [List.mem_singleton.mp hm]; exact ⟨h, hb.1⟩
  · exact Still.setRx (buf := []) (q := s.msgQ) fun hb => ⟨Nat.zero_le _, hb.2, hb.3⟩

theorem acceptCin4_still (b0 b1 b2 : Byte) (s : State) : Still s (acceptCin4 b0 b1 b2 s) :=
  (append_still ..).trans ((append_still ..).trans (append_still ..))

theorem acceptCin5_still (b0 : Byte) (s : State) : Still s (acceptCin5 b0 s) :=
  (append_still ..).trans (complete_still (append_length_pos ..))

theorem acceptCin6_still (b0 b1 : Byte) (s : State) : Still s (acceptCin6 b0 b1 s) :=
  (append_still ..).trans ((append_still ..).trans (complete_still (append_length_pos ..)))

theorem acceptCin7_still (b0 b1 b2 : Byte) (s : State) : Still s (acceptCin7 b0 b1 b2 s) :=
  (append_still ..).trans ((append_still ..).trans ((append_still ..).trans (complete_still (append_length_pos ..))))

theorem receive_still {p : Packet} {f : State → State} (hf : ∀ s, Still s (f s)) : Still s (receive p f s) := by
  unfold receive
  split
  · exact (Still.emit s _).trans (hf _)
  · exact .refl s

/-- An RX step touches the receive side and the trace alone (R64). -/
theorem rxStep_still (p : Packet) (s : State) : Still s (rxStep p s) := by
  refine receive_still fun s => ?_
  simp only [accept]
  split; · exact acceptCin4_still ..
  split; · exact acceptCin5_still ..
  split; · exact acceptCin6_still ..
  split; · exact acceptCin7_still ..
  exact .refl s

theorem append_landings (b : Byte) (s : State) : (append b s).landings = s.landings := by unfold append; split <;> rfl
theorem complete_landings (s : State) : (complete s).landings = s.landings := by unfold complete; split <;> rfl

theorem rxStep_landings (p : Packet) (s : State) : (rxStep p s).landings = s.landings := by
  simp only [rxStep, receive, accept, acceptCin4, acceptCin5, acceptCin6, acceptCin7]
  (repeat' split) <;> simp [append_landings, complete_landings]

/-! ## One call -/

/-- What lands before a call, and the call: it is enough to know what the call does when it is reached and what it has done
while in progress. -/
theorem land_ends {R : State → State → Prop} {rx : Bool} {p : State → State} {f : State → Run α}
    (hs : ∀ t, Still s t → R s t) (hp : ∀ t, Still s t → R s (p t))
    (hf : ∀ t, Still s t → ∃ a u, f t = .done a u ∧ R s u) (ls : List Landing) (hl : ls ⊆ s.landings) :
    ∀ t, Still s t → (land rx p f ls t).Ends R s := by
  have ended : ∀ (d : Bool) (t : State), Still s t → R s (if d then p t else t) := by
    intro d t ht
    cases d
    · exact hs t ht
    · exact hp t ht
  have go : ∀ (ls' : List Landing) (t : State), Still s t → ls' ⊆ s.landings → (f (t.setLandings ls')).Ends R s := by
    intro ls' t ht hl'
    have : Still s (t.setLandings ls') :=
      ⟨⟨ht.platform, ht.mode, fun h => (ht.bounds h).of_eq rfl rfl rfl, ht.entryReason, ht.pflag, ht.lastStatus, ht.turns,
        ht.result, hl', ht.wf, ht.outside⟩, ht.flash, ht.lock⟩
    obtain ⟨a, u, hu, hRu⟩ := hf _ this
    rw [hu]; exact hRu
  induction ls with
  | nil => exact fun t ht => go [] t ht hl
  | cons l rest ih =>
    have hrest : rest ⊆ s.landings := fun x hx => hl (List.mem_cons_of_mem _ hx)
    intro t ht
    cases l with
    | call => exact go rest t ht hrest
    | packet q =>
      refine ih hrest _ ?_
      cases rx
      · exact ht
      · exact ht.trans (rxStep_still q t)
    | reset d k => exact ⟨_, ended d t ht, .inl ⟨d, k, hl (List.mem_cons_self ..), rfl⟩⟩
    | request d => exact ⟨_, ended d t ht, .inr ⟨d, hl (List.mem_cons_self ..), rfl⟩⟩

theorem atCall_ends {R : State → State → Prop} {p : State → State} {f : State → Run α}
    (hs : ∀ t, Still s t → R s t) (hp : ∀ t, Still s t → R s (p t))
    (hf : ∀ t, Still s t → ∃ a u, f t = .done a u ∧ R s u) : (atCall s p f).Ends R s :=
  land_ends hs hp hf _ (fun _ => id) s (.refl s)

theorem atMaskedCall_ends {R : State → State → Prop} {f : State → Run α}
    (hs : ∀ t, Still s t → R s t) (hf : ∀ t, Still s t → ∃ a u, f t = .done a u ∧ R s u) : (atMaskedCall s f).Ends R s :=
  land_ends hs hs hf _ (fun _ => id) s (.refl s)

theorem atCall_still {p : State → State} {f : State → Run α} (hp : ∀ t, Still s t → Still t (p t))
    (hf : ∀ t, Still s t → ∃ a u, f t = .done a u ∧ Still t u) : (atCall s p f).Ends Still s :=
  atCall_ends (fun _ h => h) (fun t h => h.trans (hp t h)) fun t h =>
    let ⟨a, u, hu, k⟩ := hf t h; ⟨a, u, hu, h.trans k⟩

theorem atCall_quiet {p : State → State} {f : State → Run α} (hp : ∀ t, Still s t → Quiet t (p t))
    (hf : ∀ t, Still s t → ∃ a u, f t = .done a u ∧ Quiet t u) : (atCall s p f).Ends Quiet s :=
  atCall_ends (fun _ h => h.toQuiet) (fun t h => h.toQuiet.trans (hp t h)) fun t h =>
    let ⟨a, u, hu, k⟩ := hf t h; ⟨a, u, hu, h.toQuiet.trans k⟩

/-- A call that answers has been made in a state the step had reached. -/
theorem land_done {rx : Bool} {p : State → State} {f : State → Run α} {a : α} {ls : List Landing}
    (h : land rx p f ls s = .done a t) (hl : ls ⊆ s.landings) : ∃ m, Still s m ∧ f m = .done a t := by
  induction ls generalizing s with
  | nil => exact ⟨_, .setLandings hl, h⟩
  | cons l rest ih =>
    have hrest : rest ⊆ s.landings := fun x hx => hl (List.mem_cons_of_mem _ hx)
    cases l with
    | call => exact ⟨_, .setLandings hrest, h⟩
    | packet q =>
      cases rx
      · exact ih h hrest
      · have hq := rxStep_still q s
        have heq : (rxStep q s).landings = s.landings := rxStep_landings q s
        obtain ⟨m, hm, hf⟩ := ih (s := rxStep q s) h (by rw [heq]; exact hrest)
        exact ⟨m, hq.trans hm, hf⟩
    | reset d k => cases h
    | request d => cases h

/-- Where a call that would have answered is not reached, or not ended, something has landed. -/
theorem land_cut {rx : Bool} {p : State → State} {f : State → Run α} (hf : ∀ m, ∃ a u, f m = .done a u) {u : State}
    (ls : List Landing) (hl : ls ⊆ u.landings) :
    ∀ s, Still u s → land rx p f ls s = .cut t → ∃ m, Still u m ∧ ∃ d : Bool, Landed u (if d then p m else m) t := by
  induction ls with
  | nil => intro s _ h; obtain ⟨a, v, hv⟩ := hf (s.setLandings []); simp [land, hv] at h
  | cons l rest ih =>
    have hrest : rest ⊆ u.landings := fun x hx => hl (List.mem_cons_of_mem _ hx)
    intro s hs h
    cases l with
    | call => obtain ⟨a, v, hv⟩ := hf (s.setLandings rest); simp [land, hv] at h
    | packet q =>
      refine ih hrest _ ?_ h
      cases rx
      · exact hs
      · exact hs.trans (rxStep_still q s)
    | reset d k => exact ⟨s, hs, d, .inl ⟨d, k, hl (List.mem_cons_self ..), by simp only [land, Run.cut.injEq] at h; exact h.symm⟩⟩
    | request d => exact ⟨s, hs, d, .inr ⟨d, hl (List.mem_cons_self ..), by simp only [land, Run.cut.injEq] at h; exact h.symm⟩⟩

theorem atCall_done {p : State → State} {f : State → Run α} {a : α} (h : atCall s p f = .done a t) :
    ∃ m, Still s m ∧ f m = .done a t := land_done h fun _ => id

theorem atMaskedCall_done {f : State → Run α} {a : α} (h : atMaskedCall s f = .done a t) :
    ∃ m, Still s m ∧ f m = .done a t := land_done h fun _ => id

/-! ## The primitives -/

/-- A change of flash in a range the block may change. -/
theorem Quiet.overwrite {lo n : Nat} {f : Nat → Byte} {t : State} (ht : Still s t)
    (h : ∀ a, lo ≤ a → a < lo + n → Touchable s.params a) :
    Quiet s (t.setFlash (s.flash.overwrite lo n f)) where
  platform := ht.platform
  mode := ht.mode
  bounds h := (ht.bounds h).of_eq rfl rfl rfl
  entryReason := ht.entryReason
  pflag := ht.pflag
  lastStatus := ht.lastStatus
  turns := ht.turns
  result := ht.result
  landings := ht.landings
  wf hw := Memory.wf_overwrite hw _ _ _
  outside a ha := Memory.read_overwrite_outside (fun hr => ha (h a hr.1 hr.2)) _ _

theorem Quiet.scramble {lo n : Nat} (h : ∀ a, lo ≤ a → a < lo + n → Touchable s.params a) :
    Quiet s (s.scramble lo n) where
  platform := rfl
  mode := rfl
  bounds h := h.of_eq rfl rfl rfl
  entryReason := rfl
  pflag := rfl
  lastStatus := rfl
  turns := rfl
  result := rfl
  landings _ := id
  wf hw := Memory.wf_overwrite hw _ _ _
  outside a ha := Memory.read_overwrite_outside (fun hr => ha (h a hr.1 hr.2)) _ _

theorem transmit_ends (p : Packet) (s : State) : (transmit p s).Ends Still s :=
  atCall_still (fun t _ => .emit t _) fun t _ => ⟨_, _, rfl, (Still.drawn t).trans (.emit _ _)⟩

theorem memReadByte_ends (a : Nat) (s : State) : (memReadByte a s).Ends Still s :=
  atCall_still (fun t _ => .refl t) fun t _ => ⟨_, _, rfl, .emit t _⟩

theorem memReadWord_ends (a : Nat) (s : State) : (memReadWord a s).Ends Still s :=
  atCall_still (fun t _ => .refl t) fun t _ => by
    split
    · exact ⟨_, _, rfl, (Still.drawn t).trans (.emit _ _)⟩
    · exact ⟨_, _, rfl, (Still.drawn t).trans (.emit _ _)⟩

theorem readFlag_ends (s : State) : (readFlag s).Ends Still s :=
  atCall_still (fun t _ => .refl t) fun t _ => ⟨_, _, rfl, .emit t _⟩

theorem voidCall_quiet {e : Event} {f : State → State} (hf : ∀ t, Quiet t (f t)) (s : State) :
    (voidCall e f s).Ends Quiet s :=
  atCall_quiet (fun t _ => .refl t) fun t _ => ⟨_, _, rfl, (hf t).trans (.emit _ _)⟩

theorem Quiet.setLock (s : State) (v : FlashLock) : Quiet s (s.setLock v) :=
  ⟨rfl, rfl, fun h => h.of_eq rfl rfl rfl, rfl, rfl, rfl, rfl, rfl, fun _ => id, id, fun _ _ => rfl⟩

theorem flashUnlock_ends (s : State) : (flashUnlock s).Ends Quiet s := voidCall_quiet (fun t => .setLock t _) s
theorem flashLock_ends (s : State) : (flashLock s).Ends Quiet s := voidCall_quiet (fun t => .setLock t _) s

theorem flashEraseSector_ends {x : Sector} (hx : x ∈ s.params.sectors) : (flashEraseSector x s).Ends Quiet s := by
  have reach : ∀ a, x.lo ≤ a → a < x.lo + x.size → Touchable s.params a := fun a h1 h2 =>
    .inl ⟨x, hx, h1, h2⟩
  have reached : ∀ t, Still s t → ∀ a, x.lo ≤ a → a < x.lo + x.size → Touchable t.params a := fun t ht => by
    rwa [ht.params]
  refine atCall_quiet (fun t ht => (Quiet.scramble (reached t ht)).trans (.emit _ _)) fun t ht => ?_
  have reach' := reached t ht
  split
  · refine ⟨_, _, rfl, Quiet.trans ?_ (.emit _ _)⟩
    rw [Memory.fill_eq_overwrite]
    exact Quiet.overwrite (Still.drawn t) reach'
  · exact ⟨_, _, rfl, ((Still.drawn t).toQuiet.trans (Quiet.scramble (s := t.drawn) reach')).trans (.emit _ _)⟩

theorem flashProgramUnit_ends {a : Nat} {u : List Byte}
    (hu : ∀ x, a ≤ x → x < a + u.length → Touchable s.params x) : (flashProgramUnit a u s).Ends Quiet s := by
  have reached : ∀ t, Still s t → ∀ x, a ≤ x → x < a + u.length → Touchable t.params x := fun t ht => by
    rwa [ht.params]
  refine atCall_quiet (fun t ht => (Quiet.scramble (reached t ht)).trans (.emit _ _)) fun t ht => ?_
  have hu' := reached t ht
  split
  · exact ⟨_, _, rfl, (Quiet.overwrite (Still.drawn t) hu').trans (.emit _ _)⟩
  · exact ⟨_, _, rfl, ((Still.drawn t).toQuiet.trans (Quiet.scramble (s := t.drawn) hu')).trans (.emit _ _)⟩

/-! ## The shared operations -/

theorem transmitAll_ends (ps : List Packet) (s : State) : (transmitAll ps s).Ends Still s := by
  induction ps generalizing s with
  | nil => exact .refl s
  | cons p ps ih =>
    refine (transmit_ends p s).bind_still fun a t _ _ => ?_
    cases a
    · exact ih t
    · exact .refl t

theorem runSendSysex_ends (data : List Byte) (cable : Nat) (s : State) : (runSendSysex data cable s).Ends Still s := by
  unfold runSendSysex
  split
  · exact transmitAll_ends _ s
  · exact .refl s

/-- Offering a response touches nothing but trace and draws. -/
theorem respond_ends (r : List Byte) (s : State) : (respond r s).Ends Still s :=
  (runSendSysex_ends _ _ s).bind_still fun _ t _ _ => .refl t

theorem eraseSectors_ends {xs : List Sector} (h : ∀ x ∈ xs, x ∈ s.params.sectors) :
    (eraseSectors xs s).Ends Quiet s := by
  induction xs generalizing s with
  | nil => exact .refl s
  | cons x xs ih =>
    refine (flashEraseSector_ends (h x (List.mem_cons_self ..))).bind_quiet fun a t _ hq => ?_
    cases a
    · exact ih fun y hy => by rw [hq.params]; exact h y (List.mem_cons_of_mem _ hy)
    · exact .refl t

theorem programUnits_ends {us : List (Nat × List Byte)}
    (h : ∀ c ∈ us, ∀ x, c.1 ≤ x → x < c.1 + c.2.length → Touchable s.params x) :
    (programUnits us s).Ends Quiet s := by
  induction us generalizing s with
  | nil => exact .refl s
  | cons c us ih =>
    refine (flashProgramUnit_ends (h c (List.mem_cons_self ..))).bind_quiet fun a t _ hq => ?_
    cases a
    · exact ih fun d hd => by rw [hq.params]; exact h d (List.mem_cons_of_mem _ hd)
    · exact .refl t

theorem bracketed_ends {op : State → Run Bool} (h : ∀ t, Quiet s t → (op t).Ends Quiet t) :
    (bracketed op s).Ends Quiet s :=
  (flashUnlock_ends s).bind_quiet fun _ _ _ h1 =>
    (h _ h1).bind_quiet fun _ _ _ _ => (flashLock_ends _).bind_quiet fun _ _ _ _ => .refl _

/-- Once `FlashLock()` has answered, flash is locked. -/
theorem flashLock_locks {a : Unit} (h : flashLock s = .done a t) : t.flashLock = .locked := by
  obtain ⟨m, -, hm⟩ := atCall_done h
  cases hm; rfl

/-- A bracketed operation that answers leaves flash locked (R190). -/
theorem bracketed_locks {op : State → Run Bool} {b : Bool} (h : bracketed op s = .done b t) :
    t.flashLock = .locked := by
  unfold bracketed at h
  cases h1 : flashUnlock s with
  | cut _ => simp [h1] at h
  | done a s1 =>
    cases h2 : op s1 with
    | cut _ => simp [h1, h2] at h
    | done ok s2 =>
      cases h3 : flashLock s2 with
      | cut _ => simp [h1, h2, h3] at h
      | done c s3 =>
        simp only [h1, h2, h3, Run.bind_done, Run.done.injEq] at h
        exact h.2 ▸ flashLock_locks h3

theorem runErase_ends (s : State) : (runErase s).Ends Quiet s :=
  bracketed_ends fun t ht => eraseSectors_ends fun x hx => by rwa [ht.params]

theorem progUnitBytes_length (p : Params) (data : List Byte) (k : Nat) :
    (progUnitBytes p data k).length = p.progUnit := by
  have : (slice data (k * p.progUnit) ((k + 1) * p.progUnit)).length ≤ p.progUnit := by
    simp only [slice, List.length_drop, List.length_take, Nat.add_mul]; omega
  simp only [progUnitBytes, List.length_append, List.length_replicate]; omega

theorem Platform.progUnit_pos (s : State) : 1 ≤ s.params.progUnit := by
  have h := s.platform.2
  simp only [Params.legal, Bool.and_eq_true] at h
  have hu : 2 ^ s.params.progUnit.log2 = s.params.progUnit := beq_iff_eq.mp h.1.2
  have : 0 < 2 ^ s.params.progUnit.log2 := Nat.two_pow_pos _
  omega

/-- Where the units of a write that is in range lie: from its first address, and at most `P_PROG_UNIT - 1` bytes past the
region's end (R53). -/
theorem programCalls_range {p : Params} {offset : Nat} {data : List Byte} (hP : 1 ≤ p.progUnit)
    (hr : inRange p offset data.length = true) {c : Nat × List Byte} (hc : c ∈ programCalls p offset data) {x : Nat}
    (h1 : c.1 ≤ x) (h2 : x < c.1 + c.2.length) : p.appLo ≤ x ∧ x + 1 < p.appHi + p.progUnit := by
  simp only [programCalls, List.mem_map, List.mem_range] at hc
  obtain ⟨k, hk, rfl⟩ := hc
  simp only [progUnitBytes_length] at h2
  simp only [inRange, decide_eq_true_eq] at hr
  simp only at h1
  have hdiv : k * p.progUnit + 1 ≤ data.length := by
    have hmul : (k + 1) * p.progUnit ≤ data.length + p.progUnit - 1 :=
      (Nat.le_div_iff_mul_le (by omega)).mp hk
    rw [Nat.add_mul] at hmul; omega
  simp only [Params.appLo, Params.appHi] at *
  omega

theorem runWrite_ends (offset : Nat) (data : List Byte) (s : State) : (runWrite offset data s).Ends Quiet s := by
  unfold runWrite
  split
  · rename_i hr
    split
    · exact .refl s
    · refine bracketed_ends fun t ht => programUnits_ends fun c hc x h1 h2 => ?_
      rw [ht.params]
      exact .inr (programCalls_range (Platform.progUnit_pos s) hr hc h1 h2)
  · exact .refl s

/-- A write that answers leaves flash locked, if it was. -/
theorem runWrite_locks {offset : Nat} {data : List Byte} {b : Bool} (h : runWrite offset data s = .done b t)
    (hl : s.flashLock = .locked) : t.flashLock = .locked := by
  unfold runWrite at h
  split at h
  · split at h
    · cases h; exact hl
    · exact bracketed_locks h
  · cases h; exact hl

theorem compareFlash_ends (a : Nat) (ds : List Byte) (s : State) : (compareFlash a ds s).Ends Still s := by
  induction ds generalizing a s with
  | nil => exact .refl s
  | cons d ds ih =>
    refine (memReadByte_ends a s).bind_still fun b t _ _ => ?_
    split
    · exact ih _ t
    · exact .refl t

theorem runVerify_ends (offset : Nat) (data : List Byte) (s : State) : (runVerify offset data s).Ends Still s := by
  unfold runVerify
  split
  · exact compareFlash_ends _ _ s
  · exact .refl s

theorem readVectorTable_ends (s : State) : (readVectorTable s).Ends Still s := by
  refine (memReadWord_ends _ s).bind_still fun a t _ _ => ?_
  cases a
  · exact .refl t
  · refine (memReadWord_ends _ t).bind_still fun b u _ _ => ?_
    cases b <;> exact .refl u

theorem runCheck_ends (s : State) : (runCheck s).Ends Still s := by
  refine (readVectorTable_ends s).bind_still fun a t _ _ => ?_
  cases a <;> exact .refl t

end Sys2Proof.Machine
end

