-- ==== Sys2Proof/Laws/Along.lean ====
section
/-! SUPPORT. A command with packets landing among its calls runs along with the same command undisturbed: only the receive
side, the trace and what is still to land differ (R150, R254). -/

namespace Sys2Proof.Machine

variable {α β : Type} {b s t u : State}

/-- `u` is `s` but for the packets among `ls`, which a command begun in `b` has met: the receive side is what they make of
`b`'s, and in the trace they stand between the calls. -/
structure Along (b : State) (ls : List Landing) (s u : State) : Prop where
  frame : u = { s with
    rxBuf := (b.fed (packetsOf ls)).rxBuf
    msgQ := (b.fed (packetsOf ls)).msgQ
    trace := u.trace
    landings := u.landings }
  platform : s.platform = b.platform
  mode : s.mode = b.mode
  none_left : s.landings = []
  met : b.landings = ls ++ u.landings
  calls : u.trace.filter (fun e => !e.isReceived) = s.trace.filter (fun e => !e.isReceived)
  packets : u.trace.filter Event.isReceived = s.trace.filter Event.isReceived ++ (packetsOf ls).map .received

/-! ## An RX step -/

/-- The two states agree in all an RX step reads or writes but the trace. -/
structure SameRx (s t : State) : Prop where
  platform : t.platform = s.platform
  mode : t.mode = s.mode
  rxBuf : t.rxBuf = s.rxBuf
  msgQ : t.msgQ = s.msgQ

theorem SameRx.append (h : SameRx s t) (x : Byte) : SameRx (append x s) (append x t) := by
  unfold Machine.append
  rw [h.rxBuf]
  split
  · exact ⟨h.platform, h.mode, rfl, h.msgQ⟩
  · exact h

theorem SameRx.complete (h : SameRx s t) : SameRx (complete s) (complete t) := by
  unfold Machine.complete
  rw [h.msgQ, show t.params = s.params by simp [State.params, h.platform], h.rxBuf]
  split
  · exact ⟨h.platform, h.mode, rfl, rfl⟩
  · exact ⟨h.platform, h.mode, rfl, h.msgQ⟩

theorem SameRx.accept (h : SameRx s t) (p : Packet) : SameRx (accept p s) (accept p t) := by
  unfold Machine.accept
  dsimp only
  split; · exact ((h.append _).append _).append _
  split; · exact (h.append _).complete
  split; · exact ((h.append _).append _).complete
  split; · exact (((h.append _).append _).append _).complete
  exact h

/-- An RX step reads and writes the receive side, whatever else the states hold. -/
theorem SameRx.rxStep (h : SameRx s t) (p : Packet) : SameRx (rxStep p s) (rxStep p t) := by
  have he : t.rxEnabled = s.rxEnabled := by simp [State.rxEnabled, h.mode]
  simp only [Machine.rxStep, receive, he]
  split
  · exact SameRx.accept (s := s.emit _) (t := t.emit _) ⟨h.platform, h.mode, h.rxBuf, h.msgQ⟩ p
  · exact h

theorem SameRx.fed (h : SameRx s t) (ps : List Packet) : SameRx (s.fed ps) (t.fed ps) := by
  induction ps generalizing s t with
  | nil => exact h
  | cons p ps ih => exact ih (h.rxStep p)

theorem append_frame (x : Byte) (s : State) : append x s = { s with rxBuf := (append x s).rxBuf } := by
  unfold append; split <;> rfl

theorem complete_frame (s : State) :
    complete s = { s with rxBuf := (complete s).rxBuf, msgQ := (complete s).msgQ } := by
  unfold complete; split <;> rfl

/-- An RX step changes the receive side alone, and where RX is enabled it is recorded. -/
theorem accept_frame (p : Packet) (s : State) :
    accept p s = { s with rxBuf := (accept p s).rxBuf, msgQ := (accept p s).msgQ } := by
  simp only [accept, acceptCin4, acceptCin5, acceptCin6, acceptCin7]
  (repeat' split) <;> simp only [complete, append] <;> (repeat' split) <;> rfl

theorem rxStep_frame (p : Packet) (h : s.rxEnabled = true) : rxStep p s = { s with
    rxBuf := (rxStep p s).rxBuf, msgQ := (rxStep p s).msgQ, trace := s.trace ++ [.received p] } := by
  simp only [rxStep, receive, h, if_true]
  exact accept_frame p _

/-- An RX step does not see what is yet to land. -/
theorem rxStep_setLandings (p : Packet) (ls ms : List Landing) (h : s.rxEnabled = true) :
    (rxStep p (s.setLandings ls)).setLandings ms = (rxStep p s).setLandings ms := by
  have hx : SameRx (rxStep p s) (rxStep p (s.setLandings ls)) :=
    SameRx.rxStep (s := s) (t := s.setLandings ls) ⟨rfl, rfl, rfl, rfl⟩ p
  rw [rxStep_frame (s := s.setLandings ls) p h, hx.rxBuf, hx.msgQ]
  conv_rhs => rw [rxStep_frame p h]
  rfl

/-- Packets taken one after another. -/
theorem fed_append (ps qs : List Packet) (s : State) : s.fed (ps ++ qs) = (s.fed ps).fed qs := List.foldl_append ..

theorem packetsOf_append (ls ms : List Landing) : packetsOf (ls ++ ms) = packetsOf ls ++ packetsOf ms :=
  List.filterMap_append ..

/-- RX steps leave mode and configuration alone. -/
theorem fed_still (ps : List Packet) (s : State) : Still s (s.fed ps) := by
  induction ps generalizing s with
  | nil => exact .refl s
  | cons p ps ih => exact (rxStep_still p s).trans (ih _)

/-- What packets do to a state: the receive side changes, and they are recorded where RX steps in its mode. -/
theorem fed_frame (ps : List Packet) (s : State) : s.fed ps = { s with
    rxBuf := (s.fed ps).rxBuf, msgQ := (s.fed ps).msgQ, trace := s.trace ++ s.heard ps } := by
  induction ps generalizing s with
  | nil => simp [State.fed, State.heard]
  | cons p ps ih =>
    change (rxStep p s).fed ps = { s with
      rxBuf := ((rxStep p s).fed ps).rxBuf, msgQ := ((rxStep p s).fed ps).msgQ, trace := s.trace ++ s.heard (p :: ps) }
    rw [ih]
    cases he : s.rxEnabled with
    | true =>
      rw [rxStep_frame p he]
      have hm : s.mode = .bootloader ∨ s.mode = .settle := by simpa [State.rxEnabled] using he
      simp [State.heard, State.rxEnabled, hm]
    | false =>
      have hs : rxStep p s = s := by simp [rxStep, receive, he]
      simp [hs, State.heard, he]

/-! ## Running along -/

theorem Along.sameRx {ls : List Landing} (h : Along b ls s u) : SameRx (b.fed (packetsOf ls)) u where
  platform := by rw [h.frame, (fed_still _ b).platform]; exact h.platform
  mode := by rw [h.frame, (fed_still _ b).mode]; exact h.mode
  rxBuf := by rw [h.frame]
  msgQ := by rw [h.frame]

theorem Along.rxEnabled {ls : List Landing} (h : Along b ls s u) (hb : b.rxEnabled = true) : u.rxEnabled = true := by
  rw [h.frame]; simpa [State.rxEnabled, h.mode] using hb

/-- A command begins along with itself. -/
theorem Along.begin (s : State) : Along s [] { s with landings := [] } s :=
  ⟨rfl, rfl, rfl, rfl, rfl, rfl, (List.append_nil _).symm⟩

/-- One packet more. -/
theorem Along.packet {ls rest : List Landing} {p : Packet} (h : Along b ls s u) (hb : b.rxEnabled = true)
    (hu : u.landings = .packet p :: rest) :
    Along b (ls ++ [.packet p]) s ((rxStep p u).setLandings rest) := by
  have hen := h.rxEnabled hb
  have hf := rxStep_frame p hen
  have hs := h.sameRx.rxStep p
  have hfed : b.fed (packetsOf (ls ++ [.packet p])) = rxStep p (b.fed (packetsOf ls)) := by
    rw [packetsOf_append, fed_append]; rfl
  have ht : (rxStep p u).trace = u.trace ++ [.received p] := by rw [hf]
  refine ⟨?_, h.platform, h.mode, h.none_left, ?_, ?_, ?_⟩
  · rw [hfed, ← hs.rxBuf, ← hs.msgQ]
    show (rxStep p u).setLandings rest = { s with
      rxBuf := (rxStep p u).rxBuf, msgQ := (rxStep p u).msgQ, trace := (rxStep p u).trace, landings := rest }
    conv_lhs => rw [hf]
    rw [ht]
    generalize (rxStep p u).rxBuf = buf, (rxStep p u).msgQ = q, u.trace ++ [.received p] = tr
    rw [h.frame]; rfl
  · rw [h.met, hu]; simp
  · rw [State.setLandings_trace, ht, List.filter_append, h.calls]; simp [Event.isReceived]
  · rw [State.setLandings_trace, ht, List.filter_append, h.packets, packetsOf_append, List.map_append,
      List.append_assoc]
    simp [Event.isReceived, packetsOf]

/-! ## One call, exactly -/

theorem packetsBefore_succ (n : Nat) (ls : List Landing) : packetsBefore (n + 1) ls = packetsBefore n (afterCalls 1 ls) := rfl

theorem afterCalls_succ (n : Nat) (ls : List Landing) : afterCalls (n + 1) ls = afterCalls n (afterCalls 1 ls) := rfl

theorem OnlyPackets.afterCalls {ls : List Landing} (h : OnlyPackets ls) : OnlyPackets (afterCalls 1 ls) :=
  fun l hl => h l (List.dropWhile_subset _ (List.mem_of_mem_tail hl))

/-- The packets up to the next call are received, or, where RX may not step, are not; then the call is made. -/
theorem land_packets {rx : Bool} {p : State → State} {f : State → Run α} {ls : List Landing} (h : OnlyPackets ls) (s : State) :
    land rx p f ls s = f ((if rx then s.fed (packetsBefore 0 ls) else s).setLandings (afterCalls 1 ls)) := by
  induction ls generalizing s with
  | nil => cases rx <;> rfl
  | cons l ls ih =>
    have hls : OnlyPackets ls := fun l hl => h l (List.mem_cons_of_mem _ hl)
    rcases h l (List.mem_cons_self ..) with rfl | ⟨q, rfl⟩
    · cases rx <;> rfl
    · have hne : (Landing.packet q != .call) = true := rfl
      simp only [land, ih hls, packetsBefore, Machine.afterCalls, List.takeWhile_cons, List.dropWhile_cons, hne, if_true]
      cases rx <;> rfl

theorem atCall_packets {p : State → State} {f : State → Run α} (h : OnlyPackets s.landings) :
    atCall s p f = f ((s.fed (packetsBefore 0 s.landings)).setLandings (afterCalls 1 s.landings)) := land_packets h s

theorem atMaskedCall_packets {f : State → Run α} (h : OnlyPackets s.landings) :
    atMaskedCall s f = f (s.setLandings (afterCalls 1 s.landings)) := land_packets h s

theorem voidCall_packets {e : Event} {f : State → State} (h : OnlyPackets s.landings) : voidCall e f s =
    .done () ((f ((s.fed (packetsBefore 0 s.landings)).setLandings (afterCalls 1 s.landings))).emit e) :=
  atCall_packets h

theorem maskedCall_packets {e : Event} {f : State → State} (h : OnlyPackets s.landings) : maskedCall e f s =
    .done () ((f (s.setLandings (afterCalls 1 s.landings))).emit e) := atMaskedCall_packets h

/-! ## Operations that follow -/

/-- Run in the undisturbed state and in the other, the operation ends, with the same answer, and the states still go along;
what has yet to land then is packets alone. -/
def Follows (b : State) (op : State → Run α) : Prop :=
  ∀ ls s u, Along b ls s u → ∃ a s' u' ls', op s = .done a s' ∧ op u = .done a u' ∧ Along b ls' s' u'

theorem Follows.done (b : State) (a : α) : Follows b fun s => .done a s :=
  fun _ _ _ h => ⟨a, _, _, _, rfl, rfl, h⟩

theorem Follows.bind {op : State → Run α} {f : α → State → Run β} (h : Follows b op) (hf : ∀ a, Follows b (f a)) :
    Follows b fun s => (op s).bind f := by
  intro ls s u hs
  obtain ⟨a, s', u', ls', h1, h2, h3⟩ := h ls s u hs
  obtain ⟨c, s'', u'', ls'', k1, k2, k3⟩ := hf a ls' s' u' h3
  exact ⟨c, s'', u'', ls'', by simp only [h1]; exact k1, by simp only [h2]; exact k2, k3⟩

/-- A call: it is enough that the call itself keeps the states along. -/
theorem Follows.call {p : State → State} {f : State → Run α} (hb : b.rxEnabled = true) (ho : OnlyPackets b.landings)
    (hf : Follows b f) : Follows b fun s => atCall s p f := by
  intro ls s u h
  have go : ∀ (ms ls : List Landing) (u : State), Along b ls s (u.setLandings ms) →
      ∃ a s' u' ls', f (s.setLandings []) = .done a s' ∧ land true p f ms u = .done a u' ∧ Along b ls' s' u' := by
    intro ms
    induction ms with
    | nil =>
      intro ls u h
      refine hf ls _ _ ⟨?_, h.platform, h.mode, rfl, h.met, h.calls, h.packets⟩
      conv_lhs => rw [h.frame]
      rfl
    | cons l ms ih =>
      intro ls u h
      have hl : l = .call ∨ ∃ p, l = .packet p := ho l (by rw [h.met]; simp)
      rcases hl with rfl | ⟨q, rfl⟩
      · refine hf (ls ++ [.call]) _ _ ⟨?_, h.platform, h.mode, rfl, ?_, h.calls, ?_⟩
        · rw [packetsOf_append, fed_append]
          change (u.setLandings (.call :: ms)).setLandings ms = _
          rw [h.frame]; rfl
        · rw [h.met]; simp
        · rw [packetsOf_append]; simpa [packetsOf] using h.packets
      · have hp := h.packet hb rfl
        rw [rxStep_setLandings (s := u) q _ ms (h.rxEnabled hb)] at hp
        obtain ⟨a, s', u', ls', h1, h2, h3⟩ := ih _ _ hp
        exact ⟨a, s', u', ls', h1, by simpa [land] using h2, h3⟩
  obtain ⟨a, s', u', ls', h1, h2, h3⟩ := go u.landings ls u h
  refine ⟨a, s', u', ls', ?_, h2, h3⟩
  show land true p f s.landings s = _
  rw [h.none_left]; exact h1

/-- `s` with another receive side and another trace. -/
def State.besides (s : State) (buf : List Byte) (q : List (List Byte)) (tr : List Event) (ls : List Landing) : State :=
  { s with rxBuf := buf, msgQ := q, trace := tr, landings := ls }

/-- The effect of a call, which looks at neither the receive side nor the trace, keeps the states along. -/
theorem Follows.effect {f : State → Run α} (hf : ∀ s : State, ∃ a t es, f s = .done a t ∧ t.trace = s.trace ++ es ∧
    es.filter Event.isReceived = [] ∧ t.platform = s.platform ∧ t.mode = s.mode ∧ t.landings = s.landings ∧
    ∀ buf q tr ls, f (s.besides buf q tr ls) = .done a (t.besides buf q (tr ++ es) ls)) : Follows b f := by
  intro ls s u h
  obtain ⟨a, t, es, h1, h2, h3, h4, h5, h6, h7⟩ := hf s
  let fed := b.fed (packetsOf ls)
  refine ⟨a, t, t.besides fed.rxBuf fed.msgQ (u.trace ++ es) u.landings, ls, h1, ?_, ?_⟩
  · rw [← h7]; conv_lhs => rw [h.frame]
    rfl
  · refine ⟨rfl, h4.trans h.platform, h5.trans h.mode, h6.trans h.none_left, h.met, ?_, ?_⟩
    · show (u.trace ++ es).filter _ = _
      rw [h2, List.filter_append, List.filter_append, h.calls]
    · show (u.trace ++ es).filter _ = _
      rw [h2, List.filter_append, List.filter_append, h.packets, h3]; simp

/-- An operation whose text depends on the configuration. -/
theorem Follows.byParams {op : Params → State → Run α} (h : ∀ p, Follows b (op p)) :
    Follows b fun s => op s.params s := by
  intro ls s u hs
  have : u.params = s.params := by rw [hs.frame]; rfl
  dsimp only
  rw [this]
  exact h _ ls s u hs

theorem Follows.ite (c : Prop) [Decidable c] {f g : State → Run α} (hf : Follows b f) (hg : Follows b g) :
    Follows b fun s => if c then f s else g s := by
  by_cases h : c <;> simpa [h]

/-! ## The shared operations -/

section
variable (hb : b.rxEnabled = true) (ho : OnlyPackets b.landings)
include hb ho

theorem voidCall_follows {e : Event} {f : State → State} (he : e.isReceived = false)
    (hf : ∀ s : State, ∃ t, f s = t ∧ t.trace = s.trace ∧ t.platform = s.platform ∧ t.mode = s.mode ∧
      t.landings = s.landings ∧ ∀ buf q tr ls, f (s.besides buf q tr ls) = t.besides buf q tr ls) :
    Follows b (voidCall e f) := by
  refine Follows.call hb ho (Follows.effect fun s => ?_)
  obtain ⟨t, h1, h2, h3, h4, h5, h6⟩ := hf s
  refine ⟨_, _, [e], rfl, ?_, by simp [he], ?_, ?_, ?_, fun buf q tr ls => ?_⟩
  · simp [h1, h2]
  · simpa [h1] using h3
  · simpa [h1] using h4
  · simpa [h1] using h5
  · simp only [h6, h1]; rfl

theorem transmit_follows (p : Packet) : Follows b (transmit p) :=
  Follows.call hb ho (Follows.effect fun _ => ⟨_, _, [_], rfl, rfl, rfl, rfl, rfl, rfl, fun _ _ _ _ => rfl⟩)

theorem flashUnlock_follows : Follows b flashUnlock :=
  voidCall_follows hb ho rfl fun _ => ⟨_, rfl, rfl, rfl, rfl, rfl, fun _ _ _ _ => rfl⟩

theorem flashLock_follows : Follows b flashLock :=
  voidCall_follows hb ho rfl fun _ => ⟨_, rfl, rfl, rfl, rfl, rfl, fun _ _ _ _ => rfl⟩

theorem memReadByte_follows (a : Nat) : Follows b (memReadByte a) :=
  Follows.call hb ho (Follows.effect fun _ => ⟨_, _, [_], rfl, rfl, rfl, rfl, rfl, rfl, fun _ _ _ _ => rfl⟩)

theorem flashEraseSector_follows (x : Sector) : Follows b (flashEraseSector x) := by
  refine Follows.call hb ho (Follows.effect fun s => ?_)
  have : ∀ buf q tr ls, (s.besides buf q tr ls).answer = s.answer := fun _ _ _ _ => rfl
  simp only [this]
  cases s.answer <;> exact ⟨_, _, [_], rfl, rfl, rfl, rfl, rfl, rfl, fun _ _ _ _ => rfl⟩

theorem flashProgramUnit_follows (a : Nat) (u : List Byte) : Follows b (flashProgramUnit a u) := by
  refine Follows.call hb ho (Follows.effect fun s => ?_)
  have : ∀ buf q tr ls, (s.besides buf q tr ls).answer = s.answer := fun _ _ _ _ => rfl
  simp only [this]
  cases s.answer <;> exact ⟨_, _, [_], rfl, rfl, rfl, rfl, rfl, rfl, fun _ _ _ _ => rfl⟩

theorem transmitAll_follows (ps : List Packet) : Follows b (transmitAll ps) := by
  induction ps with
  | nil => exact .done b true
  | cons p ps ih =>
    refine (transmit_follows hb ho p).bind fun a => ?_
    cases a
    · exact ih
    · exact .done b false

theorem runSendSysex_follows (data : List Byte) (cable : Nat) : Follows b (runSendSysex data cable) := by
  unfold runSendSysex
  split
  · exact transmitAll_follows hb ho _
  · exact .done b false

theorem respond_follows (r : List Byte) : Follows b (respond r) :=
  Follows.byParams (op := fun p s => (runSendSysex r p.respCable.toNat s).bind fun ok s =>
    .done (if ok then SvcStatus.responded else .txFailed) s) fun p =>
      (runSendSysex_follows hb ho r p.respCable.toNat).bind fun ok =>
        .done b (if ok then SvcStatus.responded else .txFailed)

theorem eraseSectors_follows (xs : List Sector) : Follows b (eraseSectors xs) := by
  induction xs with
  | nil => exact .done b true
  | cons x xs ih =>
    refine (flashEraseSector_follows hb ho x).bind fun a => ?_
    cases a
    · exact ih
    · exact .done b false

theorem programUnits_follows (us : List (Nat × List Byte)) : Follows b (programUnits us) := by
  induction us with
  | nil => exact .done b true
  | cons c us ih =>
    refine (flashProgramUnit_follows hb ho c.1 c.2).bind fun a => ?_
    cases a
    · exact ih
    · exact .done b false

theorem bracketed_follows {op : State → Run Bool} (h : Follows b op) : Follows b (bracketed op) :=
  (flashUnlock_follows hb ho).bind fun _ => h.bind fun ok => (flashLock_follows hb ho).bind fun _ => .done b ok

theorem runErase_follows : Follows b runErase :=
  Follows.byParams (op := fun p => bracketed (eraseSectors p.sectors)) fun p =>
    bracketed_follows hb ho (eraseSectors_follows hb ho p.sectors)

theorem runWrite_follows (offset : Nat) (data : List Byte) : Follows b (runWrite offset data) :=
  Follows.byParams (op := fun p s => if inRange p offset data.length then
      if data.length = 0 then .done true s else bracketed (programUnits (programCalls p offset data)) s
    else .done false s) fun _ =>
    .ite _ (.ite _ (.done b true) (bracketed_follows hb ho (programUnits_follows hb ho _))) (.done b false)

theorem compareFlash_follows (a : Nat) (ds : List Byte) : Follows b (compareFlash a ds) := by
  induction ds generalizing a with
  | nil => exact .done b true
  | cons d ds ih =>
    exact (memReadByte_follows hb ho a).bind fun x => .ite _ (ih _) (.done b false)

theorem runVerify_follows (offset : Nat) (data : List Byte) : Follows b (runVerify offset data) :=
  Follows.byParams (op := fun p s => if inRange p offset data.length then compareFlash (p.appLo + offset) data s
    else .done false s) fun _ => .ite _ (compareFlash_follows hb ho _ _) (.done b false)

end

end Sys2Proof.Machine
end

