-- ==== Sys2Proof/Laws/Jump.lean ====
section
/-! SUPPORT. The application check, the jump and the boot decision: what each can do, with or without a reset inside. -/

namespace Sys2Proof.Machine

variable {s t : State}

theorem Still.word (h : Still s t) (a : Nat) : t.word a = s.word a := by simp [State.word, h.flash]

theorem Still.vectorTable (h : Still s t) : t.vectorTable = s.vectorTable := by
  simp [State.vectorTable, h.word, h.params]

/-- A vector read that answers a word answers the word flash holds. -/
theorem memReadWord_value {a : Nat} {w : Word} (h : memReadWord a s = .done (some w) t) : w = s.word a := by
  obtain ⟨m, hm, hf⟩ := atCall_done h
  split at hf
  · simp only [Run.done.injEq, Option.some.injEq] at hf
    rw [← hf.1, hm.word]
  · simp at hf

/-- ReadVectorTable answers the table flash holds, or Fault. -/
theorem readVectorTable_value {v : VectorTable} (h : readVectorTable s = .done (some v) t) : v = s.vectorTable := by
  unfold readVectorTable at h
  cases h1 : memReadWord s.params.appLo s with
  | cut _ => simp [h1] at h
  | done w0 s1 =>
    have hst : Still s s1 := by have := memReadWord_ends s.params.appLo s; rw [h1] at this; exact this
    cases w0 with
    | none => simp [h1] at h
    | some sp =>
      simp only [h1, Run.bind_done] at h
      cases h2 : memReadWord (s1.params.appLo + 4) s1 with
      | cut _ => simp [h2] at h
      | done w1 s2 =>
        cases w1 with
        | none => simp [h2] at h
        | some rv =>
          simp only [h2, Run.bind_done, Run.done.injEq, Option.some.injEq] at h
          rw [← h.1, memReadWord_value h1, memReadWord_value h2, hst.word, hst.params]; rfl

/-- What a jump can do: nothing but reads and the four calls, and the mode changes only to JUMPED and only with a valid
vector table (R210 to R212). -/
structure Jumping (s t : State) : Prop where
  still : Still (s.setMode t.mode) t
  mode : t.mode = s.mode ∨ t.mode = .jumped ∧ validTable s.params s.vectorTable = true

/-- Writing the mode, or the flag, on both sides. -/
theorem Still.setMode (h : Still s t) (v : Mode) : Still (s.setMode v) (t.setMode v) :=
  ⟨⟨h.platform, rfl, fun hb => (h.bounds (hb.of_eq rfl rfl rfl)).of_eq rfl rfl rfl, h.entryReason, h.pflag, h.lastStatus,
    h.turns, h.result, h.landings, h.wf, h.outside⟩, h.flash, h.lock⟩

theorem Still.setPflag (h : Still s t) (v : Word) : Still (s.setPflag v) (t.setPflag v) :=
  ⟨⟨h.platform, h.mode, fun hb => (h.bounds (hb.of_eq rfl rfl rfl)).of_eq rfl rfl rfl, h.entryReason, rfl, h.lastStatus,
    h.turns, h.result, h.landings, h.wf, h.outside⟩, h.flash, h.lock⟩

theorem Still.jumping (h : Still s t) : Jumping s t := ⟨h.setMode t.mode, .inl h.mode⟩

theorem Jumping.landings (h : Jumping s t) : t.landings ⊆ s.landings := h.still.landings
theorem Jumping.platform (h : Jumping s t) : t.platform = s.platform := by simpa using h.still.platform
theorem Jumping.params (h : Jumping s t) : t.params = s.params := by simp [State.params, h.platform]
theorem Jumping.flash (h : Jumping s t) : t.flash = s.flash := by simpa using h.still.flash
theorem Jumping.vectorTable (h : Jumping s t) : t.vectorTable = s.vectorTable := by
  simp [State.vectorTable, State.word, h.flash, h.params]

theorem Jumping.trans {u : State} (h : Jumping s t) (k : Jumping t u) : Jumping s u where
  still := (h.still.setMode u.mode).trans k.still
  mode := by
    rcases k.mode with hk | ⟨hk, hv⟩
    · rw [hk]; exact h.mode
    · exact .inr ⟨hk, by rwa [h.params, h.vectorTable] at hv⟩

theorem Run.Ends.bind_jumping {α β : Type} {r : Run α} {f : α → State → Run β} (h : r.Ends Jumping s)
    (hf : ∀ a t, r = .done a t → Jumping s t → (f a t).Ends Jumping t) : (r.bind f).Ends Jumping s :=
  h.bind (fun _ h => h.landings) (fun _ _ => Jumping.trans) hf

/-- The effect of one of the jump's calls, while a valid table is at hand: recorded, and at most the mode goes to JUMPED. -/
theorem jumping_effect {e : Event} {f : State → State} (hf : ∀ t, f t = t ∨ f t = t.setMode .jumped)
    (hv : validTable s.params s.vectorTable = true) (ht : Still s t) : Jumping s ((f t).emit e) := by
  refine ht.jumping.trans ?_
  rcases hf t with h | h
  · rw [h]; exact (Still.emit t e).jumping
  · rw [h]
    refine ⟨?_, .inr ⟨rfl, by rwa [ht.params, ht.vectorTable]⟩⟩
    exact Still.emit (t.setMode .jumped) e

theorem voidCall_jumping {e : Event} {f : State → State} (hf : ∀ t, f t = t ∨ f t = t.setMode .jumped)
    (hv : validTable s.params s.vectorTable = true) : (voidCall e f s).Ends Jumping s :=
  atCall_ends (fun _ h => h.jumping) (fun _ h => h.jumping) fun _ ht => ⟨_, _, rfl, jumping_effect hf hv ht⟩

theorem maskedCall_jumping {e : Event} {f : State → State} (hf : ∀ t, f t = t ∨ f t = t.setMode .jumped)
    (hv : validTable s.params s.vectorTable = true) : (maskedCall e f s).Ends Jumping s :=
  atMaskedCall_ends (fun _ h => h.jumping) fun _ ht => ⟨_, _, rfl, jumping_effect hf hv ht⟩

theorem jumpCalls_ends {v : VectorTable} (hv : validTable s.params s.vectorTable = true) :
    (jumpCalls v s).Ends Jumping s := by
  refine (voidCall_jumping (fun t => .inl rfl) hv).bind_jumping fun _ t1 _ h1 => ?_
  rw [← h1.params, ← h1.vectorTable] at hv
  refine (maskedCall_jumping (fun t => .inl rfl) hv).bind_jumping fun _ t2 _ h2 => ?_
  rw [← h2.params, ← h2.vectorTable] at hv
  refine (maskedCall_jumping (fun t => .inl rfl) hv).bind_jumping fun _ t3 _ h3 => ?_
  rw [← h3.params, ← h3.vectorTable] at hv
  exact (maskedCall_jumping (fun t => .inr rfl) hv).bind_jumping fun _ t _ _ => (Still.refl t).jumping

theorem maskedCall_done {e : Event} {f : State → State} {a : Unit} (h : maskedCall e f s = .done a t) :
    ∃ m, t = (f m).emit e := by
  obtain ⟨m, -, hm⟩ := atMaskedCall_done h
  simp only [Run.done.injEq] at hm
  exact ⟨m, hm.2.symm⟩

theorem jumpCalls_mode {v : VectorTable} {a : Unit} (h : jumpCalls v s = .done a t) : t.mode = .jumped := by
  unfold jumpCalls at h
  cases h1 : voidCall .disableInterrupts id s with
  | cut _ => simp [h1] at h
  | done a1 s1 =>
    simp only [h1, Run.bind_done] at h
    cases h2 : maskedCall (.relocateVectorTable s1.params.appStart) id s1 with
    | cut _ => simp [h2] at h
    | done a2 s2 =>
      simp only [h2, Run.bind_done] at h
      cases h3 : maskedCall (.setStackPointer v.sp) id s2 with
      | cut _ => simp [h3] at h
      | done a3 s3 =>
        simp only [h3, Run.bind_done] at h
        cases h4 : maskedCall (.branch v.rv) (fun s => s.setMode .jumped) s3 with
        | cut _ => simp [h4] at h
        | done a4 s4 =>
          simp only [h4, Run.bind_done, Run.done.injEq] at h
          obtain ⟨m, hm⟩ := maskedCall_done h4
          rw [← h.2, hm]; simp

/-- What JumpToApplication can do (R210 to R212). -/
theorem runJump_ends (s : State) : (runJump s).Ends Jumping s := by
  unfold runJump
  refine ((readVectorTable_ends s).mono fun _ => Still.jumping).bind_jumping fun v t hv hj => ?_
  cases v with
  | none => exact (Still.refl t).jumping
  | some v =>
    simp only
    split
    · rename_i hvalid
      rw [readVectorTable_value hv, ← hj.vectorTable] at hvalid
      exact (jumpCalls_ends hvalid).bind_jumping fun _ u _ _ => (Still.refl u).jumping
    · exact (Still.refl t).jumping

/-- It answers "jumped" in mode JUMPED, with a valid table, and "remained" in the mode it began in. -/
theorem runJump_done {b : Bool} (h : runJump s = .done b t) :
    (b = true ∧ t.mode = .jumped ∧ validTable s.params s.vectorTable = true) ∨ (b = false ∧ Still s t) := by
  unfold runJump at h
  cases h1 : readVectorTable s with
  | cut _ => simp [h1] at h
  | done v s1 =>
    have hst : Still s s1 := by have := readVectorTable_ends s; rw [h1] at this; exact this
    cases v with
    | none =>
      simp only [h1, Run.bind_done, Run.done.injEq] at h
      exact .inr ⟨h.1.symm, h.2 ▸ hst⟩
    | some v =>
      simp only [h1, Run.bind_done] at h
      split at h
      · rename_i hv
        cases h2 : jumpCalls v s1 with
        | cut _ => simp [h2] at h
        | done a s2 =>
          simp only [h2, Run.bind_done, Run.done.injEq] at h
          refine .inl ⟨h.1.symm, h.2 ▸ jumpCalls_mode h2, ?_⟩
          rw [readVectorTable_value h1, hst.params] at hv; exact hv
      · simp only [Run.done.injEq] at h
        exact .inr ⟨h.1.symm, h.2 ▸ hst⟩

/-- What the boot decision can do: still runs, and the flag cleared when it held the sentinel (R230). -/
structure Deciding (s t : State) : Prop where
  still : Still (s.setPflag t.pflag) t
  pflag : t.pflag = s.pflag ∨ s.pflag = s.params.magic ∧ t.pflag = s.params.magicClear

theorem Still.deciding (h : Still s t) : Deciding s t := ⟨h.setPflag t.pflag, .inl h.pflag⟩

theorem Deciding.trans {u : State} (h : Deciding s t) (k : Deciding t u) : Deciding s u where
  still := (h.still.setPflag u.pflag).trans k.still
  pflag := by
    have hp : t.params = s.params := h.still.params
    rcases k.pflag with hk | ⟨hk, hc⟩
    · rw [hk]; exact h.pflag
    · rcases h.pflag with hh | ⟨hh, -⟩
      · exact .inr ⟨by rw [← hh, hk, hp], by rw [hc, hp]⟩
      · exact .inr ⟨hh, by rw [hc, hp]⟩

theorem readFlag_value {w : Word} (h : readFlag s = .done w t) : w = s.pflag := by
  obtain ⟨m, hm, hf⟩ := atCall_done h
  simp only [Run.done.injEq] at hf
  rw [← hf.1, hm.pflag]

theorem runBootEval_ends (s : State) : (runBootEval s).Ends Deciding s := by
  have compose : ∀ {α β : Type} {s : State} {r : Run α} {f : α → State → Run β}, r.Ends Deciding s →
      (∀ a t, r = .done a t → Deciding s t → (f a t).Ends Deciding t) → (r.bind f).Ends Deciding s :=
    fun h hf => h.bind (fun _ h => h.still.landings) (fun _ _ => Deciding.trans) hf
  refine compose ((readFlag_ends s).mono fun _ => Still.deciding) fun flag t hr ht => ?_
  have hst : Still s t := by have := readFlag_ends s; rw [hr] at this; exact this
  split
  · rename_i hm
    rw [readFlag_value hr, ← hst.pflag] at hm
    refine compose (atCall_ends (fun _ h => h.deciding) (fun _ h => h.deciding) fun u hu => ⟨_, _, rfl, ?_⟩)
      fun _ u _ _ => (Still.refl u).deciding
    exact ⟨(hu.setPflag _).trans (Still.emit _ _), .inr ⟨hm, rfl⟩⟩
  · exact compose ((runCheck_ends t).mono fun _ => Still.deciding) fun _ u _ _ => (Still.refl u).deciding

end Sys2Proof.Machine
end

