-- ==== Sys2Proof/Laws/Results.lean ====
section
/-! SUPPORT. What the shared operations answer when nothing is waiting to land: transmission and responses, the flash sequencer,
verification, the vector table and the jump. -/

namespace Sys2Proof.Machine

variable {s t : State}

/-! ## Answers -/

theorem State.Accepts.answer {n : Nat} (h : s.Accepts (n + 1)) : s.answer = .ok := by
  obtain ⟨-, h⟩ := h
  cases ha : s.answers with
  | nil => simp [ha, List.replicate_succ] at h
  | cons a l =>
    simp only [ha, List.take_succ_cons, List.replicate_succ, List.cons.injEq] at h
    simp [State.answer, ha, h.1]

theorem State.Accepts.tail {n : Nat} (h : s.Accepts (n + 1)) :
    s.answers.tail.take n = List.replicate n .ok := by
  obtain ⟨-, h⟩ := h
  cases ha : s.answers with
  | nil => simp [ha, List.replicate_succ] at h
  | cons a l =>
    simp only [ha, List.take_succ_cons, List.replicate_succ, List.cons.injEq] at h
    simpa using h.2

theorem State.RefusesAt.answer_zero (h : s.RefusesAt 0) : s.answer = .fail := by
  obtain ⟨-, h⟩ := h
  cases ha : s.answers with
  | nil => simp [ha] at h
  | cons a l =>
    simp [ha] at h
    simp [State.answer, ha, h]

theorem State.RefusesAt.answer_succ {n : Nat} (h : s.RefusesAt (n + 1)) : s.answer = .ok := by
  obtain ⟨-, h⟩ := h
  cases ha : s.answers with
  | nil => simp [ha, List.replicate_succ] at h
  | cons a l =>
    simp only [ha, List.take_succ_cons, List.replicate_succ, List.cons_append, List.cons.injEq] at h
    simp [State.answer, ha, h.1]

theorem State.RefusesAt.tail {n : Nat} (h : s.RefusesAt (n + 1)) :
    s.answers.tail.take (n + 1) = List.replicate n .ok ++ [.fail] := by
  obtain ⟨-, h⟩ := h
  cases ha : s.answers with
  | nil => simp [ha, List.replicate_succ] at h
  | cons a l =>
    simp only [ha, List.take_succ_cons, List.replicate_succ, List.cons_append, List.cons.injEq] at h
    simpa using h.2

/-- Dropping answers one at a time. -/
theorem drop_tail (l : List Answer) (n : Nat) : l.tail.drop n = l.drop (n + 1) := by
  rw [← List.drop_one, List.drop_drop, Nat.add_comm]

/-! ## Transmission -/

theorem transmit_plain (h : s.landings = []) (p : Packet) :
    transmit p s = .done s.answer (s.drawn.emit (.transmit p (some s.answer))) := by
  simp [transmit, atCall_plain h]

theorem transmitAll_accept (ps : List Packet) (s : State) (h : s.Accepts ps.length) :
    transmitAll ps s = .done true { s with
      trace := s.trace ++ ps.map fun p => .transmit p (some .ok)
      answers := s.answers.drop ps.length
      draws := s.draws + ps.length } := by
  induction ps generalizing s with
  | nil => simp [transmitAll]
  | cons p ps ih =>
    have ha := h.answer
    simp only [transmitAll, transmit_plain h.1, Run.bind_done, ha]
    rw [ih _ ⟨by simpa using h.1, by simpa using h.tail⟩]
    simp [State.emit, State.drawn, State.setAnswers, State.setDraws, Nat.add_comm, Nat.add_left_comm]

theorem transmitAll_refuse (ps : List Packet) (k : Nat) (p : Packet) (s : State) (hk : ps[k]? = some p)
    (h : s.RefusesAt k) : transmitAll ps s = .done false { s with
      trace := s.trace ++ (ps.take k).map (fun p => .transmit p (some .ok)) ++ [.transmit p (some .fail)]
      answers := s.answers.drop (k + 1)
      draws := s.draws + (k + 1) } := by
  induction ps generalizing s k with
  | nil => simp at hk
  | cons q ps ih =>
    cases k with
    | zero =>
      simp only [List.getElem?_cons_zero, Option.some.injEq] at hk
      subst hk
      simp [transmitAll, transmit_plain h.1, h.answer_zero, State.emit, State.drawn, State.setAnswers,
        State.setDraws]
    | succ k =>
      simp only [transmitAll, transmit_plain h.1, Run.bind_done, h.answer_succ]
      rw [ih k _ (by simpa using hk) ⟨by simpa using h.1, by simpa using h.tail⟩]
      simp [State.emit, State.drawn, State.setAnswers, State.setDraws, Nat.add_comm, Nat.add_left_comm]

/-- Whatever the answers, the packets go out in order up to the first refused one. -/
theorem transmitAll_any (ps : List Packet) (s : State) (h : s.landings = []) :
    ∃ (ok : Bool) (as : List Answer) (l : List Answer) (d : Nat),
      transmitAll ps s = .done ok { s with
        trace := s.trace ++ List.zipWith (fun p a => Event.transmit p (some a)) ps as, answers := l, draws := d } ∧
      as.length ≤ ps.length ∧ (∀ a ∈ as.dropLast, a = .ok) ∧
      ((ok = true ∧ as = List.replicate ps.length .ok) ∨ (ok = false ∧ as.getLast? = some .fail)) := by
  induction ps generalizing s with
  | nil => exact ⟨true, [], s.answers, s.draws, by simp [transmitAll], by simp, by simp, by simp⟩
  | cons p ps ih =>
    simp only [transmitAll, transmit_plain h, Run.bind_done]
    cases ha : s.answer with
    | fail =>
      refine ⟨false, [.fail], s.answers.tail, s.draws + 1, ?_, by simp, by simp, by simp⟩
      simp [State.emit, State.drawn, State.setAnswers, State.setDraws]
    | ok =>
      obtain ⟨ok, as, l, d, hr, hlen, hdl, hend⟩ := ih (s.drawn.emit (.transmit p (some .ok))) (by simpa using h)
      refine ⟨ok, .ok :: as, l, d, ?_, by simpa using hlen, ?_, ?_⟩
      · simp only [hr]
        simp [State.emit, State.drawn, State.setAnswers, State.setDraws]
      · intro a hmem
        cases as with
        | nil => simp at hmem
        | cons b as =>
          rw [List.dropLast_cons_cons] at hmem
          rcases List.mem_cons.mp hmem with h1 | h1
          · exact h1
          · exact hdl a h1
      · rcases hend with ⟨h1, h2⟩ | ⟨h1, h2⟩
        · exact .inl ⟨h1, by simp [h2, List.replicate_succ]⟩
        · refine .inr ⟨h1, ?_⟩
          cases as with
          | nil => simp at h2
          | cons b as => rw [List.getLast?_cons_cons]; exact h2

/-! ## Responses -/

theorem byteAt_cons_zero (b : Byte) (l : List Byte) : byteAt (b :: l) 0 = b := rfl

theorem byteAt_last_append (l : List Byte) (b : Byte) : byteAt (l ++ [b]) ((l ++ [b]).length - 1) = b := by
  simp [byteAt]

theorem layout_eq (dev sel : Byte) (payload : List Byte) (chk : Byte) :
    layout dev sel payload chk = [0xF0, 0x00, 0x00, 0x7E, dev, sel] ++ payload ++ [chk] ++ [0xF7] := by
  simp [layout]

theorem layout_length (dev sel : Byte) (payload : List Byte) (chk : Byte) :
    (layout dev sel payload chk).length = payload.length + 8 := by simp [layout_eq]

/-- A message of the block's own may be transmitted (R121). -/
theorem sendable_layout (dev sel : Byte) (payload : List Byte) (chk : Byte) {c : Nat} (hc : c ≤ 3) :
    sendable (layout dev sel payload chk) c = true := by
  have h2 : byteAt (layout dev sel payload chk) ((layout dev sel payload chk).length - 1) = 0xF7 := by
    rw [layout_eq]; exact byteAt_last_append _ _
  simp only [sendable, h2]
  simp [layout, byteAt, hc]

/-- The messages `Respond` is given. -/
def IsOwnMessage (r : List Byte) : Prop := ∃ sel payload, r = buildMsg sel payload

theorem ackMsg_own (cmd : Byte) (v : Word) : IsOwnMessage (ackMsg cmd v) := ⟨_, _, rfl⟩
theorem errorMsg_own (cmd : Byte) (code : ErrorCode) : IsOwnMessage (errorMsg cmd code) := ⟨_, _, rfl⟩
theorem infoMsg_own (p : Params) : IsOwnMessage (infoMsg p) := ⟨_, _, rfl⟩

theorem respCable_le (s : State) : s.params.respCable.toNat ≤ 3 := by
  have := s.params.respCable.isLt; omega

theorem respCable_width (s : State) : BitVec.ofNat 4 s.params.respCable.toNat = s.params.respCable.setWidth 4 := by
  apply BitVec.eq_of_toNat_eq; simp

theorem respond_eq {r : List Byte} (hr : IsOwnMessage r) (s : State) :
    respond r s = (transmitAll (replyPackets s.params r) s).bind fun ok s =>
      .done (if ok then .responded else .txFailed) s := by
  obtain ⟨sel, payload, rfl⟩ := hr
  simp only [respond, runSendSysex, buildMsg, sendable_layout _ _ _ _ (respCable_le s), if_true, respCable_width,
    replyPackets]

/-- Offering a response: it answers, and the state is the one `Responds` describes. -/
theorem respond_responds {r : List Byte} (hr : IsOwnMessage r) (h : s.landings = []) :
    ∃ st u, respond r s = .done st u ∧ Responds s (u.setStatus st) r := by
  obtain ⟨ok, as, l, d, hrun, hlen, hdl, hend⟩ := transmitAll_any (replyPackets s.params r) s h
  rw [respond_eq hr, hrun]
  refine ⟨_, _, rfl, ?_, as, rfl, hlen, hdl, ?_⟩
  · simp [State.setStatus]
  · rcases hend with ⟨h1, h2⟩ | ⟨h1, h2⟩
    · exact .inl ⟨by simp [h1], h2⟩
    · exact .inr ⟨by simp [h1], h2⟩

/-- With every packet accepted. -/
theorem respond_accept {r : List Byte} (hr : IsOwnMessage r) (h : s.Accepts (replyPackets s.params r).length) :
    ∃ u, respond r s = .done .responded u ∧ u.setStatus .responded = s.afterReply r := by
  rw [respond_eq hr, transmitAll_accept _ _ h]
  exact ⟨_, rfl, rfl⟩

end Sys2Proof.Machine
end

