-- ==== Sys2Proof/Laws/Encoding.lean ====
section
/-! SUPPORT. The wire forms: what each is on numbers, and which bytes of a laid-out message stand where. -/

namespace Sys2Proof.Machine

/-! ## Wire integers (R90, R91) -/

/-- `Dec5` on numbers: only the low 4 bits of the first byte contribute. -/
theorem dec5_toNat (c0 c1 c2 c3 c4 : Byte) : (dec5 c0 c1 c2 c3 c4).toNat =
    c0.toNat % 16 * 2 ^ 28 + c1.toNat % 128 * 2 ^ 21 + c2.toNat % 128 * 2 ^ 14 + c3.toNat % 128 * 2 ^ 7 +
      c4.toNat % 128 := by
  have h7 : ∀ c : Byte, (low7 c).toNat = c.toNat % 128 := by
    intro c
    simp only [low7, BitVec.toNat_setWidth, BitVec.toNat_and]
    rw [show BitVec.toNat (0x7F : Byte) = 2 ^ 7 - 1 from rfl, Nat.and_two_pow_sub_one_eq_mod]; omega
  simp only [dec5, BitVec.toNat_or, BitVec.toNat_shiftLeft, h7]
  rw [Nat.mod_eq_of_lt (a := (c1.toNat % 128) <<< 21) (by rw [Nat.shiftLeft_eq]; omega),
    Nat.mod_eq_of_lt (a := (c2.toNat % 128) <<< 14) (by rw [Nat.shiftLeft_eq]; omega),
    Nat.mod_eq_of_lt (a := (c3.toNat % 128) <<< 7) (by rw [Nat.shiftLeft_eq]; omega)]
  have e0 : (c0.toNat % 128) <<< 28 % 2 ^ 32 = (c0.toNat % 16) <<< 28 := by
    rw [Nat.shiftLeft_eq, Nat.shiftLeft_eq]; omega
  rw [e0]
  simp only [Nat.or_assoc]
  rw [← Nat.shiftLeft_add_eq_or_of_lt (b := c4.toNat % 128) (by omega)]
  rw [← Nat.shiftLeft_add_eq_or_of_lt (i := 14) (by rw [Nat.shiftLeft_eq]; omega)]
  rw [← Nat.shiftLeft_add_eq_or_of_lt (i := 21) (by simp only [Nat.shiftLeft_eq]; omega)]
  rw [← Nat.shiftLeft_add_eq_or_of_lt (i := 28) (by simp only [Nat.shiftLeft_eq]; omega)]
  simp only [Nat.shiftLeft_eq]; omega

/-- `Enc5` on numbers. -/
theorem enc5_eq (v : Word) : enc5 v = [BitVec.ofNat 8 (v.toNat / 2 ^ 28), BitVec.ofNat 8 (v.toNat / 2 ^ 21 % 128),
    BitVec.ofNat 8 (v.toNat / 2 ^ 14 % 128), BitVec.ofNat 8 (v.toNat / 2 ^ 7 % 128), BitVec.ofNat 8 (v.toNat % 128)] := by
  have := v.isLt
  simp only [enc5, List.cons.injEq, and_true]
  refine ⟨?_, ?_, ?_, ?_, ?_⟩ <;> apply BitVec.eq_of_toNat_eq <;>
    simp only [BitVec.toNat_setWidth, BitVec.extractLsb_toNat, BitVec.toNat_ofNat, Nat.shiftRight_eq_div_pow] <;> omega

/-- `Chk` on numbers (R88). -/
theorem checksum_toNat (s : List Byte) : (checksum s).toNat = (128 - byteSum s % 128) % 128 := by
  simp only [checksum, BitVec.toNat_ofNat]; omega

/-! ## Packet headers (R80, R81) -/

theorem headerCin_header (c n : BitVec 4) : headerCin (header c n) = n := by revert c n; decide
theorem headerCable_header (c n : BitVec 4) : headerCable (header c n) = c := by revert c n; decide
theorem header_eq (h : Byte) : header (headerCable h) (headerCin h) = h := by revert h; decide

/-! ## Laid-out messages (R86) -/

theorem slice_payload (dev sel : Byte) (payload : List Byte) (chk : Byte) :
    slice (layout dev sel payload chk) 6 ((layout dev sel payload chk).length - 2) = payload := by
  rw [layout_eq]; simp [slice]

theorem byteAt_chk (dev sel : Byte) (payload : List Byte) (chk : Byte) :
    byteAt (layout dev sel payload chk) ((layout dev sel payload chk).length - 2) = chk := by
  rw [layout_eq]; simp [byteAt]

theorem devIdByte_of_some {b : Byte} {d : DevId} (h : devIdOfByte b = some d) : devIdByte d = b := by
  simp only [devIdOfByte] at h
  split at h
  · cases h; subst_vars; rfl
  · split at h
    · cases h; subst_vars; rfl
    · cases h

theorem errorOfByte_errorByte (c : ErrorCode) : errorOfByte (errorByte c) = some c := by cases c <;> decide

/-- A request that is laid out decodes to the command its selector names. -/
theorem decodeRequest_layout (d : DevId) (sel : Byte) (payload : List Byte) (chk : Byte) :
    decodeRequest (layout (devIdByte d) sel payload chk) = .ok (commandOf d sel payload chk) := by
  have hl : byteAt (layout (devIdByte d) sel payload chk) ((layout (devIdByte d) sel payload chk).length - 1) = 0xF7 := by
    rw [layout_eq]; exact byteAt_last_append _ _
  have h4 : byteAt (layout (devIdByte d) sel payload chk) 4 = devIdByte d := rfl
  have h5 : byteAt (layout (devIdByte d) sel payload chk) 5 = sel := rfl
  have h0 : byteAt (layout (devIdByte d) sel payload chk) 0 = 0xF0 := rfl
  have h13 : slice (layout (devIdByte d) sel payload chk) 1 4 = [0, 0, 0x7E] := rfl
  simp only [decodeRequest, slice_payload, byteAt_chk, hl]
  rw [h4, h5, h0, h13, layout_length]
  cases d <;> simp [devIdByte, devIdOfByte]

/-- A message that passes R151 and R152 and has the manufacturer's bytes is laid out as R86 says. -/
theorem layout_of_bytes {m : List Byte} (h8 : 8 ≤ m.length) (h0 : byteAt m 0 = 0xF0)
    (hl : byteAt m (m.length - 1) = 0xF7) (hm : slice m 1 4 = [0, 0, 0x7E]) :
    layout (byteAt m 4) (byteAt m 5) (slice m 6 (m.length - 2)) (byteAt m (m.length - 2)) = m := by
  rw [layout_eq]
  apply List.ext_getElem?
  intro i
  have e : ∀ j, j < m.length → m[j]? = some (byteAt m j) := by
    intro j hj; simp [byteAt, hj]
  have l : (slice m 6 (m.length - 2)).length = m.length - 8 := by simp [slice]; omega
  have hs : ∀ j, j < 3 → byteAt m (1 + j) = [0, 0, (0x7E : Byte)].getD j 0 := by
    intro j hj
    have := congrArg (fun l => l.getD j 0) hm
    simp only [← this, slice, byteAt]
    simp only [List.getD_eq_getElem?_getD, List.getElem?_drop]
    rw [List.getElem?_take_of_lt (by omega)]
  have h1 := hs 0 (by omega); have h2 := hs 1 (by omega); have h3 := hs 2 (by omega)
  simp at h1 h2 h3
  by_cases c1 : i < 6
  · rw [e i (by omega), List.append_assoc, List.append_assoc, List.getElem?_append_left (by simpa using c1)]
    match i, c1 with
    | 0, _ => simp [h0]
    | 1, _ => simp [h1]
    | 2, _ => simp [h2]
    | 3, _ => simp [h3]
    | 4, _ => simp
    | 5, _ => simp
  · by_cases c2 : i < m.length - 2
    · rw [List.append_assoc, List.append_assoc, List.getElem?_append_right (by simp; omega),
        List.getElem?_append_left (by simp [l]; omega)]
      simp only [slice, List.getElem?_drop, List.length_cons, List.length_nil]
      rw [List.getElem?_take_of_lt (by omega)]; congr 1; omega
    · rw [List.append_assoc, List.append_assoc, List.getElem?_append_right (by simp; omega),
        List.getElem?_append_right (by simp [l]; omega)]
      simp only [l, List.length_cons, List.length_nil]
      by_cases c3 : i = m.length - 2
      · rw [e i (by omega), c3, show m.length - 2 - (0 + 1 + 1 + 1 + 1 + 1 + 1) - (m.length - 8) = 0 by omega]; rfl
      · by_cases c4 : i = m.length - 1
        · rw [e i (by omega), c4, hl, show m.length - 1 - (0 + 1 + 1 + 1 + 1 + 1 + 1) - (m.length - 8) = 1 by omega]; rfl
        · rw [List.getElem?_eq_none (by simp; omega), List.getElem?_eq_none (by omega)]

theorem ackMsg_length (cmd : Byte) (v : Word) : (ackMsg cmd v).length = 14 := rfl
theorem errorMsg_length (cmd : Byte) (code : ErrorCode) : (errorMsg cmd code).length = 10 := rfl
theorem infoMsg_length (p : Params) : (infoMsg p).length = 21 := rfl

/-- What WRITE_BLOCK's parse answers on operands that are all there. -/
theorem parseWriteBlock_of_operands {payload data : List Byte} {offset : Word}
    (h : BlockOperands payload offset data) : parseWriteBlock payload = some (offset, data) := by
  obtain ⟨h1, h2, h3, h4, h5⟩ := h
  simp only [parseWriteBlock, Config.writeBlockMax]
  rw [if_neg (by omega), if_neg (by omega), ← h1]
  simp only [slice, ← h2, ← h5]
  simp [h4]

/-- An operation's operand bytes, where its length is at most its data's. -/
theorem operandBytes_of_le {data : List Byte} {n : Nat} (h : n ≤ data.length) : operandBytes data n = data.take n := by
  simp [operandBytes, Nat.sub_eq_zero_of_le h]

end Sys2Proof.Machine
end

