-- ==== Sys2Proof/Laws/Flash.lean ====
section
/-! SUPPORT. What the flash sequencer and the comparison answer when nothing is waiting to land, byte by byte. -/

namespace Sys2Proof.Machine

variable {s t : State}

/-! ## Erase -/

theorem flashEraseSector_ok (x : Sector) (h : s.landings = []) (ha : s.answer = .ok) :
    flashEraseSector x s = .done .ok ((s.drawn.setFlash (s.flash.fill x.lo x.size s.params.erased)).emit
      (.flashEraseSector x.number (some .ok))) := by
  simp [flashEraseSector, atCall_plain h, ha]

theorem flashEraseSector_fail (x : Sector) (h : s.landings = []) (ha : s.answer = .fail) :
    flashEraseSector x s = .done .fail ((s.drawn.scramble x.lo x.size).emit
      (.flashEraseSector x.number (some .fail))) := by
  simp [flashEraseSector, atCall_plain h, ha]

theorem read_fill_in {m : Memory} {x : Sector} {a : Nat} (ha : a < Config.addressSpace) (hx : x.Has a) (v : Byte) :
    Memory.read (m.fill x.lo x.size v) a = v := by
  rw [Memory.fill_eq_overwrite, Memory.read_overwrite_of_lt ha]
  exact if_pos hx

theorem read_fill_out {m : Memory} {x : Sector} {a : Nat} (hx : ¬ x.Has a) (v : Byte) :
    Memory.read (m.fill x.lo x.size v) a = m.read a := by
  rw [Memory.fill_eq_overwrite, Memory.read_overwrite_outside hx]

theorem eraseSectors_accept (xs : List Sector) (s : State) (h : s.Accepts xs.length) :
    ∃ f : Memory, eraseSectors xs s = .done true { s with
      flash := f
      trace := s.trace ++ xs.map fun x => .flashEraseSector x.number (some .ok)
      answers := s.answers.drop xs.length
      draws := s.draws + xs.length } ∧
      (∀ x ∈ xs, ∀ a < Config.addressSpace, x.Has a → f.read a = s.params.erased) ∧
      ∀ a, (∀ x ∈ xs, ¬ x.Has a) → f.read a = s.flash.read a := by
  induction xs generalizing s with
  | nil => exact ⟨s.flash, by simp [eraseSectors], by simp, by simp⟩
  | cons x xs ih =>
    obtain ⟨f, hf, he, hk⟩ := ih ((s.drawn.setFlash (s.flash.fill x.lo x.size s.params.erased)).emit
      (.flashEraseSector x.number (some .ok))) ⟨by simpa using h.1, by simpa using h.tail⟩
    refine ⟨f, ?_, ?_, ?_⟩
    · simp only [eraseSectors, flashEraseSector_ok x h.1 h.answer, Run.bind_done, hf]
      simp [State.emit, State.drawn, State.setAnswers, State.setDraws, State.setFlash, Nat.add_comm, Nat.add_left_comm]
    · intro y hy a ha hya
      by_cases hlater : ∃ z ∈ xs, z.Has a
      · obtain ⟨z, hz, hza⟩ := hlater
        simpa using he z hz a ha hza
      · have hxy : x.Has a := by
          rcases List.mem_cons.mp hy with rfl | hy
          · exact hya
          · exact absurd ⟨y, hy, hya⟩ hlater
        rw [hk a fun z hz hza => hlater ⟨z, hz, hza⟩]
        simpa using read_fill_in ha hxy _
    · intro a ha
      rw [hk a fun z hz => ha z (List.mem_cons_of_mem _ hz)]
      simpa using read_fill_out (ha x (List.mem_cons_self ..)) _

theorem eraseSectors_refuse (xs : List Sector) (k : Nat) (x : Sector) (s : State) (hk : xs[k]? = some x)
    (h : s.RefusesAt k) :
    ∃ (f : Memory) (d : Nat), eraseSectors xs s = .done false { s with
      flash := f
      trace := s.trace ++ (xs.take k).map (fun y => .flashEraseSector y.number (some .ok)) ++
        [.flashEraseSector x.number (some .fail)]
      answers := s.answers.drop (k + 1)
      draws := d } ∧
      (∀ y ∈ xs.take k, ∀ a < Config.addressSpace, y.Has a → ¬ x.Has a → f.read a = s.params.erased) ∧
      ∀ a, (∀ y ∈ xs.take k, ¬ y.Has a) → ¬ x.Has a → f.read a = s.flash.read a := by
  induction xs generalizing s k with
  | nil => simp at hk
  | cons y xs ih =>
    cases k with
    | zero =>
      simp only [List.getElem?_cons_zero, Option.some.injEq] at hk
      subst hk
      refine ⟨s.flash.overwrite y.lo y.size (Config.unspecified (s.draws + 1)), s.draws + 2, ?_, by simp, ?_⟩
      · simp only [eraseSectors, flashEraseSector_fail y h.1 h.answer_zero, Run.bind_done]
        simp [State.emit, State.drawn, State.setAnswers, State.setDraws, State.scramble, State.setFlash]
      · intro a _ hya
        exact Memory.read_overwrite_outside hya _ _
    | succ k =>
      obtain ⟨f, d, hf, he, hkept⟩ := ih k ((s.drawn.setFlash (s.flash.fill y.lo y.size s.params.erased)).emit
        (.flashEraseSector y.number (some .ok))) (by simpa using hk) ⟨by simpa using h.1, by simpa using h.tail⟩
      refine ⟨f, d, ?_, ?_, ?_⟩
      · simp only [eraseSectors, flashEraseSector_ok y h.1 h.answer_succ, Run.bind_done, hf]
        simp [State.emit, State.drawn, State.setAnswers, State.setDraws, State.setFlash]
      · intro z hz a ha hza hxa
        rw [List.take_succ_cons] at hz
        by_cases hlater : ∃ w ∈ xs.take k, w.Has a
        · obtain ⟨w, hw, hwa⟩ := hlater
          simpa using he w hw a ha hwa hxa
        · have hya : y.Has a := by
            rcases List.mem_cons.mp hz with rfl | hz
            · exact hza
            · exact absurd ⟨z, hz, hza⟩ hlater
          rw [hkept a (fun w hw hwa => hlater ⟨w, hw, hwa⟩) hxa]
          simpa using read_fill_in ha hya _
      · intro a ha hxa
        rw [List.take_succ_cons] at ha
        rw [hkept a (fun w hw => ha w (List.mem_cons_of_mem _ hw)) hxa]
        simpa using read_fill_out (ha y (List.mem_cons_self ..)) _

/-- The bracket around an operation that answers (R190). -/
theorem bracketed_done {op : State → Run Bool} {b : Bool} (h : s.landings = [])
    (hop : op ((s.setLock .unlocked).emit .flashUnlock) = .done b t) (ht : t.landings = []) :
    bracketed op s = .done b ((t.setLock .locked).emit .flashLock) := by
  simp [bracketed, flashUnlock, flashLock, voidCall, atCall_plain h, hop, atCall_plain ht]

theorem runErase_accept (h : s.Accepts s.params.sectors.length) : ∃ u, runErase s = .done true u ∧ Erased s u := by
  obtain ⟨f, hf, he, hk⟩ := eraseSectors_accept s.params.sectors ((s.setLock .unlocked).emit .flashUnlock)
    ⟨by simpa using h.1, by simpa using h.2⟩
  refine ⟨_, bracketed_done h.1 hf (by simpa using h.1), ⟨?_, ?_, ?_⟩⟩
  · simp [State.emit, State.setLock]
  · simpa using he
  · simpa using hk

theorem runErase_refuse {k : Nat} {x : Sector} (hx : s.params.sectors[k]? = some x) (h : s.RefusesAt k) :
    ∃ u, runErase s = .done false u ∧ ErasedUpTo s u k x := by
  obtain ⟨f, d, hf, he, hk⟩ := eraseSectors_refuse s.params.sectors k x ((s.setLock .unlocked).emit .flashUnlock) hx
    ⟨by simpa using h.1, by simpa using h.2⟩
  refine ⟨_, bracketed_done h.1 hf (by simpa using h.1), ⟨?_, ?_, ?_⟩⟩
  · simp [State.emit, State.setLock]
  · simpa using he
  · simpa using hk

/-! ## Program -/

theorem flashProgramUnit_ok (a : Nat) (u : List Byte) (h : s.landings = []) (ha : s.answer = .ok) :
    flashProgramUnit a u s = .done .ok ((s.drawn.setFlash (s.flash.overwrite a u.length fun x =>
      combine s.params.programSem (s.flash.read x) (byteAt u (x - a)))).emit (.flashProgramUnit a u (some .ok))) := by
  simp [flashProgramUnit, atCall_plain h, ha]

theorem flashProgramUnit_fail (a : Nat) (u : List Byte) (h : s.landings = []) (ha : s.answer = .fail) :
    flashProgramUnit a u s = .done .fail ((s.drawn.scramble a u.length).emit
      (.flashProgramUnit a u (some .fail))) := by
  simp [flashProgramUnit, atCall_plain h, ha]

/-- Units of P bytes laid end to end from `base`. -/
def unitRow (base P : Nat) (u : Nat → List Byte) (k n : Nat) : List (Nat × List Byte) :=
  (List.range' k n).map fun j => (base + j * P, u j)

theorem unitRow_succ (base P : Nat) (u : Nat → List Byte) (k n : Nat) :
    unitRow base P u k (n + 1) = (base + k * P, u k) :: unitRow base P u (k + 1) n := by
  simp [unitRow, List.range'_succ]

theorem programCalls_eq (p : Params) (offset : Nat) (data : List Byte) :
    programCalls p offset data = unitRow (p.appLo + offset) p.progUnit (progUnitBytes p data) 0
      ((data.length + p.progUnit - 1) / p.progUnit) := by
  simp [programCalls, unitRow, List.range_eq_range']

/-- What a row of units that are all accepted leaves. -/
theorem programUnits_accept (base P : Nat) (hP : 1 ≤ P) (u : Nat → List Byte) (hu : ∀ k, (u k).length = P) (n : Nat) :
    ∀ (k : Nat) (s : State), s.Accepts n → ∃ f : Memory, programUnits (unitRow base P u k n) s = .done true { s with
      flash := f
      trace := s.trace ++ (unitRow base P u k n).map fun c => .flashProgramUnit c.1 c.2 (some .ok)
      answers := s.answers.drop n
      draws := s.draws + n } ∧
      (∀ a < Config.addressSpace, base + k * P ≤ a → a < base + (k + n) * P →
        f.read a = combine s.params.programSem (s.flash.read a) (byteAt (u ((a - base) / P)) ((a - base) % P))) ∧
      ∀ a, ¬ (base + k * P ≤ a ∧ a < base + (k + n) * P) → f.read a = s.flash.read a := by
  induction n with
  | zero =>
    intro k s h
    refine ⟨s.flash, by simp [unitRow, programUnits], ?_, by simp⟩
    intro a _ h1 h2
    simp only [Nat.add_zero] at h2; omega
  | succ n ih =>
    intro k s h
    obtain ⟨f, hf, hb, hk⟩ := ih (k + 1) ((s.drawn.setFlash (s.flash.overwrite (base + k * P) (u k).length fun x =>
      combine s.params.programSem (s.flash.read x) (byteAt (u k) (x - (base + k * P))))).emit
        (.flashProgramUnit (base + k * P) (u k) (some .ok))) ⟨by simpa using h.1, by simpa using h.tail⟩
    have hmul : (k + 1) * P = k * P + P := by rw [Nat.add_mul, Nat.one_mul]
    have hmul2 : (k + 1 + n) * P = (k + (n + 1)) * P := by congr 1; omega
    have hle : (k + 1) * P ≤ (k + (n + 1)) * P := Nat.mul_le_mul_right _ (by omega)
    refine ⟨f, ?_, ?_, ?_⟩
    · rw [unitRow_succ]
      simp only [programUnits, flashProgramUnit_ok _ _ h.1 h.answer, Run.bind_done, hf]
      simp [State.emit, State.drawn, State.setAnswers, State.setDraws, State.setFlash, Nat.add_comm, Nat.add_left_comm]
    · intro a ha h1 h2
      by_cases hin : base + (k + 1) * P ≤ a
      · rw [hb a ha hin (by rw [hmul2]; exact h2)]
        have hout : ¬ (base + k * P ≤ a ∧ a < base + k * P + (u k).length) := by rw [hu]; omega
        simp [Memory.read_overwrite_outside hout]
      · rw [hk a (fun hc => hin hc.1)]
        have hlt : a < base + k * P + (u k).length := by rw [hu]; omega
        have hdiv : (a - base) / P = k := by
          apply Nat.div_eq_of_lt_le
          · omega
          · rw [hmul]; omega
        have hmod : (a - base) % P = a - (base + k * P) := by
          have := Nat.div_add_mod (a - base) P
          rw [hdiv, Nat.mul_comm] at this; omega
        simp [Memory.read_overwrite_of_lt ha, h1, hlt, hdiv, hmod]
    · intro a ha
      rw [hk a (fun hc => ha ⟨by omega, by rw [← hmul2]; exact hc.2⟩)]
      have hout : ¬ (base + k * P ≤ a ∧ a < base + k * P + (u k).length) := by
        rw [hu]; intro hc; exact ha ⟨hc.1, by omega⟩
      simp [Memory.read_overwrite_outside hout]

/-- What a row of units leaves when one of them is refused. -/
theorem programUnits_refuse (base P : Nat) (hP : 1 ≤ P) (u : Nat → List Byte) (hu : ∀ k, (u k).length = P) (n : Nat) :
    ∀ (k m : Nat) (c : Nat × List Byte) (s : State), (unitRow base P u k n)[m]? = some c → s.RefusesAt m →
      ∃ (f : Memory) (d : Nat), programUnits (unitRow base P u k n) s = .done false { s with
      flash := f
      trace := s.trace ++ ((unitRow base P u k n).take m).map (fun c => .flashProgramUnit c.1 c.2 (some .ok)) ++
        [.flashProgramUnit c.1 c.2 (some .fail)]
      answers := s.answers.drop (m + 1)
      draws := d } ∧
      (∀ a < Config.addressSpace, base + k * P ≤ a → a < base + (k + m) * P →
        f.read a = combine s.params.programSem (s.flash.read a) (byteAt (u ((a - base) / P)) ((a - base) % P))) ∧
      ∀ a, ¬ (base + k * P ≤ a ∧ a < base + (k + m + 1) * P) → f.read a = s.flash.read a := by
  induction n with
  | zero => intro k m c s hc; simp [unitRow] at hc
  | succ n ih =>
    intro k m c s hc h
    have hmul : (k + 1) * P = k * P + P := by rw [Nat.add_mul, Nat.one_mul]
    rw [unitRow_succ] at hc ⊢
    cases m with
    | zero =>
      simp only [List.getElem?_cons_zero, Option.some.injEq] at hc
      subst hc
      refine ⟨s.flash.overwrite (base + k * P) (u k).length (Config.unspecified (s.draws + 1)), s.draws + 2, ?_, ?_, ?_⟩
      · simp only [programUnits, flashProgramUnit_fail _ _ h.1 h.answer_zero, Run.bind_done]
        simp [State.emit, State.drawn, State.setAnswers, State.setDraws, State.scramble, State.setFlash]
      · intro a _ h1 h2
        simp only [Nat.add_zero] at h2; omega
      · intro a ha
        refine Memory.read_overwrite_outside ?_ _ _
        rw [hu]
        intro hc; exact ha ⟨hc.1, by simp only [Nat.add_zero, hmul]; omega⟩
    | succ m =>
      obtain ⟨f, d, hf, hb, hk⟩ := ih (k + 1) m c ((s.drawn.setFlash (s.flash.overwrite (base + k * P) (u k).length fun x =>
        combine s.params.programSem (s.flash.read x) (byteAt (u k) (x - (base + k * P))))).emit
          (.flashProgramUnit (base + k * P) (u k) (some .ok))) (by simpa using hc)
          ⟨by simpa using h.1, by simpa using h.tail⟩
      have hmul2 : (k + 1 + m) * P = (k + (m + 1)) * P := by congr 1; omega
      have hmul3 : (k + 1 + m + 1) * P = (k + (m + 1) + 1) * P := by congr 1; omega
      have hle : (k + 1) * P ≤ (k + (m + 1) + 1) * P := Nat.mul_le_mul_right _ (by omega)
      refine ⟨f, d, ?_, ?_, ?_⟩
      · simp only [programUnits, flashProgramUnit_ok _ _ h.1 h.answer_succ, Run.bind_done, hf]
        simp [State.emit, State.drawn, State.setAnswers, State.setDraws, State.setFlash]
      · intro a ha h1 h2
        by_cases hin : base + (k + 1) * P ≤ a
        · rw [hb a ha hin (by rw [hmul2]; exact h2)]
          have hout : ¬ (base + k * P ≤ a ∧ a < base + k * P + (u k).length) := by rw [hu]; omega
          simp [Memory.read_overwrite_outside hout]
        · rw [hk a (fun hc => hin hc.1)]
          have hlt : a < base + k * P + (u k).length := by rw [hu]; omega
          have hdiv : (a - base) / P = k := by
            apply Nat.div_eq_of_lt_le
            · omega
            · rw [hmul]; omega
          have hmod : (a - base) % P = a - (base + k * P) := by
            have := Nat.div_add_mod (a - base) P
            rw [hdiv, Nat.mul_comm] at this; omega
          simp [Memory.read_overwrite_of_lt ha, h1, hlt, hdiv, hmod]
      · intro a ha
        rw [hk a (fun hc => ha ⟨by omega, by rw [← hmul3]; exact hc.2⟩)]
        have hout : ¬ (base + k * P ≤ a ∧ a < base + k * P + (u k).length) := by
          rw [hu]; intro hc; exact ha ⟨hc.1, by omega⟩
        simp [Memory.read_overwrite_outside hout]

/-- A byte of a unit: the data byte it carries, or padding (R194). -/
theorem progUnitBytes_byte (p : Params) (data : List Byte) (k j : Nat) (hj : j < p.progUnit) :
    byteAt (progUnitBytes p data k) j =
      if k * p.progUnit + j < data.length then byteAt data (k * p.progUnit + j) else p.erased := by
  have hmul : (k + 1) * p.progUnit = k * p.progUnit + p.progUnit := by rw [Nat.add_mul, Nat.one_mul]
  simp only [progUnitBytes, byteAt, slice]
  split
  · rename_i h
    rw [List.getD_append _ _ _ _ (by simp only [List.length_drop, List.length_take]; omega)]
    simp only [List.getD_eq_getElem?_getD, List.getElem?_drop]
    rw [List.getElem?_take_of_lt (by omega)]
  · rename_i h
    rw [List.getD_append_right _ _ _ _ (by simp only [List.length_drop, List.length_take]; omega)]
    simp only [List.getD_eq_getElem?_getD]
    rw [List.getElem?_replicate_of_lt (by simp only [List.length_drop, List.length_take]; omega)]
    rfl

theorem programCalls_length (p : Params) (offset : Nat) (data : List Byte) :
    (programCalls p offset data).length = (data.length + p.progUnit - 1) / p.progUnit := by simp [programCalls]

/-- The units reach past the data by less than a unit. -/
theorem units_cover {P n : Nat} (hP : 1 ≤ P) : n ≤ (n + P - 1) / P * P := by
  have h1 := Nat.div_add_mod (n + P - 1) P
  have h2 := Nat.mod_lt (n + P - 1) (show 0 < P by omega)
  rw [Nat.mul_comm] at h1; omega

theorem appHi_le (s : State) : s.params.appHi ≤ Config.addressSpace := by
  have h := s.platform.2
  simp only [Params.legal, Bool.and_eq_true] at h
  exact of_decide_eq_true h.1.1.1.1.1.1.1.1.1.1

theorem div_mod_split {P i : Nat} : i / P * P + i % P = i := by
  have := Nat.div_add_mod i P
  rw [Nat.mul_comm] at this; exact this

theorem runWrite_accept {offset : Nat} {data : List Byte} (hr : offset + data.length ≤ s.params.appMaxSize.toNat)
    (hd : 0 < data.length) (h : s.Accepts (programCalls s.params offset data).length) :
    ∃ u, runWrite offset data s = .done true u ∧ Programmed s u offset data := by
  have hP := Platform.progUnit_pos s
  have hhi := appHi_le s
  rw [programCalls_length] at h
  obtain ⟨f, hf, hb, hk⟩ := programUnits_accept (s.params.appLo + offset) s.params.progUnit hP
    (progUnitBytes s.params data) (progUnitBytes_length s.params data) _ 0 ((s.setLock .unlocked).emit .flashUnlock)
    ⟨by simpa using h.1, by simpa using h.2⟩
  rw [← programCalls_eq] at hf
  have hrun := bracketed_done h.1 hf (by simpa using h.1)
  refine ⟨_, by simp only [runWrite, inRange, hr, decide_true, if_true, if_neg (Nat.pos_iff_ne_zero.mp hd)]; exact hrun,
    ⟨?_, ?_, ?_, ?_⟩⟩
  · simp [State.emit, State.setLock, programCalls_length]
  · intro i hi
    have hcov := units_cover (n := data.length) hP
    have := hb (s.params.appLo + offset + i) (by simp only [Params.appHi, Params.appLo] at *; omega) (by omega)
      (by simp only [Nat.zero_add]; omega)
    simp only [State.emit_flash, State.setLock_flash]
    rw [this, Nat.add_sub_cancel_left, progUnitBytes_byte _ _ _ _ (Nat.mod_lt _ (by omega)), div_mod_split, if_pos hi]
    simp
  · intro a ha h1 h2
    rw [programCalls_length] at h2
    have := hb a ha (by omega) (by simpa using h2)
    simp only [State.emit_flash, State.setLock_flash]
    rw [this, progUnitBytes_byte _ _ _ _ (Nat.mod_lt _ (by omega)), div_mod_split, if_neg (by omega)]
    simp
  · intro a ha
    rw [programCalls_length] at ha
    simpa using hk a (by simpa using ha)

theorem runWrite_refuse {offset : Nat} {data : List Byte} {k : Nat} {c : Nat × List Byte}
    (hr : offset + data.length ≤ s.params.appMaxSize.toNat) (hd : 0 < data.length)
    (hc : (programCalls s.params offset data)[k]? = some c) (h : s.RefusesAt k) :
    ∃ u, runWrite offset data s = .done false u ∧ ProgrammedUpTo s u offset data k c := by
  have hP := Platform.progUnit_pos s
  have hhi := appHi_le s
  have hkU : k < (data.length + s.params.progUnit - 1) / s.params.progUnit := by
    rw [← programCalls_length s.params offset]
    exact (List.getElem?_eq_some_iff.mp hc).1
  have hkP : k * s.params.progUnit ≤ data.length := by
    have := (Nat.le_div_iff_mul_le (show 0 < s.params.progUnit by omega)).mp hkU
    rw [Nat.succ_mul] at this; omega
  have hc' := hc
  rw [programCalls_eq] at hc'
  obtain ⟨f, d, hf, hb, hkept⟩ := programUnits_refuse (s.params.appLo + offset) s.params.progUnit hP
    (progUnitBytes s.params data) (progUnitBytes_length s.params data) _ 0 k c
    ((s.setLock .unlocked).emit .flashUnlock) hc' ⟨by simpa using h.1, by simpa using h.2⟩
  rw [← programCalls_eq] at hf
  have hrun := bracketed_done h.1 hf (by simpa using h.1)
  refine ⟨_, by simp only [runWrite, inRange, hr, decide_true, if_true, if_neg (Nat.pos_iff_ne_zero.mp hd)]; exact hrun,
    ⟨?_, ?_, ?_⟩⟩
  · simp [State.emit, State.setLock]
  · intro i hi
    have := hb (s.params.appLo + offset + i) (by simp only [Params.appHi, Params.appLo] at *; omega) (by omega)
      (by simp only [Nat.zero_add]; omega)
    simp only [State.emit_flash, State.setLock_flash]
    rw [this, Nat.add_sub_cancel_left, progUnitBytes_byte _ _ _ _ (Nat.mod_lt _ (by omega)), div_mod_split,
      if_pos (by omega)]
    simp
  · intro a ha
    simpa using hkept a (by simpa using ha)

/-! ## Verify -/

theorem memReadByte_plain (h : s.landings = []) (a : Nat) :
    memReadByte a s = .done (s.flash.read a) (s.emit (.memRead a 1 (some [s.flash.read a]))) := by
  simp [memReadByte, atCall_plain h]

theorem byteAt_succ (d : Byte) (ds : List Byte) (i : Nat) : byteAt (d :: ds) (i + 1) = byteAt ds i := rfl

theorem State.holds_cons {a : Nat} {d : Byte} {ds : List Byte} :
    s.Holds a (d :: ds) ↔ s.flash.read a = d ∧ s.Holds (a + 1) ds := by
  constructor
  · intro h
    refine ⟨h 0 (by simp), fun i hi => ?_⟩
    have := h (i + 1) (by simpa using hi)
    rw [byteAt_succ] at this
    rw [← this]; congr 1; omega
  · rintro ⟨h1, h2⟩ i hi
    cases i with
    | zero => exact h1
    | succ i =>
      rw [byteAt_succ, ← h2 i (by simpa using hi)]; congr 1; omega

theorem compareReads_cons (a : Nat) (d : Byte) (ds : List Byte) :
    compareReads a (d :: ds) = .memRead a 1 (some [d]) :: compareReads (a + 1) ds := by
  simp only [compareReads, List.length_cons, List.range_succ_eq_map, List.map_cons, List.map_map, Nat.add_zero]
  congr 1
  apply List.map_congr_left
  intro i _
  simp only [Function.comp, byteAt_succ, Nat.succ_eq_add_one]
  congr 1
  omega

/-- A comparison answers whether flash holds the bytes, and changes nothing but the trace. -/
theorem compareFlash_done (ds : List Byte) (a : Nat) (s : State) (h : s.landings = []) :
    ∃ (b : Bool) (es : List Event), compareFlash a ds s = .done b { s with trace := s.trace ++ es } ∧
      (b = true ↔ s.Holds a ds) ∧ (b = true → es = compareReads a ds) ∧
      ∀ e ∈ es, ∃ x v, e = .memRead x 1 (some [v]) := by
  induction ds generalizing a s with
  | nil => exact ⟨true, [], by simp [compareFlash], by simp [State.Holds], by simp [compareReads], by simp⟩
  | cons d ds ih =>
    simp only [compareFlash, memReadByte_plain h, Run.bind_done]
    by_cases hd : s.flash.read a = d
    · obtain ⟨b, es, hr, hb, he, hes⟩ := ih (a + 1) (s.emit (.memRead a 1 (some [s.flash.read a]))) (by simpa using h)
      refine ⟨b, .memRead a 1 (some [d]) :: es, ?_, ?_, ?_, ?_⟩
      · rw [if_pos hd, hr]; simp [State.emit, hd]
      · rw [hb, State.holds_cons]
        simp [State.Holds, hd]
      · intro hbt; rw [he hbt, compareReads_cons]
      · simpa using hes
    · refine ⟨false, [.memRead a 1 (some [s.flash.read a])], ?_, ?_, by simp, by simp⟩
      · rw [if_neg hd]; simp [State.emit]
      · simp [State.holds_cons, hd]

/-- A comparison that finds a difference has read each byte up to the first that differs. -/
theorem compareFlash_differs (ds : List Byte) (a : Nat) (s : State) (h : s.landings = []) {k : Nat} (hk : k < ds.length)
    (heq : s.Holds a (ds.take k)) (hne : s.flash.read (a + k) ≠ byteAt ds k) :
    compareFlash a ds s = .done false { s with
      trace := s.trace ++ (compareReads a (ds.take k) ++ [.memRead (a + k) 1 (some [s.flash.read (a + k)])]) } := by
  induction k generalizing a s ds with
  | zero =>
    cases ds with
    | nil => simp at hk
    | cons d ds =>
      have hne' : s.flash.read a ≠ d := hne
      simp [compareFlash, memReadByte_plain h, hne', State.emit, compareReads]
  | succ k ih =>
    cases ds with
    | nil => simp at hk
    | cons d ds =>
      rw [List.take_succ_cons, State.holds_cons] at heq
      rw [byteAt_succ] at hne
      have hnext := ih ds (a + 1) (s.emit (.memRead a 1 (some [s.flash.read a]))) (by simpa using h) (by simpa using hk)
        (by simpa [State.Holds] using heq.2) (by rwa [State.emit_flash, Nat.add_right_comm, Nat.add_assoc])
      simp only [compareFlash, memReadByte_plain h, Run.bind_done, heq.1, if_true, List.take_succ_cons, compareReads_cons]
      rw [heq.1] at hnext
      rw [hnext]
      simp [State.emit, Nat.add_comm, Nat.add_left_comm]

theorem runVerify_done (offset : Nat) (data : List Byte) (h : s.landings = []) :
    ∃ (b : Bool) (es : List Event), runVerify offset data s = .done b { s with trace := s.trace ++ es } ∧
      (b = true ↔ offset + data.length ≤ s.params.appMaxSize.toNat ∧ s.Holds (s.params.appLo + offset) data) ∧
      (s.params.appMaxSize.toNat < offset + data.length → es = []) ∧
      (b = true → es = compareReads (s.params.appLo + offset) data) ∧
      ∀ e ∈ es, ∃ x v, e = .memRead x 1 (some [v]) := by
  by_cases hr : offset + data.length ≤ s.params.appMaxSize.toNat
  · obtain ⟨b, es, hrun, hb, he, hes⟩ := compareFlash_done data (s.params.appLo + offset) s h
    refine ⟨b, es, ?_, by simp [hb, hr], by omega, he, hes⟩
    simp [runVerify, inRange, hr, hrun]
  · exact ⟨false, [], by simp [runVerify, inRange, hr], by simp [hr], by simp, by simp, by simp⟩

/-! ## The vector table and the jump -/

theorem memReadWord_ok {a : Nat} (h : s.landings = []) (ha : a + 4 ≤ Config.addressSpace) (hans : s.answer = .ok) :
    memReadWord a s = .done (some (s.word a)) (s.drawn.emit (.memRead a 4 (some (s.bytes4 a)))) := by
  simp [memReadWord, atCall_plain h, ha, hans]

theorem memReadWord_fault {a : Nat} (h : s.landings = []) (hans : ¬ a + 4 ≤ Config.addressSpace ∨ s.answer = .fail) :
    memReadWord a s = .done none (s.drawn.emit (.memRead a 4 none)) := by
  simp only [memReadWord, atCall_plain h]
  rw [if_neg]
  rintro ⟨h1, h2⟩
  rcases hans with h3 | h3
  · exact h3 h1
  · rw [h2] at h3; cases h3

theorem State.drawn_answer_of_accepts (h : s.Accepts 2) : s.drawn.answer = .ok :=
  State.Accepts.answer (s := s.drawn) (n := 0) ⟨by simpa using h.1, by simpa using h.tail⟩

theorem State.emit_drawn_answer (e : Event) : (s.drawn.emit e).answer = s.drawn.answer := rfl

theorem readVectorTable_ok (h : s.landings = []) (hm : VectorsMapped s.params) (h1 : s.answer = .ok)
    (h2 : s.drawn.answer = .ok) : readVectorTable s = .done (some s.vectorTable) s.afterVectorReads := by
  simp only [VectorsMapped] at hm
  unfold readVectorTable
  rw [memReadWord_ok h (by omega) h1]
  simp only [Run.bind_done, State.emit_params, State.drawn_params]
  rw [memReadWord_ok (s := s.drawn.emit _) h (by omega) h2]
  simp [State.vectorTable, State.word, State.bytes4, State.afterVectorReads, State.emit, State.drawn,
    State.setAnswers, State.setDraws, ← List.drop_one]

theorem readVectorTable_fault (h : s.landings = []) (h12 : s.answer = .fail ∨ s.drawn.answer = .fail) :
    ∃ (l : List Answer) (d : Nat) (es : List Event), readVectorTable s = .done none { s with
      trace := s.trace ++ es, answers := l, draws := d } ∧ ∀ e ∈ es, ∃ a r, e = .memRead a 4 r := by
  unfold readVectorTable
  by_cases hok : s.params.appLo + 4 ≤ Config.addressSpace ∧ s.answer = .ok
  · rw [memReadWord_ok h hok.1 hok.2]
    have h2 : s.drawn.answer = .fail := by
      rcases h12 with h1 | h2
      · rw [hok.2] at h1; cases h1
      · exact h2
    simp only [Run.bind_done]
    rw [memReadWord_fault (s := s.drawn.emit _) h (.inr h2)]
    refine ⟨s.answers.tail.tail, s.draws + 2, [.memRead s.params.appLo 4 (some (s.bytes4 s.params.appLo)),
      .memRead (s.params.appLo + 4) 4 none], ?_, by simp⟩
    simp [State.emit, State.drawn, State.setAnswers, State.setDraws, State.params]
  · rw [memReadWord_fault h (by
      rcases Answer.rec (motive := fun a => a = .ok ∨ a = .fail) (.inl rfl) (.inr rfl) s.answer with h1 | h1
      · exact .inl fun h2 => hok ⟨h2, h1⟩
      · exact .inr h1)]
    exact ⟨s.answers.tail, s.draws + 1, [.memRead s.params.appLo 4 none], rfl, by simp⟩

/-- With nothing waiting to land the table is read, or a read faults; nothing but trace and draws changes. -/
theorem readVectorTable_any (h : s.landings = []) :
    ∃ (v : Option VectorTable) (l : List Answer) (d : Nat) (es : List Event), readVectorTable s = .done v { s with
      trace := s.trace ++ es, answers := l, draws := d } ∧ (∀ e ∈ es, ∃ a r, e = .memRead a 4 r) ∧
      ∀ w, v = some w → w = s.vectorTable := by
  have key : ∃ (v : Option VectorTable) (l : List Answer) (d : Nat) (es : List Event), readVectorTable s = .done v { s with
      trace := s.trace ++ es, answers := l, draws := d } ∧ (∀ e ∈ es, ∃ a r, e = .memRead a 4 r) := by
    by_cases h1 : s.answer = .ok
    · by_cases h2 : s.drawn.answer = .ok
      · by_cases hm : VectorsMapped s.params
        · exact ⟨_, s.answers.drop 2, s.draws + 2, _, readVectorTable_ok h hm h1 h2, by simp⟩
        · simp only [VectorsMapped] at hm
          unfold readVectorTable
          by_cases hm1 : s.params.appLo + 4 ≤ Config.addressSpace
          · rw [memReadWord_ok h hm1 h1]
            simp only [Run.bind_done]
            rw [memReadWord_fault (s := s.drawn.emit _) h
              (.inl (by simp only [State.emit_params, State.drawn_params]; omega))]
            refine ⟨none, s.answers.tail.tail, s.draws + 2, [.memRead s.params.appLo 4 (some (s.bytes4 s.params.appLo)),
              .memRead (s.params.appLo + 4) 4 none], ?_, by simp⟩
            simp [State.emit, State.drawn, State.setAnswers, State.setDraws, State.params]
          · rw [memReadWord_fault h (.inl hm1)]
            exact ⟨none, s.answers.tail, s.draws + 1, [.memRead s.params.appLo 4 none], rfl, by simp⟩
      · obtain ⟨l, d, es, hr, he⟩ := readVectorTable_fault h (.inr (by cases h3 : s.drawn.answer <;> simp_all))
        exact ⟨none, l, d, es, hr, he⟩
    · obtain ⟨l, d, es, hr, he⟩ := readVectorTable_fault h (.inl (by cases h3 : s.answer <;> simp_all))
      exact ⟨none, l, d, es, hr, he⟩
  obtain ⟨v, l, d, es, hr, he⟩ := key
  exact ⟨v, l, d, es, hr, he, fun w hw => readVectorTable_value (hw ▸ hr)⟩

theorem voidCall_plain (h : s.landings = []) (e : Event) (f : State → State) :
    voidCall e f s = .done () ((f s).emit e) := by simp [voidCall, atCall_plain h]

theorem maskedCall_plain (h : s.landings = []) (e : Event) (f : State → State) :
    maskedCall e f s = .done () ((f s).emit e) := by simp [maskedCall, atMaskedCall_plain h]

theorem runJump_valid (h : s.Accepts 2) (hm : VectorsMapped s.params)
    (hv : validTable s.params s.vectorTable = true) :
    runJump s = .done true (s.afterVectorReads.afterJump s.vectorTable) := by
  have hc := h.1
  have hv' : validTable s.afterVectorReads.params s.vectorTable = true := hv
  simp only [runJump, readVectorTable_ok hc hm h.answer (State.drawn_answer_of_accepts h), Run.bind_done, hv', if_true]
  simp [jumpCalls, voidCall_plain, maskedCall_plain, State.afterVectorReads, hc, State.afterJump, State.emit, State.setMode,
    State.params]

theorem runJump_invalid (h : s.Accepts 2) (hm : VectorsMapped s.params)
    (hv : validTable s.params s.vectorTable = false) : runJump s = .done false s.afterVectorReads := by
  have hv' : validTable s.afterVectorReads.params s.vectorTable = false := hv
  simp [runJump, readVectorTable_ok h.1 hm h.answer (State.drawn_answer_of_accepts h), hv']

theorem runCheck_ok (h : s.landings = []) (hm : VectorsMapped s.params) (h1 : s.answer = .ok)
    (h2 : s.drawn.answer = .ok) : runCheck s = .done (validTable s.params s.vectorTable) s.afterVectorReads := by
  simp only [runCheck, readVectorTable_ok h hm h1 h2, Run.bind_done]
  rfl

end Sys2Proof.Machine
end

