-- ==== Sys2Proof/Laws/Exec.lean ====
section
/-! SUPPORT. Everything an instruction can do to the state, said once: it runs and the state has moved, a reset has landed
inside it, it was the request for a reset, or it was the boot decision. -/

namespace Sys2Proof.Machine

variable {α : Type} {s t m : State}

/-- What nothing changes: the configuration, the canonical form of memory, and flash outside the block's reach. -/
structure Kept (s t : State) : Prop where
  platform : t.platform = s.platform
  wf : s.flash.wf → t.flash.wf
  outside : ∀ a, ¬ Touchable s.params a → t.flash.read a = s.flash.read a

/-- What an instruction that runs to its end can change, the boot decision and the request for a reset apart. -/
structure Moved (s t : State) : Prop extends Kept s t where
  bounds : s.RxBounds → t.RxBounds
  lock : s.flashLock = .locked → t.flashLock = .locked
  reason : t.entryReason = s.entryReason
  pflag : t.pflag = s.pflag
  mode : t.mode = s.mode ∨ (s.mode ≠ .boot ∧ (t.mode = .settle ∨ t.mode = .bootloader)) ∨
    (s.mode ≠ .boot ∧ t.mode = .jumped ∧ validTable s.params s.vectorTable = true ∧ t.flash = s.flash)

/-- The boot decision run to its end (R230, R232). -/
structure Booted (s t : State) : Prop where
  platform : t.platform = s.platform
  flash : t.flash = s.flash
  bounds : s.RxBounds → t.RxBounds
  lock : t.flashLock = s.flashLock
  reason : t.entryReason ≠ none
  pflag : t.pflag = s.pflag ∨ s.pflag = s.params.magic ∧ t.pflag = s.params.magicClear
  mode : t.mode = .bootloader ∨ (t.mode = .jumped ∧ validTable s.params s.vectorTable = true)

theorem Kept.refl (s : State) : Kept s s := ⟨rfl, id, fun _ _ => rfl⟩

theorem Moved.refl (s : State) : Moved s s :=
  { Kept.refl s with bounds := id, lock := id, reason := rfl, pflag := rfl, mode := .inl rfl }

theorem Quiet.kept (h : Quiet s t) : Kept s t := ⟨h.platform, h.wf, h.outside⟩

theorem Quiet.moved (h : Quiet s t) (hl : s.flashLock = .locked → t.flashLock = .locked) : Moved s t :=
  { h.kept with bounds := h.bounds, lock := hl, reason := h.entryReason, pflag := h.pflag, mode := .inl h.mode }

theorem Still.moved (h : Still s t) : Moved s t := h.toQuiet.moved fun hl => h.lock.trans hl

theorem Jumping.kept (h : Jumping s t) : Kept s t where
  platform := h.platform
  wf hw := by rw [h.flash]; exact hw
  outside a _ := by rw [h.flash]

theorem Jumping.bounds (h : Jumping s t) (hb : s.RxBounds) : t.RxBounds :=
  h.still.bounds (hb.of_eq rfl rfl rfl)

/-- A state that moved and then had its status, its answer or its mode written. -/
theorem Moved.setStatus (h : Moved s t) (v : SvcStatus) : Moved s (t.setStatus v) :=
  { platform := h.platform, wf := h.wf, outside := h.outside
    bounds := fun hb => ⟨(h.bounds hb).1, (h.bounds hb).2, (h.bounds hb).3⟩
    lock := h.lock, reason := h.reason, pflag := h.pflag, mode := h.mode }

theorem Moved.setResult (h : Moved s t) (v : OpResult) : Moved s (t.setResult v) :=
  { platform := h.platform, wf := h.wf, outside := h.outside
    bounds := fun hb => ⟨(h.bounds hb).1, (h.bounds hb).2, (h.bounds hb).3⟩
    lock := h.lock, reason := h.reason, pflag := h.pflag, mode := h.mode }

theorem Moved.setMode (h : Moved s t) {v : Mode} (hs : s.mode ≠ .boot) (hv : v = .settle ∨ v = .bootloader) :
    Moved s (t.setMode v) :=
  { platform := h.platform, wf := h.wf, outside := h.outside
    bounds := fun hb => ⟨(h.bounds hb).1, (h.bounds hb).2, (h.bounds hb).3⟩
    lock := h.lock, reason := h.reason, pflag := h.pflag, mode := .inr (.inl ⟨hs, hv⟩) }

/-- A reset or `request_entry` waiting in `s` has landed in a state that kept what is kept, with the flag as it was (R280,
R233). -/
def LandedReset (s t : State) : Prop := ∃ m, Kept s m ∧ m.pflag = s.pflag ∧ Landed s m t

/-- An instruction other than the boot decision and the request for a reset moves the state, or a reset lands in it. -/
def Ran (s t : State) : Prop := Moved s t ∨ LandedReset s t

/-- From what a run of an operation can do to what the instruction around it does. -/
theorem Run.Ends.ran {R : State → State → Prop} {r : Run α} {f : α → State → State} (h : r.Ends R s)
    (hcut : ∀ m, R s m → Kept s m ∧ m.pflag = s.pflag) (hdone : ∀ a t, r = .done a t → R s t → Moved s (f a t)) :
    Ran s (r.finish f) := by
  cases hr : r with
  | done a t => rw [hr] at h; exact .inl (hdone a t hr h)
  | cut t =>
    rw [hr] at h
    obtain ⟨m, hR, ht⟩ := h
    exact .inr ⟨m, (hcut m hR).1, (hcut m hR).2, ht⟩

theorem Run.Ends.ran_quiet {r : Run α} {f : α → State → State} (h : r.Ends Quiet s)
    (hdone : ∀ a t, r = .done a t → Quiet s t → Moved s (f a t)) : Ran s (r.finish f) :=
  h.ran (fun _ q => ⟨q.kept, q.pflag⟩) hdone

theorem Run.Ends.ran_still {r : Run α} {f : α → State → State} (h : r.Ends Still s)
    (hdone : ∀ a t, Still s t → Moved s (f a t)) : Ran s (r.finish f) :=
  h.ran (fun _ q => ⟨q.toQuiet.kept, q.pflag⟩) fun a t _ q => hdone a t q

/-! ## Commands -/

theorem serve_ran {cmd : Byte} {payload : List Byte} {chk : Byte} {body : State → Run SvcStatus}
    (h : s.mode = .bootloader → Ran s ((body s).finish fun st s => s.setStatus st)) :
    Ran s (serve cmd payload chk body s) := by
  unfold serve
  split
  · rename_i hm
    split
    · exact h hm
    · exact (respond_ends _ s).ran_still fun _ t q => q.moved.setStatus _
  · exact .inl (.refl s)

/-- What a command's last part, a response, adds. -/
theorem respond_quiet (r : List Byte) (s : State) : (respond r s).Ends Quiet s := (respond_ends r s).mono fun _ q => q.toQuiet

theorem respond_lock {r : List Byte} {st : SvcStatus} (h : respond r s = .done st t) : t.flashLock = s.flashLock := by
  have := respond_ends r s
  rw [h] at this; exact Still.lock this

theorem runVerify_lock {offset : Nat} {d : List Byte} {b : Bool} (h : runVerify offset d s = .done b t) :
    t.flashLock = s.flashLock := by
  have := runVerify_ends offset d s
  rw [h] at this; exact Still.lock this

theorem writeBlock_ran (dev : DevId) (payload : List Byte) (chk : Byte) (h : execWriteBlock dev payload chk s = .next t) :
    Ran s t := by
  simp only [execWriteBlock, Host.Outcome.next.injEq] at h
  subst h
  refine serve_ran fun _ => ?_
  cases parseWriteBlock payload with
  | none => exact (respond_ends _ s).ran_still fun _ t q => q.moved.setStatus _
  | some od =>
    obtain ⟨offset, data⟩ := od
    refine Run.Ends.ran_quiet ((runWrite_ends offset.toNat data s).bind_quiet fun w t _ _ => ?_) ?_
    · split
      · exact ((runVerify_ends _ _ t).mono fun _ q => q.toQuiet).bind_quiet fun v u _ _ => by
          split <;> exact respond_quiet _ u
      · exact respond_quiet _ t
    · intro st u hu q
      refine (q.moved fun hl => ?_).setStatus st
      cases h1 : runWrite offset.toNat data s with
      | cut _ => simp [h1] at hu
      | done w s1 =>
        have hl1 := runWrite_locks h1 hl
        simp only [h1, Run.bind_done] at hu
        split at hu
        · cases h2 : runVerify offset.toNat data s1 with
          | cut _ => simp [h2] at hu
          | done v s2 =>
            simp only [h2, Run.bind_done] at hu
            rw [← runVerify_lock h2] at hl1
            split at hu
            · exact (respond_lock hu).trans hl1
            · exact (respond_lock hu).trans hl1
        · exact (respond_lock hu).trans hl1

theorem eraseApp_ran (dev : DevId) (payload : List Byte) (chk : Byte) (h : execEraseApp dev payload chk s = .next t) :
    Ran s t := by
  simp only [execEraseApp, Host.Outcome.next.injEq] at h
  subst h
  refine serve_ran fun _ => Run.Ends.ran_quiet ((runErase_ends s).bind_quiet fun w t _ _ => ?_) ?_
  · split <;> exact respond_quiet _ t
  · intro st u hu q
    refine (q.moved fun _ => ?_).setStatus st
    cases h1 : runErase s with
    | cut _ => simp [h1] at hu
    | done w s1 =>
      have hl1 := bracketed_locks h1
      simp only [h1, Run.bind_done] at hu
      split at hu
      · exact (respond_lock hu).trans hl1
      · exact (respond_lock hu).trans hl1

theorem jumpApp_ran (dev : DevId) (payload : List Byte) (chk : Byte) (h : execJumpApp dev payload chk s = .next t) :
    Ran s t := by
  simp only [execJumpApp, Host.Outcome.next.injEq] at h
  subst h
  refine serve_ran fun hm => ?_
  have he := respond_ends (ackMsg 0x05 s.params.appStart) s
  cases hr : respond (ackMsg 0x05 s.params.appStart) s with
  | done st u =>
    rw [hr] at he
    exact .inl (((Still.moved he).setMode (by rw [hm]; decide) (.inl rfl)).setStatus st)
  | cut u =>
    rw [hr] at he
    obtain ⟨m, hR, ht⟩ := he
    exact .inr ⟨m, hR.toQuiet.kept, hR.pflag, ht⟩

/-- A jump, with what it does when it returns. -/
theorem runJump_ran {f : Bool → State → State} (hs : s.mode ≠ .boot) (hrem : ∀ t, Still s t → Moved s (f false t))
    (hgo : ∀ t, f true t = t) : Ran s ((runJump s).finish f) := by
  have he := runJump_ends s
  cases hr : runJump s with
  | cut u =>
    rw [hr] at he
    obtain ⟨m, hR, ht⟩ := he
    exact .inr ⟨m, hR.kept, hR.still.pflag, ht⟩
  | done b u =>
    rw [hr] at he
    have hj : Jumping s u := he
    rcases runJump_done hr with ⟨rfl, hm, hv⟩ | ⟨rfl, hst⟩
    · refine .inl ?_
      simp only [Run.finish_done, hgo]
      exact { hj.kept with
        bounds := hj.bounds
        lock := fun hl => (show u.flashLock = s.flashLock from hj.still.lock).trans hl
        reason := hj.still.toQuiet.entryReason
        pflag := hj.still.toQuiet.pflag
        mode := .inr (.inr ⟨hs, hm, hv, hj.flash⟩) }
    · exact .inl (hrem u hst)

/-! ## Every instruction -/

/-- The boot decision (R232): it runs to its end, or a reset lands inside it, before or after the flag has been cleared. -/
theorem bootStep_cases (hm : s.mode = .boot) (h : execBootStep s = .next t) : Booted s t ∨
    ∃ m, Kept s m ∧ (m.pflag = s.pflag ∨ s.pflag = s.params.magic ∧ m.pflag = s.params.magicClear) ∧ Landed s m t := by
  simp only [execBootStep, hm, if_true, Host.Outcome.next.injEq] at h
  subst h
  have he := runBootEval_ends s
  cases hr : runBootEval s with
  | cut u =>
    rw [hr] at he
    obtain ⟨m, hR, ht⟩ := he
    exact .inr ⟨m, ⟨hR.still.platform, hR.still.wf, hR.still.outside⟩, hR.pflag, ht⟩
  | done r u =>
    rw [hr] at he
    have hR : Still (s.setPflag u.pflag) u := Deciding.still he
    have hp := Deciding.pflag he
    have hpar : u.params = s.params := hR.params
    have hvt : u.vectorTable = s.vectorTable := by
      have h1 : u.flash = s.flash := hR.flash
      simp [State.vectorTable, State.word, h1, hpar]
    have hub : s.RxBounds → u.RxBounds := fun hb => hR.bounds (hb.of_eq rfl rfl rfl)
    simp only [Run.finish_done]
    split
    · exact .inl ⟨hR.platform, hR.flash, fun hb => (hub hb).of_eq rfl rfl rfl, hR.lock, by simp, hp, .inl rfl⟩
    · have hj := runJump_ends (u.setReason (some r))
      cases hr2 : runJump (u.setReason (some r)) with
      | cut w =>
        rw [hr2] at hj
        obtain ⟨m, hj, ht⟩ := hj
        have hf : m.flash = s.flash := hj.flash.trans hR.flash
        refine .inr ⟨m, ⟨hj.platform.trans hR.platform, fun hw => ?_, fun a _ => by rw [hf]⟩, ?_, ht.mono hR.landings⟩
        · rw [hf]; exact hw
        · rw [show m.pflag = u.pflag from hj.still.pflag]; exact hp
      | done b w =>
        rw [hr2] at hj
        have hj : Jumping (u.setReason (some r)) w := hj
        have hplat : w.platform = s.platform := hj.platform.trans hR.platform
        have hf : w.flash = s.flash := hj.flash.trans hR.flash
        have hreason : w.entryReason = some r := hj.still.entryReason
        have hlock : w.flashLock = s.flashLock := hj.still.lock.trans hR.lock
        have hpf : w.pflag = u.pflag := hj.still.pflag
        have hbounds : s.RxBounds → w.RxBounds := fun hb => hj.bounds ((hub hb).of_eq rfl rfl rfl)
        rcases runJump_done hr2 with ⟨rfl, hmode, hv⟩ | ⟨rfl, -⟩
        · refine .inl ⟨hplat, hf, hbounds, hlock, ?_, by rw [← hpf] at hp; exact hp, .inr ⟨hmode, ?_⟩⟩
          · show w.entryReason ≠ none
            rw [hreason]; simp
          · rwa [show (u.setReason (some r)).params = s.params from hpar,
              show (u.setReason (some r)).vectorTable = s.vectorTable from hvt] at hv
        · refine .inl ⟨hplat, hf, fun hb => (hbounds hb).of_eq rfl rfl rfl, hlock, ?_, by rw [← hpf] at hp; exact hp, .inl rfl⟩
          show w.entryReason ≠ none
          rw [hreason]; simp

/-- `request_entry` (R233): the flag holds the sentinel and the soft reset has been made, or a reset landed before the
flag was written. -/
theorem requestEntry_cases (h : execRequestEntry s = .next t) :
    (∃ m, Kept s m ∧ m.pflag = s.params.magic ∧ t = m.afterReset .soft) ∨ LandedReset s t := by
  simp only [execRequestEntry, Host.Outcome.next.injEq] at h
  subst h
  cases hr : writeFlag s.params.magic s with
  | done a u =>
    obtain ⟨m, hm, hf⟩ := atCall_done hr
    simp only [Run.done.injEq] at hf
    refine .inl ⟨u.emit .systemReset, ?_, ?_, rfl⟩
    · rw [← hf.2]; exact ⟨hm.platform, hm.wf, hm.outside⟩
    · rw [← hf.2]; rfl
  | cut u =>
    obtain ⟨m, hm, d, hl⟩ := land_cut (fun m => ⟨_, _, rfl⟩) _ (fun _ => id) s (.refl s) hr
    have : (if d then id m else m) = m := by cases d <;> rfl
    rw [this] at hl
    exact .inr ⟨m, hm.toQuiet.kept, hm.pflag, hl⟩

/-- Every other instruction moves the state, or a reset lands in it. In mode BOOT no jump is called directly. -/
theorem exec_ran {i : Instr} (h : exec i s = .next t) (hb : s.mode = .boot → i ≠ .bootStep ∧ i ≠ .jumpToApplication)
    (hr : i ≠ .requestEntry) :
    Ran s t := by
  cases i with
  | rxCin4 cable b0 b1 b2 =>
    simp only [exec, execRxCin4, Host.Outcome.next.injEq] at h; subst h
    exact .inl (receive_still fun _ => acceptCin4_still ..).moved
  | rxCin5 cable b0 b1 b2 =>
    simp only [exec, execRxCin5, Host.Outcome.next.injEq] at h; subst h
    exact .inl (receive_still fun _ => acceptCin5_still ..).moved
  | rxCin6 cable b0 b1 b2 =>
    simp only [exec, execRxCin6, Host.Outcome.next.injEq] at h; subst h
    exact .inl (receive_still fun _ => acceptCin6_still ..).moved
  | rxCin7 cable b0 b1 b2 =>
    simp only [exec, execRxCin7, Host.Outcome.next.injEq] at h; subst h
    exact .inl (receive_still fun _ => acceptCin7_still ..).moved
  | rxOther03 cable cin b0 b1 b2 =>
    simp only [exec, execRxOther03, Host.Outcome.next.injEq] at h; subst h
    exact .inl (receive_still fun s => .refl s).moved
  | rxOther8F cable cin b0 b1 b2 =>
    simp only [exec, execRxOther8F, Host.Outcome.next.injEq] at h; subst h
    exact .inl (receive_still fun s => .refl s).moved
  | query dev payload chk =>
    simp only [exec, execQuery, Host.Outcome.next.injEq] at h; subst h
    exact serve_ran fun _ => (respond_ends _ s).ran_still fun _ t q => q.moved.setStatus _
  | writeBlock dev payload chk => exact writeBlock_ran dev payload chk h
  | eraseApp dev payload chk => exact eraseApp_ran dev payload chk h
  | jumpApp dev payload chk => exact jumpApp_ran dev payload chk h
  | unknownCmd dev cmd payload chk =>
    simp only [exec, execUnknownCmd, Host.Outcome.next.injEq] at h; subst h
    exact serve_ran fun _ => (respond_ends _ s).ran_still fun _ t q => q.moved.setStatus _
  | ack cmd v =>
    simp only [exec, execAck, Host.Outcome.next.injEq] at h; subst h
    exact (respond_ends _ s).ran_still fun _ t q => q.moved.setStatus _
  | error cmd code =>
    simp only [exec, execError] at h
    split at h
    · cases h
    · simp only [Host.Outcome.next.injEq] at h; subst h
      exact (respond_ends _ s).ran_still fun _ t q => q.moved.setStatus _
  | info =>
    simp only [exec, execInfo, Host.Outcome.next.injEq] at h; subst h
    exact (respond_ends _ s).ran_still fun _ t q => q.moved.setStatus _
  | sendSysex data cable =>
    simp only [exec, execSendSysex, Host.Outcome.next.injEq] at h; subst h
    exact (runSendSysex_ends data cable s).ran_still fun _ t q => q.moved.setResult _
  | eraseApplication =>
    simp only [exec, execEraseApplication, Host.Outcome.next.injEq] at h; subst h
    exact (runErase_ends s).ran_quiet fun _ t hd q => (q.moved fun _ => bracketed_locks hd).setResult _
  | writeFlash offset data len =>
    simp only [exec, execWriteFlash, Host.Outcome.next.injEq] at h; subst h
    exact (runWrite_ends _ _ s).ran_quiet fun _ t hd q => (q.moved fun hl => runWrite_locks hd hl).setResult _
  | verifyFlash offset data len =>
    simp only [exec, execVerifyFlash, Host.Outcome.next.injEq] at h; subst h
    exact (runVerify_ends _ _ s).ran_still fun _ t q => q.moved.setResult _
  | crc32 data len =>
    simp only [exec, execCrc32, Host.Outcome.next.injEq] at h; subst h
    exact .inl ((Moved.refl s).setResult _)
  | checkApplication =>
    simp only [exec, execCheckApplication, Host.Outcome.next.injEq] at h; subst h
    exact (runCheck_ends s).ran_still fun _ t q => q.moved.setResult _
  | jumpToApplication =>
    simp only [exec, execJumpToApplication, Host.Outcome.next.injEq] at h; subst h
    exact runJump_ran (fun hm => (hb hm).2 rfl) (fun t q => q.moved.setResult _) fun t => rfl
  | bootStep =>
    simp only [exec, execBootStep, if_neg fun hm => (hb hm).1 rfl, Host.Outcome.next.injEq] at h; subst h
    exact .inl (.refl s)
  | requestEntry => exact absurd rfl hr
  | settleDone =>
    simp only [exec, execSettleDone, Host.Outcome.next.injEq] at h; subst h
    split
    · rename_i hm
      have hs : s.mode ≠ .boot := by rw [hm]; decide
      exact runJump_ran hs (fun t q => q.moved.setMode hs (.inr rfl)) fun t => rfl
    · exact .inl (.refl s)

end Sys2Proof.Machine
end

