-- ==== Sys2Proof/Laws/PerInstr.lean ====
section
/-! SUPPORT. Per instruction: how long its encoding is. Statements for all instructions are made one lemma at a time. -/

namespace Sys2Proof.Laws.EncodedLength

open Sys2Proof Sys2Proof.Machine

/-- What an instruction's format says of its encoding, under any configuration: a packet is 4 bytes (R80), a well-formed
request 8 to 256 bytes (R86), a response 10, 14 or 21 bytes (R99 to R101), and an internal operation has none. -/
def Statement (i : Instr) : Prop :=
  i.wf = true → ∀ p : Params,
    match i.format with
    | .packet => ∃ bs, encode p i = some bs ∧ bs.length = 4
    | .request => ∃ bs, encode p i = some bs ∧ 8 ≤ bs.length ∧ bs.length ≤ 256
    | .response => ∃ bs, encode p i = some bs ∧ (bs.length = 10 ∨ bs.length = 14 ∨ bs.length = 21)
    | .internal => encode p i = none

/-- A request with a payload that fits is 8 to 256 bytes long. -/
theorem request_length {dev sel : Byte} {payload : List Byte} {chk : Byte} (h : payload.length ≤ maxPayload) :
    ∃ bs, some (layout dev sel payload chk) = some bs ∧ 8 ≤ bs.length ∧ bs.length ≤ 256 := by
  refine ⟨_, rfl, ?_⟩
  rw [layout_length]
  simp only [maxPayload, Config.sysexMax, Config.minMsg] at h
  omega

theorem rxCin4 (cable : BitVec 4) (b0 : Byte) (b1 : Byte) (b2 : Byte) : Statement (.rxCin4 cable b0 b1 b2) :=
  fun _ _ => ⟨_, rfl, rfl⟩

theorem rxCin5 (cable : BitVec 4) (b0 : Byte) (b1 : Byte) (b2 : Byte) : Statement (.rxCin5 cable b0 b1 b2) :=
  fun _ _ => ⟨_, rfl, rfl⟩

theorem rxCin6 (cable : BitVec 4) (b0 : Byte) (b1 : Byte) (b2 : Byte) : Statement (.rxCin6 cable b0 b1 b2) :=
  fun _ _ => ⟨_, rfl, rfl⟩

theorem rxCin7 (cable : BitVec 4) (b0 : Byte) (b1 : Byte) (b2 : Byte) : Statement (.rxCin7 cable b0 b1 b2) :=
  fun _ _ => ⟨_, rfl, rfl⟩

theorem rxOther03 (cable : BitVec 4) (cin : BitVec 2) (b0 : Byte) (b1 : Byte) (b2 : Byte) : Statement (.rxOther03 cable cin b0 b1 b2) :=
  fun _ _ => ⟨_, rfl, rfl⟩

theorem rxOther8F (cable : BitVec 4) (cin : BitVec 3) (b0 : Byte) (b1 : Byte) (b2 : Byte) : Statement (.rxOther8F cable cin b0 b1 b2) :=
  fun _ _ => ⟨_, rfl, rfl⟩

theorem query (dev : DevId) (payload : List Byte) (chk : Byte) : Statement (.query dev payload chk) :=
  fun h _ => request_length (of_decide_eq_true h)

theorem writeBlock (dev : DevId) (payload : List Byte) (chk : Byte) : Statement (.writeBlock dev payload chk) :=
  fun h _ => request_length (of_decide_eq_true h)

theorem eraseApp (dev : DevId) (payload : List Byte) (chk : Byte) : Statement (.eraseApp dev payload chk) :=
  fun h _ => request_length (of_decide_eq_true h)

theorem jumpApp (dev : DevId) (payload : List Byte) (chk : Byte) : Statement (.jumpApp dev payload chk) :=
  fun h _ => request_length (of_decide_eq_true h)

theorem unknownCmd (dev : DevId) (cmd : Byte) (payload : List Byte) (chk : Byte) : Statement (.unknownCmd dev cmd payload chk) :=
  fun h _ => request_length (by simp only [Instr.wf, Bool.and_eq_true] at h; exact of_decide_eq_true h.2)

theorem ack (cmd : Byte) (value : Word) : Statement (.ack cmd value) :=
  fun _ _ => ⟨_, rfl, .inr (.inl rfl)⟩

theorem error (cmd : Byte) (code : ErrorCode) : Statement (.error cmd code) :=
  fun _ _ => ⟨_, rfl, .inl rfl⟩

theorem info : Statement (.info) :=
  fun _ _ => ⟨_, rfl, .inr (.inr rfl)⟩

theorem sendSysex (data : List Byte) (cable : Nat) : Statement (.sendSysex data cable) :=
  fun _ _ => rfl

theorem eraseApplication : Statement (.eraseApplication) :=
  fun _ _ => rfl

theorem writeFlash (offset : Word) (data : List Byte) (len : Word) : Statement (.writeFlash offset data len) :=
  fun _ _ => rfl

theorem verifyFlash (offset : Word) (data : List Byte) (len : Word) : Statement (.verifyFlash offset data len) :=
  fun _ _ => rfl

theorem crc32 (data : List Byte) (len : Word) : Statement (.crc32 data len) :=
  fun _ _ => rfl

theorem checkApplication : Statement (.checkApplication) :=
  fun _ _ => rfl

theorem jumpToApplication : Statement (.jumpToApplication) :=
  fun _ _ => rfl

theorem bootStep : Statement (.bootStep) :=
  fun _ _ => rfl

theorem requestEntry : Statement (.requestEntry) :=
  fun _ _ => rfl

theorem settleDone : Statement (.settleDone) :=
  fun _ _ => rfl

end Sys2Proof.Laws.EncodedLength
end

