-- ==== Sys2Proof/Laws/Receive.lean ====
section
/-! SUPPORT. Reception: what appending several bytes leaves, below the capacity and at it (R135). -/

namespace Sys2Proof.Machine

variable {s : State}

theorem append_of_lt {b : Byte} (h : s.rxBuf.length < Config.sysexMax) : append b s = s.setRxBuf (s.rxBuf ++ [b]) := by
  simp [append, h]

theorem append_of_full {b : Byte} (h : ¬ s.rxBuf.length < Config.sysexMax) : append b s = s := by simp [append, h]

/-- One byte appended: the buffer is cut at its capacity. -/
theorem append_eq_take (b : Byte) (h : s.rxBuf.length ≤ Config.sysexMax) :
    append b s = s.setRxBuf ((s.rxBuf ++ [b]).take Config.sysexMax) := by
  unfold append Config.sysexMax at *
  split
  · rw [List.take_of_length_le (by simp; omega)]
  · rw [List.take_append_of_le_length (by omega), List.take_of_length_le (by omega)]; rfl

/-- Appending a byte to what a longer buffer was cut to is cutting once. -/
theorem take_append_take (l : List Byte) (b : Byte) (n : Nat) : (l.take n ++ [b]).take n = (l ++ [b]).take n := by
  by_cases hl : l.length ≤ n
  · rw [List.take_of_length_le hl]
  · rw [List.take_append_of_le_length (by simp; omega), List.take_append_of_le_length (by omega), List.take_take]; simp

theorem append_append_eq_take (b c : Byte) (h : s.rxBuf.length ≤ Config.sysexMax) :
    append c (append b s) = s.setRxBuf ((s.rxBuf ++ [b, c]).take Config.sysexMax) := by
  rw [append_eq_take b h, append_eq_take c (by simp)]
  simp only [State.setRxBuf, State.mk.injEq, and_true, true_and]
  rw [show s.rxBuf ++ [b, c] = (s.rxBuf ++ [b]) ++ [c] by simp, take_append_take]

theorem append_append_append_eq_take (b c d : Byte) (h : s.rxBuf.length ≤ Config.sysexMax) :
    append d (append c (append b s)) = s.setRxBuf ((s.rxBuf ++ [b, c, d]).take Config.sysexMax) := by
  rw [append_append_eq_take b c h, append_eq_take d (by simp)]
  simp only [State.setRxBuf, State.mk.injEq, and_true, true_and]
  rw [show s.rxBuf ++ [b, c, d] = (s.rxBuf ++ [b, c]) ++ [d] by simp, take_append_take]

/-- A completed message is queued where there is room, and dropped otherwise (R136). -/
theorem complete_eq (s : State) : complete s = { s with
    rxBuf := []
    msgQ := if s.msgQ.length < s.params.queueDepth then s.msgQ ++ [s.rxBuf] else s.msgQ } := by
  unfold complete
  split <;> rfl

end Sys2Proof.Machine
end

