-- ==== Sys2Proof/Laws/Step.lean ====
section
/-! SUPPORT. Everything a step can do, said once: it prepares a state, runs one instruction in it or none, and drops
what found no call to land at. -/

namespace Sys2Proof.Machine

variable {s t u : State}

/-- What taking a turn and dequeuing leave alone: all but the schedule, the queue (which only shrinks) and what waits
to land, which is the turn's own. -/
structure Prepared (s u : State) : Prop where
  platform : u.platform = s.platform
  flash : u.flash = s.flash
  pflag : u.pflag = s.pflag
  reason : u.entryReason = s.entryReason
  mode : u.mode = s.mode
  lock : u.flashLock = s.flashLock
  bounds : s.RxBounds → u.RxBounds
  landings : u.landings = s.landings ∨ ∃ ls, s.turns.head? = some (.own ls) ∧ u.landings = ls

/-- What a step does in the state it prepared. -/
inductive StepDoes (s u t : State) : Prop where
  /-- it runs an instruction; RequestEntry only for its turn or a call of it, and no jump is called in BOOT -/
  | ran (i : Instr) (w : State) (run : exec i u = .next w) (ends : t = w.setLandings [])
      (request : i = .requestEntry → s.turns.head? = some .requestEntry ∨ s.turns.head? = some (.call .requestEntry))
      (noJump : u.mode = .boot → i ≠ .jumpToApplication)
  /-- nothing runs -/
  | idle (ends : t = u.setLandings [])
  /-- a message was ignored -/
  | ignored (ends : t = (u.setStatus .ignored).setLandings [])
  /-- a reset at a step boundary -/
  | reset (k : ResetKind) (turn : s.turns.head? = some (.reset k)) (ends : t = u.afterReset k)

theorem endStep_next {o : Host.Outcome State Fault Refusal} (h : endStep o = .next t) :
    ∃ w, o = .next w ∧ t = w.setLandings [] := by
  cases o with
  | next w => simp only [endStep, Host.Outcome.next.injEq] at h; exact ⟨w, rfl, h.symm⟩
  | fault r => cases r
  | refused r => simp [endStep] at h

/-- No request is RequestEntry. -/
theorem commandOf_ne_requestEntry (d : DevId) (c : Byte) (p : List Byte) (k : Byte) : commandOf d c p k ≠ .requestEntry := by
  unfold commandOf
  split; · simp
  split; · simp
  split; · simp
  split <;> simp

theorem decodeRequest_ne_requestEntry (m : List Byte) : decodeRequest m ≠ .ok .requestEntry := by
  intro h
  simp only [decodeRequest] at h
  split at h; · cases h
  split at h; · cases h
  split at h; · cases h
  split at h; · cases h
  exact commandOf_ne_requestEntry _ _ _ _ (Except.ok.inj h)

theorem decodeResponse_ne_requestEntry (p : Params) (m : List Byte) : decodeResponse p m ≠ .ok .requestEntry := by
  intro h
  simp only [decodeResponse] at h
  (repeat' split at h) <;> cases h

theorem decodePacket_ne (p : Packet) : decodePacket p ≠ .requestEntry ∧ decodePacket p ≠ .jumpToApplication := by
  simp only [decodePacket]
  constructor <;> intro h <;> (repeat' split at h) <;> cases h

/-- The block's own turn: what its own step does. -/
theorem own_does (hp : Prepared s u)
    (h : (match fetchOwn u with
      | .run i v => endStep (exec i v)
      | .idle v => endStep (.next v)
      | .stop r => .refused r) = .next t) : ∃ v, Prepared s v ∧ StepDoes s v t := by
  cases hm : u.mode with
  | boot =>
    simp only [fetchOwn, hm] at h
    obtain ⟨w, hw, ht⟩ := endStep_next h
    exact ⟨u, hp, .ran _ w hw ht (by simp) (by simp)⟩
  | settle =>
    simp only [fetchOwn, hm] at h
    obtain ⟨w, hw, ht⟩ := endStep_next h
    exact ⟨u, hp, .ran _ w hw ht (by simp) (by simp)⟩
  | jumped =>
    simp only [fetchOwn, hm] at h
    obtain ⟨w, hw, ht⟩ := endStep_next h
    cases hw
    exact ⟨u, hp, .idle ht⟩
  | bootloader =>
    cases hq : u.msgQ with
    | nil =>
      simp only [fetchOwn, hm, hq] at h
      obtain ⟨w, hw, ht⟩ := endStep_next h
      cases hw
      exact ⟨u, hp, .idle ht⟩
    | cons m q =>
      have hpq : Prepared s (u.setMsgQ q) := { hp with
        bounds := fun hb => by
          have hb' := hp.bounds hb
          refine ⟨hb'.1, ?_, fun m' hm' => hb'.3 m' (by rw [hq]; exact List.mem_cons_of_mem _ hm')⟩
          have := hb'.2; rw [hq] at this
          simp only [State.setMsgQ_msgQ]; exact Nat.le_of_succ_le this }
      cases hd : decode u.params .request m with
      | error r =>
        simp only [fetchOwn, hm, hq, hd] at h
        obtain ⟨w, hw, ht⟩ := endStep_next h
        cases hw
        exact ⟨u.setMsgQ q, hpq, .ignored ht⟩
      | ok i =>
        simp only [fetchOwn, hm, hq, hd] at h
        obtain ⟨w, hw, ht⟩ := endStep_next h
        refine ⟨u.setMsgQ q, hpq, .ran i w hw ht (fun he => ?_) (fun hb => by simp [hm] at hb)⟩
        exact absurd (he ▸ hd) (decodeRequest_ne_requestEntry m)

/-- Every step. -/
theorem step_does (h : step s = .next t) : ∃ v, Prepared s v ∧ StepDoes s v t := by
  unfold step fetch at h
  cases hts : s.turns with
  | nil =>
    rw [hts] at h
    exact own_does ⟨rfl, rfl, rfl, rfl, rfl, rfl, id, .inl rfl⟩ h
  | cons tn rest =>
    rw [hts] at h
    have hp : Prepared s (s.setTurns rest) := ⟨rfl, rfl, rfl, rfl, rfl, rfl, fun hb => ⟨hb.1, hb.2, hb.3⟩, .inl rfl⟩
    cases tn with
    | own c =>
      exact own_does (u := (s.setTurns rest).setLandings c)
        ⟨rfl, rfl, rfl, rfl, rfl, rfl, fun hb => ⟨hb.1, hb.2, hb.3⟩, .inr ⟨c, by simp [hts], rfl⟩⟩ h
    | packet p =>
      obtain ⟨w, hw, ht⟩ := endStep_next h
      exact ⟨_, hp, .ran _ w hw ht (fun he => absurd he (decodePacket_ne p).1) fun _ => (decodePacket_ne p).2⟩
    | requestEntry =>
      obtain ⟨w, hw, ht⟩ := endStep_next h
      exact ⟨_, hp, .ran _ w hw ht (fun _ => .inl (by simp [hts])) (by simp)⟩
    | reset k =>
      obtain ⟨w, hw, ht⟩ := endStep_next h
      cases hw
      exact ⟨_, hp, .reset k (by simp [hts]) (by rw [ht]; cases k <;> rfl)⟩
    | respond m =>
      simp only [fetchTurn, fetchResponse] at h
      by_cases hm : (s.setTurns rest).mode = .bootloader
      · rw [if_pos hm] at h
        cases hd : decode (s.setTurns rest).params .response m with
        | error r => rw [hd] at h; cases r <;> simp at h
        | ok i =>
          rw [hd] at h
          obtain ⟨w, hw, ht⟩ := endStep_next h
          refine ⟨_, hp, .ran i w hw ht (fun he => ?_) fun hb => by rw [hm] at hb; cases hb⟩
          exact absurd (he ▸ hd) (decodeResponse_ne_requestEntry _ m)
      · rw [if_neg hm] at h
        obtain ⟨w, hw, ht⟩ := endStep_next h
        cases hw
        exact ⟨_, hp, .idle ht⟩
    | call i =>
      simp only [fetchTurn, fetchCall] at h
      by_cases hf : i.format = .internal
      · rw [if_pos hf] at h
        by_cases hm : (s.setTurns rest).mode = .bootloader
        · rw [if_pos hm] at h
          obtain ⟨w, hw, ht⟩ := endStep_next h
          exact ⟨_, hp, .ran i w hw ht (fun he => .inr (by simp [hts, he])) fun hb => by rw [hm] at hb; cases hb⟩
        · rw [if_neg hm] at h
          obtain ⟨w, hw, ht⟩ := endStep_next h
          cases hw
          exact ⟨_, hp, .idle ht⟩
      · rw [if_neg hf] at h; cases h

/-- Every instruction: it moves the state, a reset lands in it, it is the boot decision, or it is the request for a
reset. In mode BOOT no jump is called directly. -/
theorem exec_does {i : Instr} (h : exec i s = .next t) (hj : s.mode = .boot → i ≠ .jumpToApplication) :
    Moved s t ∨ LandedReset s t ∨
    (i = .bootStep ∧ s.mode = .boot ∧ (Booted s t ∨ ∃ m, Kept s m ∧
      (m.pflag = s.pflag ∨ s.pflag = s.params.magic ∧ m.pflag = s.params.magicClear) ∧ Landed s m t)) ∨
    (i = .requestEntry ∧ ∃ m, Kept s m ∧ m.pflag = s.params.magic ∧ t = m.afterReset .soft) := by
  by_cases hr : i = .requestEntry
  · subst hr
    rcases requestEntry_cases h with h | h
    · exact .inr (.inr (.inr ⟨rfl, h⟩))
    · exact .inr (.inl h)
  by_cases hb : i = .bootStep ∧ s.mode = .boot
  · obtain ⟨rfl, hm⟩ := hb
    exact .inr (.inr (.inl ⟨rfl, hm, bootStep_cases hm h⟩))
  · rcases exec_ran h (fun h1 => ⟨fun h2 => hb ⟨h2, h1⟩, hj h1⟩) hr with h | h
    · exact .inl h
    · exact .inr (.inl h)

theorem Kept.afterReset (h : Kept s t) (k : ResetKind) : Kept s (t.afterReset k) :=
  ⟨by simpa using h.platform, by simpa using h.wf, by simpa using h.outside⟩

end Sys2Proof.Machine
end

