-- ==== Sys2Proof/Tests/Slice0.lean ====
section
/-! SUPPORT. Tests, and for every obligation with hypotheses a witness that meets them. Expected values are from
95_test_vectors.md (its section numbers are cited) or worked out by hand from the rule cited. -/

namespace Sys2Proof.Tests

open Sys2Proof Sys2Proof.Machine

/-! ## Helpers -/

/-- The example platform of 95_test_vectors.md section 0. -/
def platform : Platform := ⟨exampleParams, exampleParams_legal⟩

/-- A bootloader state on the example platform: erased flash, and the environment answers ok 80 times. -/
def start : State :=
  { State.reset with
    platform := platform, mode := .bootloader, entryReason := some .noApp, pflag := 0x12345678
    answers := List.replicate 80 .ok }

/-- Erased flash, but for these bytes from an address. -/
def bytesFrom (a : Nat) (bs : List Byte) : Memory := Memory.overwrite [] a bs.length fun x => byteAt bs (x - a)

/-- The valid image of section 2.13, first row. -/
def image : Memory := bytesFrom 0x08008000 [0x00, 0x00, 0x02, 0x20, 0x01, 0x00, 0x01, 0x08]

/-- The state an outcome goes on in. -/
def next? : Host.Outcome State Fault Refusal → Option State
  | .next s => some s
  | .fault _ => none
  | .refused _ => none

/-- The packets the block got through. -/
def sent (s : State) : List (List Byte) :=
  s.trace.filterMap fun e => match e with | .transmit p (some .ok) => some p.bytes | _ => none

/-- The calls the block made on the flash driver. -/
def flashCalls (s : State) : List Event :=
  s.trace.filter fun e => match e with
    | .flashUnlock => true
    | .flashLock => true
    | .flashEraseSector _ _ => true
    | .flashProgramUnit _ _ _ => true
    | _ => false

/-- What one SVC step on a message sends, and the status it leaves. -/
def reply (s : State) (m : List Byte) : Option (List (List Byte) × SvcStatus) :=
  (next? (step { s with msgQ := [m] })).map fun t => (sent t, t.lastStatus)

/-- `msg_q` and `rx_len` after a packet. -/
def heard (s : State) (p : Packet) : Option (List (List Byte) × Nat) :=
  (next? (exec (decodePacket p) s)).map fun t => (t.msgQ, t.rxLen)

/-! ## Well-formedness: each check refuses an ill-formed instruction -/

/-- A payload one byte too long for a message (R86). -/
def longPayload : List Byte := List.replicate 249 0

theorem test_wf_query : (Instr.query .standard longPayload 0).wf = false := by decide +kernel
theorem test_wf_writeBlock : (Instr.writeBlock .standard longPayload 0).wf = false := by decide +kernel
theorem test_wf_eraseApp : (Instr.eraseApp .standard longPayload 0).wf = false := by decide +kernel
theorem test_wf_jumpApp : (Instr.jumpApp .standard longPayload 0).wf = false := by decide +kernel
theorem test_wf_unknownCmd_length : (Instr.unknownCmd .standard 0x03 longPayload 0).wf = false := by decide +kernel
theorem test_wf_unknownCmd_known : ∀ cmd ∈ ([1, 2, 4, 5] : List Byte), (Instr.unknownCmd .standard cmd [] 0).wf = false := by
  decide
theorem test_wf_error : (Instr.error 0x02 .invalidAddr).wf = false := by decide
theorem test_wf_writeFlash : (Instr.writeFlash 0 [0x11] 2).wf = false := by decide
theorem test_wf_verifyFlash : (Instr.verifyFlash 0 [] 1).wf = false := by decide
theorem test_wf_crc32 : (Instr.crc32 [0x61] 2).wf = false := by decide

/-! ## Configurations: each constraint of R8 and R9 refuses a breach -/

/-- The configuration is refused, and this check refuses it. -/
def refusedBy (check : Params → Bool) (p : Params) : Bool := !check p && (Platform.ofParams p).isNone

theorem test_config_accepted : (Platform.ofParams exampleParams).isSome = true := by decide
theorem test_config_noWrap : refusedBy Params.noWrap { exampleParams with appMaxSize := 0xF8000000 } = true := by decide
theorem test_config_aligned : refusedBy Params.aligned { exampleParams with appStart := 0x08008002 } = true := by decide
theorem test_config_appOffBoot : refusedBy Params.appOffBoot { exampleParams with bootHi := 0x08008001 } = true := by decide
theorem test_config_sectorsAscend :
    refusedBy Params.sectorsAscend { exampleParams with sectors := exampleParams.sectors.reverse } = true := by decide
/-- Two sectors of one base are accepted. -/
theorem test_config_equalBases : (Platform.ofParams { exampleParams with
    sectors := ⟨1, 0x08008000, 0x4000⟩ :: exampleParams.sectors }).isSome = true := by decide
theorem test_config_sectorsCover :
    refusedBy Params.sectorsCover { exampleParams with sectors := exampleParams.sectors.dropLast } = true := by decide
theorem test_config_sectorsOffBoot :
    refusedBy Params.sectorsOffBoot
      { exampleParams with sectors := ⟨1, 0x08004000, 0x4000⟩ :: exampleParams.sectors } = true := by decide
theorem test_config_sevenBit :
    refusedBy Params.sevenBit { exampleParams with verMajor := 0x80 } = true ∧
    refusedBy Params.sevenBit { exampleParams with respInfo := 0x80 } = true := by decide
theorem test_config_magicDiffers : refusedBy Params.magicDiffers { exampleParams with magic := 0 } = true := by decide
theorem test_config_flagOutside :
    refusedBy Params.flagOutside { exampleParams with flagAddr := 0x0807FFFF } = true ∧
    refusedBy Params.flagOutside { exampleParams with flagAddr := 0x08000000 } = true := by decide
theorem test_config_unitPower :
    refusedBy Params.unitPower { exampleParams with progUnit := 3 } = true ∧
    refusedBy Params.unitPower { exampleParams with progUnit := 0 } = true := by decide
theorem test_config_queueHolds : refusedBy Params.queueHolds { exampleParams with queueDepth := 0 } = true := by decide

/-! ## Wire forms (sections 2.1, 2.2) -/

theorem test_enc5 : enc5 0x12345678 = [0x01, 0x11, 0x51, 0x2C, 0x78] ∧ enc5 0x08008000 = [0x00, 0x40, 0x02, 0x00, 0x00] ∧
    enc5 0xFFFFFFFF = [0x0F, 0x7F, 0x7F, 0x7F, 0x7F] := by decide
theorem test_dec5 : dec5 0xFF 0xFF 0xFF 0xFF 0xFF = 0xFFFFFFFF ∧ dec5 0x10 0 0 0 0 = 0 ∧
    dec5 0x1F 0 0 0 0 = 0xF0000000 ∧ dec5 0x80 0x80 0x80 0x80 0x81 = 1 := by decide
theorem test_enc2 : enc2 241 = [0x01, 0x71] ∧ enc2 256 = [0x02, 0x00] ∧ enc2 16383 = [0x7F, 0x7F] := by decide
theorem test_dec2 : dec2 0x02 0x00 = 256 ∧ dec2 0x7F 0x7F = 16383 ∧ dec2 0x80 0x81 = 1 := by decide
theorem test_checksum : checksum [] = 0 ∧ checksum [0x01] = 0x7F ∧ checksum [0x80] = 0 ∧ checksum [0x40] = 0x40 ∧
    checksum [0x0F, 0x04, 0, 0, 0, 0, 0] = 0x6D := by decide

/-! ## Decoding: a word written out for each encodable constructor, and each reject -/

theorem test_decode_rxCin4 : decode exampleParams .packet [0x34, 0xF0, 0x01, 0x02] = .ok (.rxCin4 3 0xF0 0x01 0x02) := by
  decide
theorem test_decode_rxCin5 : decode exampleParams .packet [0x15, 0xF7, 0x00, 0x55] = .ok (.rxCin5 1 0xF7 0x00 0x55) := by
  decide
theorem test_decode_rxCin6 : decode exampleParams .packet [0x06, 0x7F, 0xF7, 0x00] = .ok (.rxCin6 0 0x7F 0xF7 0x00) := by
  decide
theorem test_decode_rxCin7 : decode exampleParams .packet [0xF7, 0xF0, 0x01, 0xF7] = .ok (.rxCin7 15 0xF0 0x01 0xF7) := by
  decide
theorem test_decode_rxOther03 : decode exampleParams .packet [0x23, 1, 2, 3] = .ok (.rxOther03 2 3 1 2 3) := by decide
theorem test_decode_rxOther8F : decode exampleParams .packet [0x09, 0x90, 0x3C, 0x7F] = .ok (.rxOther8F 0 1 0x90 0x3C 0x7F) ∧
    decode exampleParams .packet [0x0F, 0xF8, 0, 0] = .ok (.rxOther8F 0 7 0xF8 0 0) := by decide
theorem test_decode_query : decode exampleParams .request [0xF0, 0, 0, 0x7E, 0x4E, 0x01, 0x05, 0x7A, 0xF7] =
    .ok (.query .legacy [0x05] 0x7A) := by decide
theorem test_decode_writeBlock : decode exampleParams .request
    [0xF0, 0, 0, 0x7E, 0x40, 0x02, 0x10, 0, 0, 0, 0, 0, 1, 0x5A, 0x13, 0xF7] =
    .ok (.writeBlock .standard [0x10, 0, 0, 0, 0, 0, 1, 0x5A] 0x13) := by decide
theorem test_decode_eraseApp : decode exampleParams .request [0xF0, 0, 0, 0x7E, 0x40, 0x04, 0x7C, 0xF7] =
    .ok (.eraseApp .standard [] 0x7C) := by decide
theorem test_decode_jumpApp : decode exampleParams .request [0xF0, 0, 0, 0x7E, 0x40, 0x05, 0x7B, 0xF7] =
    .ok (.jumpApp .standard [] 0x7B) := by decide
theorem test_decode_unknownCmd : decode exampleParams .request [0xF0, 0, 0, 0x7E, 0x40, 0x03, 0x7D, 0xF7] =
    .ok (.unknownCmd .standard 0x03 [] 0x7D) ∧
    decode exampleParams .request [0xF0, 0, 0, 0x7E, 0x40, 0x82, 0x7E, 0xF7] =
    .ok (.unknownCmd .standard 0x82 [] 0x7E) := by decide
theorem test_decode_ack : decode exampleParams .response
    [0xF0, 0, 0, 0x7E, 0x40, 0x0F, 0x05, 0x00, 0x40, 0x02, 0x00, 0x00, 0x2A, 0xF7] = .ok (.ack 0x05 0x08008000) := by decide
theorem test_decode_error : decode exampleParams .response [0xF0, 0, 0, 0x7E, 0x40, 0x0E, 0x02, 0x04, 0x6C, 0xF7] =
    .ok (.error 0x02 .writeFailed) := by decide
theorem test_decode_info : decode exampleParams .response [0xF0, 0, 0, 0x7E, 0x40, 0x0F, 0x01, 0x00, 0x00,
    0x00, 0x00, 0x00, 0x08, 0x00, 0x00, 0x40, 0x02, 0x00, 0x00, 0x26, 0xF7] = .ok .info := by decide

/-- Section 2.5, and R151 before R152 before R153 (R253). -/
theorem test_reject_request :
    decode exampleParams .request [0xF0, 0, 0, 0x7E, 0x40, 0x01, 0xF7] = .error .tooShort ∧
    decode exampleParams .request [0x00, 0, 0, 0x7E, 0x40, 0x01, 0x7F, 0xF7] = .error .badFraming ∧
    decode exampleParams .request [0xF0, 0, 0, 0x7E, 0x40, 0x01, 0x7F, 0x00] = .error .badFraming ∧
    decode exampleParams .request [0xF0, 0, 1, 0x7E, 0x41, 0x01, 0x7F, 0xF7] = .error .foreignManufacturer ∧
    decode exampleParams .request [0xF0, 0, 0, 0x7E, 0x41, 0x01, 0x7F, 0xF7] = .error .foreignDevice := by decide
theorem test_reject_packet : decode exampleParams .packet [0x04, 0xF0, 0x00] = .error .notFourBytes := by decide
theorem test_reject_response :
    decode exampleParams .response [0xF0, 0, 0, 0x7E, 0x40, 0x0E, 0x02, 0x03, 0x6D, 0xF7] = .error .reservedErrorCode ∧
    decode exampleParams .response [0xF0, 0, 0, 0x7E, 0x40, 0x0E, 0x02, 0x04, 0x6D, 0xF7] = .error .notAResponse := by decide
theorem test_reject_internal : decode exampleParams .internal [0x01] = .error .noEncoding := by decide

/-- One-byte words of spec/opcode_table.json. -/
theorem test_table_words : decodeTableWord 8 0x01 = some (.query .standard [] 0x7F) ∧
    decodeTableWord 8 0x04 = some (.eraseApp .standard [] 0x7C) ∧
    decodeTableWord 8 0x0E = some (.error 0 .invalidCmd) ∧ decodeTableWord 8 0x0F = some (.ack 0 0) ∧
    decodeTableWord 8 0x06 = some (.rxCin6 0 0 0 0) ∧ decodeTableWord 8 0x14 = some (.rxCin4 1 0 0 0) := by decide
/-- The first step after placing a word runs it. -/
theorem test_placed_word : step (State.reset.withFetchWord 8 0x0F) = endStep (exec (.ack 0 0) (State.reset.setMode .bootloader)) ∧
    step (State.reset.withFetchWord 8 0x04) =
      endStep (exec (.eraseApp .standard [] 0x7C) (State.reset.setMode .bootloader)) := ⟨rfl, rfl⟩

/-! ## Reception (section 2.4) -/

theorem test_rxCin4 : heard start ⟨0x34, 0xF0, 0xF7, 0x01⟩ = some ([], 3) := by decide
/-- `rx_len = 254`, then `04 01 02 03`: the third byte is dropped. -/
theorem test_rxCin4_full :
    (next? (exec (.rxCin4 0 1 2 3) { start with rxBuf := List.replicate 254 0 })).map (fun t => t.rxBuf) =
      some (List.replicate 254 0 ++ [1, 2]) := by decide +kernel
theorem test_rxCin5 : heard start ⟨0x05, 0xF7, 0, 0⟩ = some ([[0xF7]], 0) := by decide
theorem test_rxCin5_after : heard { start with rxBuf := [0xF0, 0xF7, 0x01] } ⟨0x05, 0xF7, 0, 0⟩ =
    some ([[0xF0, 0xF7, 0x01, 0xF7]], 0) := by decide
theorem test_rxCin6 : heard { start with rxBuf := [0xF0, 0, 0, 0x7E, 0x40, 0x01] } ⟨0x06, 0x7F, 0xF7, 0x55⟩ =
    some ([[0xF0, 0, 0, 0x7E, 0x40, 0x01, 0x7F, 0xF7]], 0) := by decide
theorem test_rxCin6_queue_full : heard { start with msgQ := [[0xF7]] } ⟨0x06, 0xF0, 0xF7, 0⟩ = some ([[0xF7]], 0) := by
  decide
theorem test_rxCin7 : heard start ⟨0x07, 0xF0, 0x01, 0xF7⟩ = some ([[0xF0, 0x01, 0xF7]], 0) := by decide
theorem test_rxOther03 : heard { start with rxBuf := [0xF0] } ⟨0x03, 1, 2, 3⟩ = some ([], 1) := by decide
theorem test_rxOther8F : heard { start with rxBuf := [0xF0] } ⟨0x0F, 0xF8, 0, 0⟩ = some ([], 1) := by decide

/-! ## Commands (sections 2.5 to 2.10) -/

/-- INFO's packets (section 2.3). -/
def infoPackets : List (List Byte) := [[4, 0xF0, 0, 0], [4, 0x7E, 0x40, 0x0F], [4, 1, 0, 0], [4, 0, 0, 0], [4, 8, 0, 0],
  [4, 0x40, 2, 0], [7, 0, 0x26, 0xF7]]

theorem test_query : reply start [0xF0, 0, 0, 0x7E, 0x40, 0x01, 0x7F, 0xF7] = some (infoPackets, .responded) := by decide
theorem test_query_bad_checksum : reply start [0xF0, 0, 0, 0x7E, 0x40, 0x01, 0xFF, 0xF7] =
    some ([[4, 0xF0, 0, 0], [4, 0x7E, 0x40, 0x0E], [4, 1, 7, 0x6A], [5, 0xF7, 0, 0]], .responded) := by decide
theorem test_ignored : reply start [0xF0, 0, 0, 0x7E, 0x41, 0x01, 0x7F, 0xF7] = some ([], .ignored) := by decide
/-- Last unit padded: offset 0x100, 11 22 33 44 55. -/
theorem test_writeBlock : (next? (step { start with msgQ := [[0xF0, 0, 0, 0x7E, 0x40, 0x02, 0, 0, 0, 2, 0, 0, 5, 0x11, 0x22,
    0x33, 0x44, 0x55, 0x78, 0xF7]] })).map (fun t => (flashCalls t, sent t, t.flash)) =
    some ([.flashUnlock, .flashProgramUnit 0x08008100 [0x11, 0x22, 0x33, 0x44] (some .ok),
      .flashProgramUnit 0x08008104 [0x55, 0xFF, 0xFF, 0xFF] (some .ok), .flashLock],
      [[4, 0xF0, 0, 0], [4, 0x7E, 0x40, 0x0F], [4, 2, 0, 0], [4, 0, 2, 0], [6, 0x6D, 0xF7, 0]],
      [(0x08008100, 0x11), (0x08008101, 0x22), (0x08008102, 0x33), (0x08008103, 0x44), (0x08008104, 0x55)]) := by decide
/-- Target not erased: AND, then VERIFY_FAILED (program 4, step 1). -/
theorem test_writeBlock_and : (next? (step { start with flash := image, msgQ := [[0xF0, 0, 0, 0x7E, 0x40, 0x02, 0, 0, 0, 0,
    0, 0, 4, 0x11, 0x22, 0x33, 0x44, 0x50, 0xF7]] })).map (fun t => (sent t, t.bytes4 0x08008000)) =
    some ([[4, 0xF0, 0, 0], [4, 0x7E, 0x40, 0x0E], [4, 2, 6, 0x6A], [5, 0xF7, 0, 0]], [0, 0, 2, 0]) := by decide
theorem test_eraseApp : (next? (step { start with flash := image, msgQ := [[0xF0, 0, 0, 0x7E, 0x40, 0x04, 1, 2, 0x79, 0xF7]]
    })).map (fun t => (sent t, t.flash, t.flashLock)) =
    some ([[4, 0xF0, 0, 0], [4, 0x7E, 0x40, 0x0F], [4, 4, 0, 0], [4, 0, 0, 0], [6, 0x6D, 0xF7, 0]], [], .locked) := by decide
/-- Third sector refused: the calls, and the response. -/
theorem test_eraseApp_refused : (next? (step { start with answers := [.ok, .ok, .fail, .ok, .ok, .ok, .ok], msgQ := [[0xF0,
    0, 0, 0x7E, 0x40, 0x04, 0x7C, 0xF7]] })).map (fun t => (flashCalls t, sent t)) =
    some ([.flashUnlock, .flashEraseSector 2 (some .ok), .flashEraseSector 3 (some .ok), .flashEraseSector 4 (some .fail),
      .flashLock], [[4, 0xF0, 0, 0], [4, 0x7E, 0x40, 0x0E], [4, 4, 5, 0x69], [5, 0xF7, 0, 0]]) := by decide
theorem test_jumpApp : (next? (step { start with msgQ := [[0xF0, 0, 0, 0x7E, 0x40, 0x05, 0x7B, 0xF7]] })).map
    (fun t => (sent t, t.mode)) =
    some ([[4, 0xF0, 0, 0], [4, 0x7E, 0x40, 0x0F], [4, 5, 0, 0x40], [4, 2, 0, 0], [6, 0x2A, 0xF7, 0]], .settle) := by decide
/-- The second packet refused: SETTLE all the same. -/
theorem test_jumpApp_tx_failed : (next? (step { start with answers := [.ok, .fail], msgQ := [[0xF0, 0, 0, 0x7E, 0x40, 0x05,
    0x7B, 0xF7]] })).map (fun t => (t.lastStatus, t.mode)) = some (.txFailed, .settle) := by decide
theorem test_unknownCmd : reply start [0xF0, 0, 0, 0x7E, 0x40, 0x09, 0x77, 0xF7] =
    some ([[4, 0xF0, 0, 0], [4, 0x7E, 0x40, 0x0E], [4, 9, 1, 0x68], [5, 0xF7, 0, 0]], .responded) := by decide

/-! ## Responses (section 2.3) -/

theorem test_ack : (next? (exec (.ack 0x02 0x100) start)).map sent =
    some [[4, 0xF0, 0, 0], [4, 0x7E, 0x40, 0x0F], [4, 2, 0, 0], [4, 0, 2, 0], [6, 0x6D, 0xF7, 0]] := by decide
theorem test_error : (next? (exec (.error 0x04 .checksum) start)).map sent =
    some [[4, 0xF0, 0, 0], [4, 0x7E, 0x40, 0x0E], [4, 4, 7, 0x67], [5, 0xF7, 0, 0]] := by decide
theorem test_info : (next? (exec .info start)).map (fun t => (sent t, t.lastStatus)) = some (infoPackets, .responded) := by
  decide

/-! ## Internal operations (sections 2.3, 2.11 to 2.14) -/

theorem test_sendSysex : (next? (exec (.sendSysex [0xF0, 1, 2, 3, 0xF7] 3) start)).map (fun t => (sent t, t.result)) =
    some ([[0x34, 0xF0, 1, 2], [0x36, 3, 0xF7, 0]], .ok) := by decide
theorem test_sendSysex_stops : (next? (exec (.sendSysex [0xF0, 0xF7, 1, 0xF7] 0) start)).map sent =
    some [[6, 0xF0, 0xF7, 0]] := by decide
theorem test_eraseApplication : (next? (exec .eraseApplication { start with flash := image })).map
    (fun t => (t.flash, t.result)) = some ([], .ok) := by decide
theorem test_writeFlash : (next? (exec (.writeFlash 0x78000 [0x01] 1) start)).map (fun t => (t.trace, t.result)) =
    some ([], .fail) := by decide
/-- `len` selects the first bytes of the operand (R193): one unit, `11 FF FF FF`. -/
theorem test_writeFlash_len : (next? (exec (.writeFlash 2 [0x11, 0x22] 1) start)).map (fun t => flashCalls t) =
    some [.flashUnlock, .flashProgramUnit 0x08008002 [0x11, 0xFF, 0xFF, 0xFF] (some .ok), .flashLock] := by decide
theorem test_verifyFlash : (next? (exec (.verifyFlash 0x77FFE [0xFF, 0xFF] 2) start)).map (fun t => t.result) =
    some (.truth true) := by decide
theorem test_verifyFlash_range : (next? (exec (.verifyFlash 0x77FFF [0xFF, 0xFF] 2) start)).map (fun t => t.result) =
    some (.truth false) := by decide
theorem test_crc32 : (next? (exec (.crc32 [0x11, 0x22, 0x33, 0x44, 0x55] 4) start)).map (fun t => t.result) =
    some (.word 0x77F29DD1) := by decide +kernel
theorem test_checkApplication : (next? (exec .checkApplication { start with flash := image })).map (fun t => t.result) =
    some (.truth true) := by decide
/-- Every row of section 2.13 with a table, in its order. -/
theorem test_validTable : ([(0x20020000, 0x08010001), (0x20000000, 0x08008001), (0x20000000, 0x0807FFFF),
    (0x20020001, 0x08010001), (0x1FFFFFFF, 0x08010001), (0x20000000, 0x08008000), (0x20000000, 0x08010000),
    (0x20000000, 0x08080001), (0x20000000, 0x08000001), (0x20010000, 0x08007FFF), (0xFFFFFFFF, 0xFFFFFFFF)] :
      List (Word × Word)).map (fun t => validTable exampleParams ⟨t.1, t.2⟩) =
    [true, true, true, false, false, false, false, false, false, false, false] := by decide
theorem test_jumpToApplication : (next? (exec .jumpToApplication { start with flash := image })).map
    (fun t => (t.mode, t.trace.drop 2)) =
    some (.jumped, [.disableInterrupts, .relocateVectorTable 0x08008000, .setStackPointer 0x20020000, .branch 0x08010001]) := by
  decide
theorem test_jumpToApplication_remained : (next? (exec .jumpToApplication start)).map (fun t => (t.mode, t.result)) =
    some (.bootloader, .remained) := by decide

/-- A state before the BOOT step. -/
def booting (flag : Word) (m : Memory) : State := { start with mode := .boot, entryReason := none, pflag := flag, flash := m }

/-- `entry_reason`, `pflag` and `mode` after the BOOT step. -/
def booted (flag : Word) (m : Memory) : Option (Option EntryReason × Word × Mode) :=
  (next? (step (booting flag m))).map fun t => (t.entryReason, t.pflag, t.mode)

theorem test_bootStep_request : booted 0xB00710AD image = some (some .request, 0, .bootloader) ∧
    booted 0xB00710AD [] = some (some .request, 0, .bootloader) := by decide
theorem test_bootStep : booted 0 image = some (some .none, 0, .jumped) ∧ booted 0 [] = some (some .noApp, 0, .bootloader) ∧
    booted 0xB00710AC image = some (some .none, 0xB00710AC, .jumped) ∧
    booted 0xB00710AC [] = some (some .noApp, 0xB00710AC, .bootloader) := by decide
theorem test_requestEntry : (next? (exec .requestEntry { start with mode := .jumped, rxBuf := [1], msgQ := [[2]] })).map
    (fun t => (t.mode, t.pflag, t.rxLen, t.msgQ)) = some (.boot, 0xB00710AD, 0, []) := by decide
theorem test_settleDone : (next? (step { start with mode := .settle, flash := image })).map (fun t => t.mode) =
    some .jumped := by decide
theorem test_settleDone_remained : (next? (step { start with mode := .settle, lastStatus := .txFailed })).map
    (fun t => (t.mode, t.lastStatus, sent t)) = some (.bootloader, .txFailed, []) := by decide

/-! ## Witnesses: for each obligation, states and operands that meet its hypotheses -/

/-- Requests and responses at the edges of their operands: no payload, the longest payload, every bit of a packet set. -/
def encodable : List Instr :=
  [.rxCin4 15 0xFF 0xFF 0xFF, .rxCin5 0 0 0 0, .rxCin6 3 0 0xF7 0, .rxCin7 1 0xF0 0 0xF7, .rxOther03 15 3 1 2 3,
    .rxOther8F 15 7 1 2 3, .query .legacy [] 0x7F, .writeBlock .standard (List.replicate 248 0xFF) 0x80, .eraseApp .standard [] 0,
    .jumpApp .legacy [1] 2, .unknownCmd .standard 0x03 (List.replicate 248 0) 0xFF, .ack 0xFF 0xFFFFFFFF, .error 0 .checksum,
    .info]

theorem witness_DecodeInvertsEncode :
    ∀ i ∈ encodable, i.wf = true ∧ (encode exampleParams i).isSome = true := by decide +kernel

theorem witness_EncodeInvertsDecode :
    decode exampleParams .packet [0xFF, 0xFF, 0xFF, 0xFF] = .ok (.rxOther8F 15 7 0xFF 0xFF 0xFF) ∧
    decode exampleParams .request [0xF0, 0, 0, 0x7E, 0x4E, 0x00, 0xFF, 0xF7] = .ok (.unknownCmd .legacy 0x00 [] 0xFF) ∧
    decode exampleParams .response [0xF0, 0, 0, 0x7E, 0x40, 0x0E, 0x07, 0x01, 0x6A, 0xF7] = .ok (.error 0x07 .invalidCmd) := by
  decide

/-- The five bytes are canonical, at the largest value, and not, past it. -/
theorem witness_WireIntegersMaskAndInvert : enc5 (dec5 0x0F 0x7F 0x7F 0x7F 0x7F) = [0x0F, 0x7F, 0x7F, 0x7F, 0x7F] ∧
    enc5 (dec5 0x10 0 0 0 0) ≠ [0x10, 0, 0, 0, 0] := by decide

/-- QUERY as the host sends it. -/
def queryMsg : List Byte := [0xF0, 0, 0, 0x7E, 0x40, 0x01, 0x7F, 0xF7]

theorem ownTurn_self {s : State} (h : s.turns = []) : OwnTurn s s := .inl ⟨h, rfl⟩

/-- `s` with a turn of its own in the schedule, and what lands inside it. -/
def scheduled (s : State) (c : List Landing) : State := { s with turns := [.own c, .requestEntry] }

theorem ownTurn_scheduled (s : State) (c : List Landing) :
    OwnTurn (scheduled s c) (((scheduled s c).setTurns [.requestEntry]).setLandings c) :=
  .inr ⟨c, [.requestEntry], rfl, rfl⟩

theorem witness_StepRunsDecodedInstruction :
    (∃ (s : State) (p : Packet) (rest : List Turn), s.turns = .packet p :: rest) ∧
    (∃ (s u : State) (m : List Byte) (q : List (List Byte)) (i : Instr), OwnTurn s u ∧ s.mode = .bootloader ∧
      s.msgQ = m :: q ∧ decode s.params .request m = .ok i) ∧
    (∃ (s u : State) (m : List Byte) (q : List (List Byte)) (i : Instr), s.turns ≠ [] ∧ OwnTurn s u ∧ s.mode = .bootloader ∧
      s.msgQ = m :: q ∧ decode s.params .request m = .ok i) ∧
    (∃ (s : State) (m : List Byte) (i : Instr) (rest : List Turn), s.turns = .respond m :: rest ∧ s.mode = .bootloader ∧
      decode s.params .response m = .ok i) ∧
    (∃ (s : State) (i : Instr) (rest : List Turn), s.turns = .call i :: rest ∧ s.mode = .bootloader ∧
      i.format = .internal) ∧
    ∃ (s : State) (rest : List Turn), s.turns = .requestEntry :: rest :=
  ⟨⟨{ start with turns := [.packet ⟨4, 0xF0, 0, 0⟩] }, _, _, rfl⟩,
    ⟨{ start with msgQ := [queryMsg] }, _, queryMsg, [], .query .standard [] 0x7F, ownTurn_self rfl, rfl, rfl, by decide⟩,
    ⟨scheduled { start with msgQ := [queryMsg] } [.call, .packet ⟨4, 0xF0, 0, 0⟩, .reset true .soft], _, queryMsg, [], .query .standard [] 0x7F, by decide,
      ownTurn_scheduled _ _, rfl, rfl, by decide⟩,
    ⟨{ start with turns := [.respond (ackMsg 0x04 0)] }, ackMsg 0x04 0, .ack 0x04 0, [], rfl, rfl, by decide⟩,
    ⟨{ start with turns := [.call .eraseApplication] }, _, _, rfl, rfl, rfl⟩,
    ⟨{ start with turns := [.requestEntry] }, _, rfl⟩⟩

theorem witness_OwnStepOfEachMode :
    (∃ s u : State, OwnTurn s u ∧ s.mode = .boot) ∧ (∃ s u : State, s.turns ≠ [] ∧ OwnTurn s u ∧ s.mode = .settle) ∧
    (∃ s u : State, OwnTurn s u ∧ s.mode = .jumped) ∧
    ∃ s u : State, OwnTurn s u ∧ s.mode = .bootloader ∧ s.msgQ = [] :=
  ⟨⟨booting 0 [], _, ownTurn_self rfl, rfl⟩,
    ⟨scheduled { start with mode := .settle } [], _, by decide, ownTurn_scheduled _ _, rfl⟩,
    ⟨{ start with mode := .jumped }, _, ownTurn_self rfl, rfl⟩, ⟨start, _, ownTurn_self rfl, rfl, rfl⟩⟩

/-- Ignored: 7 bytes, and 8 with a foreign device id. Accepted: 8 bytes, the shortest. -/
theorem witness_IgnoredMessages :
    (∃ (s u : State) (m : List Byte) (q : List (List Byte)), OwnTurn s u ∧ s.mode = .bootloader ∧ s.msgQ = m :: q ∧
      m.length = 7 ∧ ¬ acceptedHeader m) ∧
    (∃ (s u : State) (m : List Byte) (q : List (List Byte)), OwnTurn s u ∧ s.mode = .bootloader ∧ s.msgQ = m :: q ∧
      m.length = 8 ∧ ¬ acceptedHeader m) ∧
    ∃ (s u : State) (m : List Byte) (q : List (List Byte)), OwnTurn s u ∧ s.mode = .bootloader ∧ s.msgQ = m :: q ∧
      m.length = 8 ∧ acceptedHeader m :=
  ⟨⟨{ start with msgQ := [[0xF0, 0, 0, 0x7E, 0x40, 0x01, 0xF7]] }, _, _, _, ownTurn_self rfl, rfl, rfl, rfl,
      by unfold acceptedHeader; decide⟩,
    ⟨{ start with msgQ := [[0xF0, 0, 0, 0x7E, 0x41, 0x01, 0x7F, 0xF7]] }, _, _, _, ownTurn_self rfl, rfl, rfl, rfl,
      by unfold acceptedHeader; decide⟩,
    ⟨{ start with msgQ := [queryMsg] }, _, _, _, ownTurn_self rfl, rfl, rfl, rfl, by unfold acceptedHeader; decide⟩⟩

/-- The buffer empty and full; the queue with room and full. -/
theorem witness_ContinuePacketAppends :
    (start.rxEnabled = true ∧ start.rxBuf.length = 0) ∧
    ({ start with rxBuf := List.replicate 256 0, mode := .settle } : State).rxEnabled = true ∧
    ({ start with rxBuf := List.replicate 256 0, mode := .settle } : State).rxBuf.length = 256 := by decide +kernel

theorem witness_TerminalPacketsDeliver :
    (start.rxEnabled = true ∧ start.rxBuf.length ≤ 256 ∧ start.msgQ.length < start.params.queueDepth) ∧
    ∃ s : State, s.rxEnabled = true ∧ s.rxBuf.length = 256 ∧ ¬ s.msgQ.length < s.params.queueDepth :=
  ⟨by decide, { start with rxBuf := List.replicate 256 0, msgQ := [[0xF7]] }, by decide, List.length_replicate, by decide⟩

theorem witness_OtherPacketsChangeNothing :
    start.rxEnabled = true ∧ ({ start with mode := .settle } : State).rxEnabled = true := by decide

theorem witness_PacketsUnseenOutsideService :
    (booting 0 []).mode = .boot ∧ ({ start with mode := .jumped } : State).mode = .jumped := by decide

/-- Lengths 1, 2 and 256, and an F7 inside. -/
theorem witness_PacketsCarryTheMessage :
    ∀ c ∈ ([([0xF7], 0), ([0xF0, 0xF7], 1), (0xF0 :: List.replicate 254 0x01 ++ [0xF7], 255), ([0xF0, 1, 0xF7, 2, 0xF7], 2)] :
      List (List Byte × Nat)),
      c.2 < c.1.length ∧ byteAt c.1 c.2 = 0xF7 ∧ ∀ i < c.2, byteAt c.1 i ≠ 0xF7 := by decide +kernel

/-- The shortest buffer on cable 3, with packets of other CINs between, before and after. -/
theorem witness_CodecRoundTrip : ∃ (s : State) (B : List Byte) (c : BitVec 4) (ps : List Packet) (rest : List Turn),
    s.rxEnabled = true ∧ s.rxBuf = [] ∧ s.landings = [] ∧
    byteAt B 0 = 0xF0 ∧ byteAt B (B.length - 1) = 0xF7 ∧ 2 ≤ B.length ∧ B.length ≤ 256 ∧
    (∀ i, i + 1 < B.length → byteAt B i ≠ 0xF7) ∧ c ≤ 3 ∧
    ps.filter carriesMessage = encodePackets c B ∧ s.turns = ps.map .packet ++ rest :=
  ⟨{ start with turns := [.packet ⟨0x09, 0x90, 0x3C, 0x7F⟩, .packet ⟨0x36, 0xF0, 0xF7, 0⟩, .packet ⟨0x03, 1, 2, 3⟩, .own []] },
    [0xF0, 0xF7], 3, [⟨0x09, 0x90, 0x3C, 0x7F⟩, ⟨0x36, 0xF0, 0xF7, 0⟩, ⟨0x03, 1, 2, 3⟩], [.own []], by decide, rfl, rfl,
    by decide, by decide, by decide, by decide, by intro i hi; obtain rfl : i = 0 := by simpa using hi
                                                   decide, by decide, by decide, rfl⟩

/-- The longest buffer, 256 bytes. -/
theorem witness_CodecRoundTrip_longest : ∃ (s : State) (B : List Byte) (ps : List Packet),
    s.rxEnabled = true ∧ s.rxBuf = [] ∧ s.landings = [] ∧ byteAt B 0 = 0xF0 ∧ byteAt B (B.length - 1) = 0xF7 ∧
    B.length = 256 ∧ (∀ i < B.length - 1, byteAt B i ≠ 0xF7) ∧ ps.filter carriesMessage = encodePackets 0 B ∧
    s.turns = ps.map .packet :=
  ⟨{ start with turns := (encodePackets 0 (0xF0 :: List.replicate 254 0x01 ++ [0xF7])).map .packet },
    0xF0 :: List.replicate 254 0x01 ++ [0xF7], encodePackets 0 (0xF0 :: List.replicate 254 0x01 ++ [0xF7]),
    by decide, rfl, rfl, by decide +kernel, by decide +kernel, by decide +kernel, by decide +kernel, by decide +kernel, rfl⟩

/-- Each disjunct alone. -/
theorem witness_SendSysexRejectsMalformed : byteAt [0x01, 0xF7] 0 ≠ 0xF0 ∧
    byteAt [0xF0, 0x01, 0x02] ([0xF0, 0x01, 0x02].length - 1) ≠ 0xF7 ∧ 3 < 4 := by decide

/-- Accepted throughout on cable 3, and refused at the first and at the last packet. -/
theorem witness_SendSysexTransmits :
    let data : List Byte := [0xF0, 1, 2, 3, 0xF7]
    let ps := encodePackets (BitVec.ofNat 4 3) data
    (data ≠ [] ∧ byteAt data 0 = 0xF0 ∧ byteAt data (data.length - 1) = 0xF7) ∧ start.Accepts ps.length ∧
    (ps[0]? = some ⟨0x34, 0xF0, 1, 2⟩ ∧ ({ start with answers := [.fail] } : State).RefusesAt 0) ∧
    ps[1]? = some ⟨0x36, 3, 0xF7, 0⟩ ∧ ({ start with answers := [.ok, .fail] } : State).RefusesAt 1 := by decide

/-! Commands. Hypotheses on the state are met by `start`. -/

theorem witness_mode : start.mode = .bootloader ∧ start.landings = [] := by decide

theorem witness_QueryAnswersInfo : start.mode = .bootloader ∧ start.landings = [] ∧ (0x7F : Byte) = checksum (0x01 :: []) ∧
    (0x7A : Byte) = checksum (0x01 :: [0x05]) := by decide

/-- The commands on either side of the known ones, and the last; one with its checksum right, one wrong. -/
theorem witness_UnknownCommandAnswersError : start.mode = .bootloader ∧ start.landings = [] ∧
    (∀ cmd ∈ ([0x00, 0x03, 0x06, 0xFF] : List Byte), cmd ≠ 0x01 ∧ cmd ≠ 0x02 ∧ cmd ≠ 0x04 ∧ cmd ≠ 0x05) ∧
    (0x7D : Byte) = checksum (0x03 :: []) ∧ (0x00 : Byte) ≠ checksum (0x03 :: []) := by decide

/-- A byte whose low 7 bits are right is wrong. -/
theorem witness_WrongChecksumAnswersError : start.mode = .bootloader ∧ start.landings = [] ∧
    (0xFC : Byte) ≠ checksum (0x04 :: []) := by decide

theorem witness_CommandsOnlyInBootloader : (booting 0 []).mode ≠ .bootloader ∧
    ({ start with mode := .settle } : State).mode ≠ .bootloader := by decide

/-- `L = 14`; `n = 0`; `n = 257`, complete; and `n = 4` with 5 and with 3 data bytes. -/
theorem witness_WriteBlockBadLength : start.mode = .bootloader ∧ start.landings = [] ∧
    ([0, 0, 0, 0, 0, 0] : List Byte).length + 8 < 15 ∧
    dec2 (byteAt [0, 0, 0, 0, 0, 0, 0] 5) (byteAt [0, 0, 0, 0, 0, 0, 0] 6) = 0 ∧
    (dec2 (byteAt ([0, 0, 0, 0, 0, 2, 1] ++ List.replicate 257 0) 5) (byteAt ([0, 0, 0, 0, 0, 2, 1] ++ List.replicate 257 0) 6)
      > 256) ∧
    ([0, 0, 0, 0, 0, 0, 4, 1, 2, 3, 4, 5] : List Byte).length + 8 ≠ 15 + 4 ∧
    ([0, 0, 0, 0, 0, 0, 4, 1, 2, 3] : List Byte).length + 8 ≠ 15 + 4 ∧
    (0x6B : Byte) = checksum (0x02 :: [0, 0, 0, 0, 0, 0, 4, 1, 2, 3, 4, 5]) := by decide

/-- The last address there is (no wrap), and the first past the region, each with one byte. -/
theorem witness_WriteBlockOutOfRange : start.mode = .bootloader ∧ start.landings = [] ∧
    BlockOperands [0x0F, 0x7F, 0x7F, 0x7F, 0x7F, 0, 1, 0] 0xFFFFFFFF [0] ∧
    start.params.appMaxSize.toNat < (0xFFFFFFFF : Word).toNat + 1 ∧
    BlockOperands [0, 0, 0x1E, 0, 0, 0, 1, 0x5A] 0x78000 [0x5A] ∧
    start.params.appMaxSize.toNat + 1 = (0x78000 : Word).toNat + 1 ∧
    (0x72 : Byte) = checksum (0x02 :: [0x0F, 0x7F, 0x7F, 0x7F, 0x7F, 0, 1, 0]) :=
  ⟨by decide, by decide, ⟨by decide, by decide, by decide, by decide⟩, by decide,
    ⟨by decide, by decide, by decide, by decide⟩, by decide, by decide⟩

/-- The last bytes of the region, 6 of them: two units. -/
def lastBlock : List Byte := [0, 0, 0x1D, 0x7F, 0x7A, 0, 6, 1, 2, 3, 4, 5, 6]

theorem witness_lastBlock : BlockOperands lastBlock 0x77FFA [1, 2, 3, 4, 5, 6] :=
  ⟨by decide, by decide, by decide, by decide⟩

theorem witness_WriteBlockProgramsAndVerifies : start.mode = .bootloader ∧
    (0x4D : Byte) = checksum (0x02 :: lastBlock) ∧ BlockOperands lastBlock 0x77FFA [1, 2, 3, 4, 5, 6] ∧
    (0x77FFA : Word).toNat + 6 = start.params.appMaxSize.toNat ∧
    start.Accepts (programCalls start.params (0x77FFA : Word).toNat [1, 2, 3, 4, 5, 6]).length :=
  ⟨by decide, by decide, witness_lastBlock, by decide, by decide⟩

/-- Both outcomes of the comparison: over erased bytes, and over bytes AND cannot raise. -/
theorem witness_WriteBlockProgramsAndVerifies_outcomes :
    reply start ([0xF0, 0, 0, 0x7E, 0x40, 2] ++ lastBlock ++ [0x4D, 0xF7]) =
      some ([[4, 0xF0, 0, 0], [4, 0x7E, 0x40, 0x0F], [4, 2, 0, 0], [4, 0x1D, 0x7F, 0x7A], [6, 0x59, 0xF7, 0]], .responded) ∧
    reply { start with flash := [(0x0807FFFA, 0)] } ([0xF0, 0, 0, 0x7E, 0x40, 2] ++ lastBlock ++ [0x4D, 0xF7]) =
      some ([[4, 0xF0, 0, 0], [4, 0x7E, 0x40, 0x0E], [4, 2, 6, 0x6A], [5, 0xF7, 0, 0]], .responded) := by decide

/-- The first and the last unit refused. -/
theorem witness_WriteBlockRefusedUnit : start.mode = .bootloader ∧ (0x4D : Byte) = checksum (0x02 :: lastBlock) ∧
    BlockOperands lastBlock 0x77FFA [1, 2, 3, 4, 5, 6] ∧
    (0x77FFA : Word).toNat + 6 ≤ start.params.appMaxSize.toNat ∧
    (programCalls start.params (0x77FFA : Word).toNat [1, 2, 3, 4, 5, 6])[0]? = some (0x0807FFFA, [1, 2, 3, 4]) ∧
    ({ start with answers := [.fail] } : State).RefusesAt 0 ∧
    (programCalls start.params (0x77FFA : Word).toNat [1, 2, 3, 4, 5, 6])[1]? = some (0x0807FFFE, [5, 6, 0xFF, 0xFF]) ∧
    ({ start with answers := [.ok, .fail] } : State).RefusesAt 1 :=
  ⟨by decide, by decide, witness_lastBlock, by decide, by decide, by decide, by decide, by decide⟩

theorem witness_EraseAppErasesAll : start.mode = .bootloader ∧ (0x7C : Byte) = checksum (0x04 :: []) ∧
    start.Accepts start.params.sectors.length := by decide

/-- `start` with `k` accepted calls and then a refused one. -/
def refusing (k : Nat) : State := { start with answers := List.replicate k .ok ++ [.fail] }

theorem witness_EraseAppStopsAtRefusal : (refusing 0).mode = .bootloader ∧ (0x7C : Byte) = checksum (0x04 :: []) ∧
    (refusing 0).params.sectors[0]? = some ⟨2, 0x08008000, 0x4000⟩ ∧ (refusing 0).RefusesAt 0 ∧
    (refusing 5).params.sectors[5]? = some ⟨7, 0x08060000, 0x20000⟩ ∧ (refusing 5).RefusesAt 5 := by decide

theorem witness_JumpAppAcknowledgesAndSettles : start.mode = .bootloader ∧ start.landings = [] ∧
    (0x7B : Byte) = checksum (0x05 :: []) := by decide

theorem witness_ResponsesAreOffered : start.landings = [] ∧ ErrorCode.checksum ≠ .invalidAddr ∧
    ErrorCode.invalidCmd ≠ .invalidAddr := by decide

theorem witness_AcceptedResponseGoesOutWhole : (replyPackets start.params (ackMsg 0x04 0)).length = 5 ∧
    ({ start with answers := List.replicate 5 .ok } : State).Accepts 5 ∧
    ErrorCode.checksum ≠ .invalidAddr ∧ start.Accepts (replyPackets start.params (errorMsg 0x04 .checksum)).length ∧
    start.Accepts (replyPackets start.params (infoMsg start.params)).length := by decide

/-! The flash service. -/

theorem witness_EraseApplicationErases : start.Accepts start.params.sectors.length ∧
    (refusing 0).params.sectors[0]? = some ⟨2, 0x08008000, 0x4000⟩ ∧ (refusing 0).RefusesAt 0 ∧
    (refusing 5).params.sectors[5]? = some ⟨7, 0x08060000, 0x20000⟩ ∧ (refusing 5).RefusesAt 5 := by decide

theorem witness_EraseCoversRegionAndIsIdempotent : ∃ s u t : State, s.flash.wf ∧ s.Accepts s.params.sectors.length ∧
    exec .eraseApplication s = .next u ∧ u.Accepts s.params.sectors.length ∧ exec .eraseApplication u = .next t ∧
    s.params.appLo ≤ 0x08008000 ∧ 0x0807FFFF < s.params.appHi ∧ u.flash ≠ s.flash :=
  ⟨{ start with flash := image }, _, _, by decide, by decide, rfl, by decide, rfl, by decide, by decide, by decide⟩

/-- One byte at the end of the region is out of range; no bytes there are in range. -/
theorem witness_WriteFlashWithoutCalls :
    ((1 : Word).toNat ≤ [(0x01 : Byte)].length ∧ start.params.appMaxSize.toNat < (0x78000 : Word).toNat + (1 : Word).toNat) ∧
    (0 : Word).toNat ≤ ([] : List Byte).length ∧ (0x78000 : Word).toNat ≤ start.params.appMaxSize.toNat ∧
    (0 : Word).toNat = 0 := by decide

/-- Six bytes at the end of the region: accepted, and the first and the last unit refused. -/
theorem witness_WriteFlashPrograms :
    let data : List Byte := [1, 2, 3, 4, 5, 6]
    let calls := programCalls start.params (0x77FFA : Word).toNat (data.take (6 : Word).toNat)
    ((6 : Word).toNat ≤ data.length ∧ 0 < (6 : Word).toNat) ∧
    (0x77FFA : Word).toNat + (6 : Word).toNat ≤ start.params.appMaxSize.toNat ∧ start.Accepts calls.length ∧
    calls[0]? = some (0x0807FFFA, [1, 2, 3, 4]) ∧ (refusing 0).RefusesAt 0 ∧
    calls[1]? = some (0x0807FFFE, [5, 6, 0xFF, 0xFF]) ∧ (refusing 1).RefusesAt 1 := by decide

theorem witness_UnitsCarryDataAndPadding :
    (programCalls start.params 2 [1, 2, 3, 4, 5])[1]? = some (0x08008006, [5, 0xFF, 0xFF, 0xFF]) := by decide

/-- The example platform with STORE for AND. -/
def storing : State :=
  { start with platform := ⟨{ exampleParams with programSem := .store }, by decide⟩, flash := image }

/-- AND over erased bytes and STORE over others, at the end of the region, with the same data and with other data; and no data
at all. -/
theorem witness_WrittenDataVerifies :
    ((6 : Word).toNat = ([1, 2, 3, 4, 5, 6] : List Byte).length ∧ ([1, 2, 3, 4, 5, 7] : List Byte).length = 6 ∧
      (0x77FFA : Word).toNat + 6 = start.params.appMaxSize.toNat ∧
      start.Accepts (programCalls start.params (0x77FFA : Word).toNat [1, 2, 3, 4, 5, 6]).length ∧
      ∀ i < 6, start.flash.read (start.params.appLo + (0x77FFA : Word).toNat + i) = 0xFF) ∧
    (storing.Accepts (programCalls storing.params (0 : Word).toNat [1, 2, 3]).length ∧
      storing.params.programSem = .store) ∧
    (0 : Word).toNat = ([] : List Byte).length ∧ start.Accepts (programCalls start.params (0 : Word).toNat []).length := by
  decide

/-- Up to the end of the region, and one byte past it; a difference at the last byte. -/
theorem witness_VerifyFlashCompares : start.landings = [] ∧ (2 : Word).toNat ≤ [(0xFF : Byte), 0xFF].length ∧
    (0x77FFE : Word).toNat + (2 : Word).toNat ≤ start.params.appMaxSize.toNat ∧
    start.params.appMaxSize.toNat < (0x77FFF : Word).toNat + (2 : Word).toNat ∧
    (∀ i < [(0xFF : Byte)].length, start.flash.read (start.params.appLo + (0x77FFE : Word).toNat + i) = byteAt [0xFF] i) ∧
    start.flash.read (start.params.appLo + (0x77FFE : Word).toNat + 1) ≠ byteAt [0xFF, 0x00] 1 := by decide

theorem witness_Crc32IsPure : (4 : Word).toNat ≤ [(0x11 : Byte), 0x22, 0x33, 0x44].length := by decide

/-- The valid image; and a fault at either read. -/
theorem witness_CheckApplicationDecides :
    (start.landings = [] ∧ VectorsMapped start.params ∧ start.answer = .ok ∧ start.drawn.answer = .ok) ∧
    (refusing 0).answer = .fail ∧ (refusing 1).answer = .ok ∧ (refusing 1).drawn.answer = .fail := by decide

/-- `start` with the valid image but for the low bit of its reset vector (section 2.13, seventh row). -/
def evenImage : State := { start with flash := bytesFrom 0x08008000 [0x00, 0x00, 0x00, 0x20, 0x00, 0x00, 0x01, 0x08] }

theorem witness_EvenResetVectorIsRejected : evenImage.landings = [] ∧
    (evenImage.word (evenImage.params.appLo + 4)).toNat % 2 = 0 := by decide

/-- `start` with the valid image. -/
def withImage : State := { start with flash := image }

/-- With nothing landing, and with a packet before each of the six calls; in each mode. -/
theorem witness_JumpToApplicationJumps : ∀ m ∈ [Mode.boot, .bootloader, .settle, .jumped],
    ∀ ls ∈ [[], (List.replicate 6 [Landing.packet ⟨4, 1, 2, 3⟩, .call]).flatten],
      let s : State := { withImage with mode := m, landings := ls }
      (∀ l ∈ s.landings, l = .call ∨ ∃ p ∈ packetsOf s.landings, l = .packet p) ∧ s.answers.take 2 = [.ok, .ok] ∧
        VectorsMapped s.params ∧ validTable s.params s.vectorTable = true := by decide

theorem witness_JumpToApplicationRemains : start.landings = [] ∧ validTable start.params start.vectorTable = false ∧
    (refusing 0).answer = .fail ∧ (refusing 1).drawn.answer = .fail := by decide

/-! The entry controller. -/

/-- The valid image and erased flash; a fault at the first read and at the second; another mode. -/
theorem witness_SettleDoneJumpsOrReturns :
    (∀ m ∈ [image, []], let s : State := { start with mode := .settle, flash := m }
      s.mode = .settle ∧ s.Accepts 2 ∧ VectorsMapped s.params) ∧
    (let s : State := { refusing 0 with mode := .settle }
     s.mode = .settle ∧ s.landings = [] ∧ s.answer = .fail) ∧
    (let s : State := { refusing 1 with mode := .settle }
     s.mode = .settle ∧ s.landings = [] ∧ s.drawn.answer = .fail) ∧ start.mode ≠ .settle := by decide

theorem witness_BootStepHonoursRequest : let s := booting 0xB00710AD image
    s.mode = .boot ∧ s.landings = [] ∧ s.pflag = s.params.magic := by decide

/-- One bit off the sentinel; erased flash and the valid image. -/
theorem witness_BootStepChecksApplication :
    (let s := booting 0xB00710AC []
     s.mode = .boot ∧ s.pflag ≠ s.params.magic ∧ VectorsMapped s.params ∧ s.Accepts 2 ∧
       validTable s.params s.vectorTable = false) ∧
    let s := booting 0xB00710AC image
    s.mode = .boot ∧ s.pflag ≠ s.params.magic ∧ VectorsMapped s.params ∧ s.Accepts 4 ∧
      validTable s.params s.vectorTable = true := by decide

/-- A fault at each of the two reads of the check, and at each of the two of the jump's re-validation; another mode. -/
theorem witness_BootStepStaysOnFault :
    (∀ as ∈ [[Answer.fail], [.ok, .fail]], let s : State := { booting 0 image with answers := as }
     s.mode = .boot ∧ s.landings = [] ∧ s.pflag ≠ s.params.magic ∧ (s.answer = .fail ∨ s.drawn.answer = .fail)) ∧
    (∀ as ∈ [[Answer.ok, .ok, .fail], [.ok, .ok, .ok, .fail]], let s : State := { booting 0 image with answers := as }
     s.mode = .boot ∧ s.pflag ≠ s.params.magic ∧ s.Accepts 2 ∧ VectorsMapped s.params ∧
       validTable s.params s.vectorTable = true ∧
       (s.afterVectorReads.answer = .fail ∨ s.afterVectorReads.drawn.answer = .fail)) ∧ start.mode ≠ .boot := by decide

theorem witness_RequestEntryWritesFlagAndResets : start.landings = [] ∧ (booting 0 image).landings = [] := by decide

/-- Between the two boots a QUERY is received, and a soft reset made. -/
theorem witness_RequestIsOneShot : ∃ s u t v w : State, OwnTurn s u ∧ u.landings = [] ∧ s.mode = .boot ∧
    s.pflag = s.params.magic ∧ step s = .next t ∧ Host.Core.run Sys2Proof.core 4 t = .next v ∧ v.pflag = t.pflag ∧
    v.mode = .boot ∧ OwnTurn v w ∧ w.Accepts 4 ∧ VectorsMapped v.params ∧ validTable v.params v.vectorTable = true :=
  ⟨{ booting 0xB00710AD image with
      turns := [.own [], .packet ⟨0x04, 0xF0, 0, 0⟩, .packet ⟨0x04, 0x7E, 0x40, 0x01⟩, .packet ⟨0x06, 0x7F, 0xF7, 0⟩,
        .reset .soft, .own []] }, _, _, _, _, .inr ⟨_, _, rfl, rfl⟩, rfl, rfl, rfl, rfl, rfl, by decide, by decide,
    .inr ⟨_, _, rfl, rfl⟩, by decide, by decide, by decide⟩

/-! Resets. -/

theorem witness_ResetValues : ({ start with turns := [.reset .soft] } : State).turns = .reset .soft :: [] ∧
    ({ start with turns := [.reset (.powerOn 5)] } : State).turns = .reset (.powerOn 5) :: [] := by decide

/-- At the first sector and at the last, at the first unit and at the last, before the call and during it. -/
theorem witness_ResetInsideFlashCommand : ∀ during ∈ [false, true], ∀ kind ∈ [ResetKind.soft, .powerOn 7],
    (∀ k ∈ [0, 5], let s : State :=
        { withImage with landings := List.replicate (k + 1) .call ++ .reset during kind :: [] }
     s.mode = .bootloader ∧ (0x7C : Byte) = checksum (0x04 :: []) ∧ s.params.sectors[k]?.isSome ∧
       s.answers.take k = List.replicate k .ok ∧
       s.landings = List.replicate (k + 1) .call ++ .reset during kind :: []) ∧
    ∀ k ∈ [0, 1], let s : State := { start with landings := List.replicate (k + 1) .call ++ .reset during kind :: [] }
    s.mode = .bootloader ∧ (0x4D : Byte) = checksum (0x02 :: lastBlock) ∧
      (0x77FFA : Word).toNat + 6 ≤ s.params.appMaxSize.toNat ∧
      (programCalls s.params (0x77FFA : Word).toNat [1, 2, 3, 4, 5, 6])[k]?.isSome ∧
      s.answers.take k = List.replicate k .ok ∧
      s.landings = List.replicate (k + 1) .call ++ .reset during kind :: [] := by decide

theorem witness_UnsetEntryReasonIsRefused : (booting 0 []).entryReason = none ∧ start.entryReason = some .noApp := by decide

/-! The whole machine. -/

theorem start_inv : start.Inv :=
  ⟨by decide, by decide, by decide, by decide, by decide, by decide, by decide⟩

/-- An erase of a flash that holds the valid image. -/
theorem witness_StepKeepsInvariant : ∃ s t : State, s.Inv ∧ step s = .next t ∧ t.flash ≠ s.flash :=
  ⟨{ withImage with msgQ := [[0xF0, 0, 0, 0x7E, 0x40, 0x04, 0x7C, 0xF7]] }, _,
    ⟨by decide, by decide, by decide, by decide, by decide, by decide, by decide⟩, rfl, by decide⟩

/-- The bytes next to the region, where the same erase runs. -/
theorem witness_FlashChangesOnlyInside : ∃ s t : State, step s = .next t ∧ ¬ Touchable s.params 0x08007FFF ∧
    ¬ Touchable s.params 0x08080003 ∧ t.flash ≠ s.flash := by
  refine ⟨{ withImage with msgQ := [[0xF0, 0, 0, 0x7E, 0x40, 0x04, 0x7C, 0xF7]] }, _, rfl, ?_, ?_, by decide⟩ <;>
    unfold Touchable <;> decide

theorem witness_JumpsOnlyIntoValidImage : ∃ s t : State, step s = .next t ∧ s.mode ≠ .jumped ∧ t.mode = .jumped :=
  ⟨{ withImage with mode := .settle }, _, rfl, by decide, by decide⟩

/-- Each of the ways the flag changes. -/
theorem witness_FlagChangesOnlyByItsRules :
    (∃ s t : State, s.landings = [] ∧ step s = .next t ∧ t.pflag ≠ s.pflag ∧ s.turns = []) ∧
    ∀ turn ∈ [.requestEntry, .call .requestEntry, .own [.call, .request true], .reset (.powerOn 5),
        .own [.reset false (.powerOn 5)]],
      ∃ s t : State, s.landings = [] ∧ step s = .next t ∧ t.pflag ≠ s.pflag ∧ s.turns.head? = some turn := by
  refine ⟨⟨booting 0xB00710AD image, _, rfl, rfl, by decide, rfl⟩, fun turn h => ?_⟩
  refine ⟨{ start with msgQ := [queryMsg], turns := [turn] }, ?_⟩
  simp only [List.mem_cons, List.not_mem_nil, or_false] at h
  rcases h with rfl | rfl | rfl | rfl | rfl <;> exact ⟨_, rfl, rfl, by decide, rfl⟩

/-- Kept by a command, and unset by a reset. -/
theorem witness_EntryReasonIsReadOnly :
    (∃ s t : State, s.mode ≠ .boot ∧ s.entryReason = some .noApp ∧ step s = .next t ∧ t.entryReason = some .noApp) ∧
    ∃ s t : State, s.mode ≠ .boot ∧ s.entryReason = some .noApp ∧ step s = .next t ∧ t.entryReason = none :=
  ⟨⟨{ start with msgQ := [queryMsg] }, _, by decide, rfl, rfl, rfl⟩,
    ⟨{ start with turns := [.reset .soft] }, _, by decide, rfl, rfl, rfl⟩⟩

/-- Packets that complete a message between two calls, with room in the queue and without. -/
theorem witness_PacketsInsideCommand : ∀ q ∈ [[], [queryMsg]],
    let s : State := { start with
      rxBuf := [0xF0, 0x01], msgQ := q, landings := [.call, .packet ⟨0x05, 0xF7, 0, 0⟩, .packet ⟨0x09, 0x90, 0x3C, 0x7F⟩] }
    s.mode = .bootloader ∧ (∀ l ∈ s.landings, l = .call ∨ ∃ p ∈ packetsOf s.landings, l = .packet p) ∧
      (next? (exec (commandOf .standard 0x01 [] 0x7F) { s with landings := [] })).isSome := by decide

/-! ## What lands inside a step -/

/-- R254: a message completed while SVC serves another waits in `msg_q`; the packet is recorded between the calls. -/
theorem test_packet_inside_step : (next? (step { start with
    msgQ := [[0xF0, 0, 0, 0x7E, 0x40, 0x09, 0x77, 0xF7]]
    turns := [.own [.call, .call, .packet ⟨0x06, 0xF0, 0xF7, 0⟩, .call]] })).map
      (fun t => (t.msgQ, t.rxLen, t.trace[2]?, t.trace.length)) =
    some ([[0xF0, 0xF7]], 0, some (.received ⟨0x06, 0xF0, 0xF7, 0⟩), 5) := by decide
/-- R211: a packet is taken before `DisableInterrupts`, and none after it. -/
theorem test_packet_at_jump : (next? (step { start with
    mode := .settle, flash := image
    turns := [.own [.call, .call, .packet ⟨4, 1, 2, 3⟩, .call, .packet ⟨4, 4, 5, 6⟩, .call]] })).map
      (fun t => (t.mode, t.rxBuf)) = some (.jumped, [1, 2, 3]) := by decide
/-- R20: no packet is seen while the BOOT step runs. -/
theorem test_packet_at_boot : (next? (step { booting 0 [] with turns := [.own [.call, .packet ⟨4, 1, 2, 3⟩]] })).map
    (fun t => (t.mode, t.rxBuf)) = some (.bootloader, []) := by decide
/-- `request_entry` after the first sector's erase: the flag is written, and that sector's image is gone. -/
theorem test_request_inside_erase : (next? (step { start with
    flash := image, msgQ := [[0xF0, 0, 0, 0x7E, 0x40, 0x04, 0x7C, 0xF7]]
    turns := [.own [.call, .call, .request false]] })).map
      (fun t => (t.mode, t.pflag, t.flashLock, t.word 0x08008000)) =
    some (.boot, 0xB00710AD, .locked, 0xFFFFFFFF) := by decide

end Sys2Proof.Tests
end

section
/-! PROOFS. The schedule: what a step fetches for each turn, and that it runs what it fetched (Fetch.lean, Step.lean). -/

namespace Sys2Proof.Machine

variable {s t u : State}

/-! ## The schedule -/

/-- A step runs the instruction it fetches, in the state fetching leaves. -/
theorem step_of_fetch_run {i : Instr} (h : fetch s = .run i t) : step s = endStep (exec i t) := by
  simp only [step, h]

/-- A pending turn is taken off the schedule, and decides what is fetched. -/
theorem fetch_of_turns_cons {tn : Turn} {rest : List Turn} (h : s.turns = tn :: rest) :
    fetch s = fetchTurn tn (s.setTurns rest) := by
  simp only [fetch, h]

/-- On the block's own turn, pending or by default, its own enabled step is fetched. -/
theorem fetch_of_ownTurn (h : OwnTurn s u) : fetch s = fetchOwn u := by
  rcases h with ⟨hnone, rfl⟩ | ⟨ls, rest, hown, rfl⟩
  · simp only [fetch, hnone]
  · rw [fetch_of_turns_cons hown, fetchTurn]

/-- What found no call to land at is dropped when the step ends (notes/assumptions/9.md). -/
theorem endStep_of_next (t : State) : endStep (.next t) = .next { t with landings := [] } := rfl

/-! ## The block's own turn changes the schedule and the landings alone -/

theorem OwnTurn.mode_eq (h : OwnTurn s u) : u.mode = s.mode := by
  rcases h with ⟨-, rfl⟩ | ⟨ls, rest, -, rfl⟩ <;> rfl

theorem OwnTurn.msgQ_eq (h : OwnTurn s u) : u.msgQ = s.msgQ := by
  rcases h with ⟨-, rfl⟩ | ⟨ls, rest, -, rfl⟩ <;> rfl

/-! ## What each kind of turn fetches -/

/-- R80, R130: a packet's four bytes always decode, to its instruction. -/
theorem decode_packet_bytes (ps : Params) (p : Packet) : decode ps .packet p.bytes = .ok (decodePacket p) := rfl

/-- R150, R156: SVC dequeues the head message, and runs its command where it decodes. The request decoder reads no
parameter, so any `ps` will do. -/
theorem fetchOwn_of_request {ps : Params} {m : List Byte} {q : List (List Byte)} {i : Instr}
    (hmode : u.mode = .bootloader) (hq : u.msgQ = m :: q) (hdec : decode ps .request m = .ok i) :
    fetchOwn u = .run i (u.setMsgQ q) := by
  have hdec' : decode u.params .request m = .ok i := hdec
  simp only [fetchOwn, hmode, hq, hdec']

theorem fetchResponse_of_decode {m : List Byte} {i : Instr} (hmode : u.mode = .bootloader)
    (hdec : decode u.params .response m = .ok i) : fetchResponse m u = .run i u := by
  simp only [fetchResponse, if_pos hmode, hdec]

theorem fetchCall_of_internal {i : Instr} (hmode : u.mode = .bootloader) (hint : i.format = .internal) :
    fetchCall i u = .run i u := by
  simp only [fetchCall, if_pos hint, if_pos hmode]

/-- Settles O7: for each kind of turn, what it fetches, and that the step runs it. -/
theorem stepRunsDecodedInstruction : Obligations.StepRunsDecodedInstruction := by
  refine ⟨?packet, ?own, ?respond, ?call, ?requestEntry, endStep_of_next⟩
  case packet =>
    intro s p rest hturns
    exact ⟨decode_packet_bytes s.params p, step_of_fetch_run (fetch_of_turns_cons hturns)⟩
  case own =>
    intro s u m q i hown hmode hq hdec
    have hfetch : fetchOwn u = .run i (u.setMsgQ q) :=
      fetchOwn_of_request (hown.mode_eq.trans hmode) (hown.msgQ_eq.trans hq) hdec
    exact step_of_fetch_run ((fetch_of_ownTurn hown).trans hfetch)
  case respond =>
    intro s m i rest hturns hmode hdec
    have hfetch : fetchResponse m (s.setTurns rest) = .run i (s.setTurns rest) := fetchResponse_of_decode hmode hdec
    exact step_of_fetch_run ((fetch_of_turns_cons hturns).trans hfetch)
  case call =>
    intro s i rest hturns hmode hint
    have hfetch : fetchCall i (s.setTurns rest) = .run i (s.setTurns rest) := fetchCall_of_internal hmode hint
    exact step_of_fetch_run ((fetch_of_turns_cons hturns).trans hfetch)
  case requestEntry =>
    intro s rest hturns
    exact step_of_fetch_run (fetch_of_turns_cons hturns)

end Sys2Proof.Machine
end

section
/-! PROOFS. The invariant holds at reset and every step keeps it (R24 to R27, R35, R190). -/

namespace Sys2Proof.Machine

variable {s t u w : State}

/-! ## Every step, by the state it ends in -/

/-- What an instruction makes of the state it runs in, the flag apart: it runs to its end and has moved the state, it is the
boot decision run to its end, or it ends in a reset, its own or one that landed inside it. -/
inductive Advanced (s w : State) : Prop where
  | moved (h : Moved s w)
  | booted (mode : s.mode = .boot) (h : Booted s w)
  | reset (m : State) (k : ResetKind) (kept : Kept s m) (ends : w = m.afterReset k)

/-- R233, R280: what lands is a reset; `request_entry` is one whose flag write and calls leave configuration and flash
alone. -/
theorem Landed.eq_afterReset {m : State} (h : Landed s m t) :
    ∃ (n : State) (k : ResetKind), n.platform = m.platform ∧ n.flash = m.flash ∧ t = n.afterReset k := by
  rcases h with ⟨_, k, _, rfl⟩ | ⟨_, _, rfl⟩
  · exact ⟨m, k, rfl, rfl, rfl⟩
  · exact ⟨((m.setPflag m.params.magic).emit (.memWrite m.params.flagAddr.toNat 4 m.params.magic)).emit .systemReset,
      .soft, rfl, rfl, rfl⟩

/-- A reset that landed in a state which kept what is kept. -/
theorem Landed.advanced {m : State} (h : Landed s m t) (hm : Kept s m) : Advanced s t := by
  obtain ⟨n, k, hplatform, hflash, hends⟩ := h.eq_afterReset
  have hn : Kept s n :=
    ⟨hplatform.trans hm.platform, fun hw => hflash ▸ hm.wf hw, fun a ha => hflash ▸ hm.outside a ha⟩
  exact .reset n k hn hends

theorem exec_advances {i : Instr} (h : exec i s = .next w) (hj : s.mode = .boot → i ≠ .jumpToApplication) :
    Advanced s w := by
  rcases exec_does h hj with hmoved | ⟨m, hm, -, hl⟩ | ⟨-, hboot, hb | ⟨m, hm, -, hl⟩⟩ | ⟨-, m, hm, -, hends⟩
  · exact .moved hmoved
  · exact hl.advanced hm
  · exact .booted hboot hb
  · exact hl.advanced hm
  · exact .reset m .soft hm hends

/-- Every step prepares a state, advances it, and drops what found no call to land at. -/
theorem step_advances (h : step s = .next t) : ∃ u w, Prepared s u ∧ Advanced u w ∧ t = w.setLandings [] := by
  obtain ⟨u, hp, hdoes⟩ := step_does h
  cases hdoes with
  | ran i w run ends _ noJump => exact ⟨u, w, hp, exec_advances run noJump, ends⟩
  | idle ends => exact ⟨u, u, hp, .moved (.refl u), ends⟩
  | ignored ends => exact ⟨u, _, hp, .moved ((Moved.refl u).setStatus .ignored), ends⟩
  | reset k _ ends => exact ⟨u, _, hp, .reset u k (.refl u) rfl, by rw [ends]; cases k <;> rfl⟩

/-! ## The invariant while a step runs -/

/-- The invariant without its last clause: what also holds in the state a step runs its instruction in, where something may
be waiting to land. -/
structure State.Sound (s : State) : Prop where
  flash_wf : s.flash.wf
  bounds : s.RxBounds
  locked : s.flashLock = .locked
  reason_set : s.entryReason = none ↔ s.mode = .boot

theorem State.inv_iff : s.Inv ↔ s.Sound ∧ s.landings = [] := by
  constructor
  · rintro ⟨hwf, hrx, hqueue, hmessages, hlocked, hreason, hlandings⟩
    exact ⟨⟨hwf, ⟨hrx, hqueue, hmessages⟩, hlocked, hreason⟩, hlandings⟩
  · rintro ⟨⟨hwf, ⟨hrx, hqueue, hmessages⟩, hlocked, hreason⟩, hlandings⟩
    exact ⟨hwf, hrx, hqueue, hmessages, hlocked, hreason, hlandings⟩

theorem State.Sound.inv_setLandings_nil (h : s.Sound) : (s.setLandings []).Inv :=
  State.inv_iff.mpr ⟨⟨h.flash_wf, h.bounds.of_eq rfl rfl rfl, h.locked, h.reason_set⟩, rfl⟩

/-- The receive side is within its bounds when it is empty. -/
theorem State.RxBounds.of_empty (hbuf : s.rxBuf = []) (hq : s.msgQ = []) : s.RxBounds :=
  ⟨by simp [hbuf], by simp [hq], by simp [hq]⟩

/-- R35: a reset makes any state sound whose memory is in its canonical form. -/
theorem State.sound_afterReset (h : s.flash.wf) (k : ResetKind) : (s.afterReset k).Sound where
  flash_wf := by simpa only [State.afterReset_flash] using h
  bounds := .of_empty (by simp) (by simp)
  locked := by simp
  reason_set := by simp

theorem Prepared.sound (hp : Prepared s u) (h : s.Sound) : u.Sound where
  flash_wf := by rw [hp.flash]; exact h.flash_wf
  bounds := hp.bounds h.bounds
  locked := hp.lock.trans h.locked
  reason_set := by rw [hp.reason, hp.mode]; exact h.reason_set

/-- No instruction but the boot decision leaves mode BOOT, or enters it, without a reset. -/
theorem Moved.mode_boot_iff (h : Moved s w) : w.mode = .boot ↔ s.mode = .boot := by
  rcases h.mode with heq | ⟨hs, hw | hw⟩ | ⟨hs, hw, -⟩
  · rw [heq]
  all_goals simp [hs, hw]

theorem Moved.sound (hm : Moved s w) (h : s.Sound) : w.Sound where
  flash_wf := hm.wf h.flash_wf
  bounds := hm.bounds h.bounds
  locked := hm.lock h.locked
  reason_set := by rw [hm.reason, hm.mode_boot_iff]; exact h.reason_set

theorem Booted.mode_ne_boot (h : Booted s w) : w.mode ≠ .boot := by
  rcases h.mode with hw | ⟨hw, -⟩ <;> simp [hw]

theorem Booted.sound (hb : Booted s w) (h : s.Sound) : w.Sound where
  flash_wf := by rw [hb.flash]; exact h.flash_wf
  bounds := hb.bounds h.bounds
  locked := hb.lock.trans h.locked
  reason_set := iff_of_false hb.reason hb.mode_ne_boot

theorem Advanced.sound (ha : Advanced s w) (h : s.Sound) : w.Sound := by
  cases ha with
  | moved hm => exact hm.sound h
  | booted _ hb => exact hb.sound h
  | reset m k hm ends => exact ends ▸ State.sound_afterReset (hm.wf h.flash_wf) k

theorem Advanced.platform (ha : Advanced s w) : w.platform = s.platform := by
  cases ha with
  | moved hm => exact hm.platform
  | booted _ hb => exact hb.platform
  | reset m k hm ends => rw [ends, State.afterReset_platform, hm.platform]

/-- Settles O55: preparing the state, the instruction, and the end of the step each keep the invariant and the
configuration. -/
theorem stepKeepsInvariant : Obligations.StepKeepsInvariant := by
  intro s t hinv hstep
  obtain ⟨u, w, hp, ha, rfl⟩ := step_advances hstep
  have hs : s.Sound := (State.inv_iff.mp hinv).1
  have hw : w.Sound := ha.sound (hp.sound hs)
  exact ⟨hw.inv_setLandings_nil, ha.platform.trans hp.platform⟩

/-- Settles O54: launch flash is empty, and every other element of the invariant has its value of R35. -/
theorem resetMeetsInvariant : Obligations.ResetMeetsInvariant :=
  State.inv_iff.mpr
    ⟨{ flash_wf := Memory.wf_nil, bounds := .of_empty rfl rfl, locked := rfl, reason_set := iff_of_true rfl rfl }, rfl⟩

end Sys2Proof.Machine
end

section
/-! PROOFS. What writes the entry reason and the flag (R27, R29, R35, R230, R233). -/

namespace Sys2Proof.Machine

variable {s t u w m : State}

/-! ## The entry reason -/

/-- Outside BOOT an instruction leaves the entry reason alone, or a reset unsets it (R27, R35). -/
theorem Advanced.reason_kept_or_reset (h : Advanced s w) (hs : s.mode ≠ .boot) :
    w.entryReason = s.entryReason ∨ (w.mode = .boot ∧ w.entryReason = none) := by
  cases h with
  | moved hm => exact .inl hm.reason
  | booted mode _ => exact absurd mode hs
  | reset m k _ ends => exact .inr (by simp [ends])

/-- Settles O59: only the boot decision sets the reason, and only a reset unsets it. -/
theorem entryReasonIsReadOnly : Obligations.EntryReasonIsReadOnly := by
  intro s t r hmode hreason hstep
  obtain ⟨u, w, hp, ha, rfl⟩ := step_advances hstep
  have hu : u.mode ≠ .boot := by rw [hp.mode]; exact hmode
  have hur : u.entryReason = some r := hp.reason.trans hreason
  simpa only [State.setLandings_entryReason, State.setLandings_mode, hur] using ha.reason_kept_or_reset hu

/-- Settles O53: by whether the reason is set. -/
theorem unsetEntryReasonIsRefused : Obligations.UnsetEntryReasonIsRefused := by
  intro s
  constructor
  · intro hunset
    simp only [State.readEntryReason, hunset]
  · intro r hset
    simp only [State.readEntryReason, hset]

/-! ## The flag -/

/-- The flag after what landed: as it was, as a power-on reset brought it, or the sentinel of `request_entry`. -/
theorem Landed.pflag_cases (h : Landed s m t) : t.pflag = m.pflag ∨
    (∃ d, .request d ∈ s.landings ∧ t.pflag = m.params.magic) ∨ ∃ d, .reset d (.powerOn t.pflag) ∈ s.landings := by
  rcases h with ⟨d, k, hmem, rfl⟩ | ⟨d, hmem, rfl⟩
  · cases k with
    | soft => exact .inl rfl
    | powerOn flag => exact .inr (.inr ⟨d, hmem⟩)
  · exact .inr (.inl ⟨d, hmem, rfl⟩)

/-- R29: how an instruction can change the flag. -/
inductive FlagWritten (i : Instr) (s w : State) : Prop where
  /-- the boot decision clears the sentinel (R230) -/
  | cleared (mode : s.mode = .boot) (was : s.pflag = s.params.magic) (now : w.pflag = s.params.magicClear)
  /-- RequestEntry writes it (R233) -/
  | requested (instr : i = .requestEntry) (now : w.pflag = s.params.magic)
  /-- `request_entry` lands inside the step and writes it (R233) -/
  | requestLanded (d : Bool) (landed : .request d ∈ s.landings) (now : w.pflag = s.params.magic)
  /-- a power-on reset lands inside the step and brings a value (R35) -/
  | powerOnLanded (d : Bool) (landed : .reset d (.powerOn w.pflag) ∈ s.landings)

/-- Where a reset landed in a state whose flag was still the first one's, only what landed changed it. -/
theorem Landed.flagWritten {i : Instr} (h : Landed s m w) (hm : Kept s m) (hflag : m.pflag = s.pflag)
    (hne : w.pflag ≠ s.pflag) : FlagWritten i s w := by
  rcases h.pflag_cases with hsame | ⟨d, hmem, hnow⟩ | ⟨d, hmem⟩
  · exact absurd (hsame.trans hflag) hne
  · exact .requestLanded d hmem (by rw [hnow, State.params, hm.platform, State.params])
  · exact .powerOnLanded d hmem

/-- Where it landed after the boot decision had cleared the flag, that is the value a soft reset keeps. -/
theorem Landed.flagWritten_of_cleared {i : Instr} (h : Landed s m w) (hm : Kept s m) (mode : s.mode = .boot)
    (was : s.pflag = s.params.magic) (cleared : m.pflag = s.params.magicClear) : FlagWritten i s w := by
  rcases h.pflag_cases with hsame | ⟨d, hmem, hnow⟩ | ⟨d, hmem⟩
  · exact .cleared mode was (hsame.trans cleared)
  · exact .requestLanded d hmem (by rw [hnow, State.params, hm.platform, State.params])
  · exact .powerOnLanded d hmem

theorem exec_flagWritten {i : Instr} (h : exec i s = .next w) (hj : s.mode = .boot → i ≠ .jumpToApplication)
    (hne : w.pflag ≠ s.pflag) : FlagWritten i s w := by
  rcases exec_does h hj with hmoved | ⟨m, hm, hflag, hl⟩ | ⟨-, mode, hb | ⟨m, hm, hflag, hl⟩⟩ | ⟨hi, m, -, hflag, hends⟩
  · exact absurd hmoved.pflag hne
  · exact hl.flagWritten hm hflag hne
  · rcases hb.pflag with hsame | ⟨was, now⟩
    · exact absurd hsame hne
    · exact .cleared mode was now
  · rcases hflag with hflag | ⟨was, cleared⟩
    · exact hl.flagWritten hm hflag hne
    · exact hl.flagWritten_of_cleared hm mode was cleared
  · exact .requested hi (by rw [hends, State.afterReset_soft_pflag, hflag])

theorem Prepared.params (hp : Prepared s u) : u.params = s.params := by simp only [State.params, hp.platform]

/-- With nothing waiting between steps, what lands inside a step stands in the step's own turn. -/
theorem Prepared.landing_of_turn (hp : Prepared s u) (hs : s.landings = []) {l : Landing} (hl : l ∈ u.landings) :
    ∃ ls, s.turns.head? = some (.own ls) ∧ l ∈ ls := by
  rcases hp.landings with hsame | ⟨ls, hturn, hls⟩
  · rw [hsame, hs] at hl; cases hl
  · exact ⟨ls, hturn, hls ▸ hl⟩

/-- Settles O58: each way an instruction, or a reset between two, can write the flag is one of R29's. -/
theorem flagChangesOnlyByItsRules : Obligations.FlagChangesOnlyByItsRules := by
  intro s t hlandings hstep hne
  obtain ⟨u, hp, hdoes⟩ := step_does hstep
  rw [← hp.pflag] at hne
  cases hdoes with
  | idle ends => exact absurd (congrArg State.pflag ends) hne
  | ignored ends => exact absurd (congrArg State.pflag ends) hne
  | reset k turn ends =>
    subst ends
    cases k with
    | soft => exact absurd rfl hne
    | powerOn flag => exact .inr (.inr (.inr (.inl turn)))
  | ran i w run ends request noJump =>
    have hflag : t.pflag = w.pflag := by rw [ends, State.setLandings_pflag]
    rw [hflag] at hne ⊢
    rw [← hp.params, ← hp.pflag, ← hp.mode]
    cases exec_flagWritten run noJump hne with
    | cleared mode was now => exact .inl ⟨mode, was, now⟩
    | requested instr now => exact .inr (.inl ⟨now, request instr⟩)
    | requestLanded d landed now =>
      obtain ⟨ls, hturn, hmem⟩ := hp.landing_of_turn hlandings landed
      exact .inr (.inr (.inl ⟨now, ls, d, hturn, hmem⟩))
    | powerOnLanded d landed =>
      obtain ⟨ls, hturn, hmem⟩ := hp.landing_of_turn hlandings landed
      exact .inr (.inr (.inr (.inr ⟨ls, d, hturn, hmem⟩)))

end Sys2Proof.Machine
end

section
/-! PROOFS. What the block's own turn runs in each mode (R20, R150, R163, R232), the step that a reset is (R35), and the frame
all commands run in (R150). -/

namespace Sys2Proof.Machine

variable {s t u : State}

/-! ## The own step of each mode -/

/-- A step that finds no instruction to run ends in the state fetching leaves. -/
theorem step_of_fetch_idle (h : fetch s = .idle t) : step s = .next { t with landings := [] } := by
  simp only [step, h, endStep_of_next]

theorem fetchOwn_of_boot (h : u.mode = .boot) : fetchOwn u = .run .bootStep u := by simp only [fetchOwn, h]

theorem fetchOwn_of_settle (h : u.mode = .settle) : fetchOwn u = .run .settleDone u := by simp only [fetchOwn, h]

theorem fetchOwn_of_jumped (h : u.mode = .jumped) : fetchOwn u = .idle u := by simp only [fetchOwn, h]

/-- R150: with no message SVC waits. -/
theorem fetchOwn_of_empty_queue (h : u.mode = .bootloader) (hq : u.msgQ = []) : fetchOwn u = .idle u := by
  simp only [fetchOwn, h, hq]

/-- Settles O8: what the block's own turn fetches in each mode, and that the step runs it. -/
theorem ownStepOfEachMode : Obligations.OwnStepOfEachMode := by
  intro s u hown
  rw [← hown.mode_eq, ← hown.msgQ_eq]
  refine ⟨?boot, ?settle, ?jumped, ?waiting⟩
  case boot =>
    intro hmode
    exact step_of_fetch_run ((fetch_of_ownTurn hown).trans (fetchOwn_of_boot hmode))
  case settle =>
    intro hmode
    exact step_of_fetch_run ((fetch_of_ownTurn hown).trans (fetchOwn_of_settle hmode))
  case jumped =>
    intro hmode
    exact step_of_fetch_idle ((fetch_of_ownTurn hown).trans (fetchOwn_of_jumped hmode))
  case waiting =>
    intro hmode hq
    exact step_of_fetch_idle ((fetch_of_ownTurn hown).trans (fetchOwn_of_empty_queue hmode hq))

/-! ## A reset turn -/

/-- R35, R280: every element after a reset of a state that differs from `s` in the schedule alone. -/
theorem resetTo_afterReset_setTurns (s : State) (rest : List Turn) (k : ResetKind) :
    ResetTo s ((s.setTurns rest).afterReset k) k [] where
  mode := by simp
  rxLen := by simp [State.rxLen]
  msgQ := by simp
  flashLock := by simp
  entryReason := by simp
  lastStatus := by simp
  soft := by rintro rfl; simp
  powerOn := by rintro flag rfl; simp

/-- Settles O51: the step of a reset turn is the reset and nothing else. -/
theorem resetValues : Obligations.ResetValues := by
  intro s k rest hturns
  have hfetch : fetch s = .idle ((s.setTurns rest).afterReset k) := fetch_of_turns_cons hturns
  have hstep : step s = .next ((s.setTurns rest).afterReset k) := by
    rw [step_of_fetch_idle hfetch]; cases k <;> rfl
  exact ⟨_, hstep, resetTo_afterReset_setTurns s rest k, by simp⟩

/-! ## Commands -/

/-- R150: outside BOOTLOADER a command's frame does nothing. -/
theorem serve_of_ne_bootloader (h : s.mode ≠ .bootloader) (cmd : Byte) (payload : List Byte) (chk : Byte)
    (body : State → Run SvcStatus) : serve cmd payload chk body s = s := by
  simp only [serve, if_neg h]

/-- R150, R155: every command runs in the one frame, known or not. -/
theorem exec_commandOf_eq_serve (dev : DevId) (cmd : Byte) (payload : List Byte) (chk : Byte) (s : State) :
    ∃ body, exec (commandOf dev cmd payload chk) s = .next (serve cmd payload chk body s) := by
  unfold commandOf
  split
  · subst cmd; exact ⟨_, rfl⟩
  split
  · subst cmd; exact ⟨_, rfl⟩
  split
  · subst cmd; exact ⟨_, rfl⟩
  split
  · subst cmd; exact ⟨_, rfl⟩
  · exact ⟨_, rfl⟩

/-- Settles O21: every command runs in `serve`, which begins with the mode. -/
theorem commandsOnlyInBootloader : Obligations.CommandsOnlyInBootloader := by
  intro s dev cmd payload chk hmode
  obtain ⟨body, hexec⟩ := exec_commandOf_eq_serve dev cmd payload chk s
  rw [hexec, serve_of_ne_bootloader hmode]

end Sys2Proof.Machine
end

section
/-! PROOFS. Reception: a packet's instruction is its RX step (R130 to R134, R137), where RX does not step (R20), and RX_CIN4 at
the capacity (R24, R135). -/

namespace Sys2Proof.Machine

variable {s : State}

/-- R80, R81: a packet is its header's cable and CIN and its three bytes. -/
theorem packetOf_header (p : Packet) : packetOf (headerCable p.hdr) (headerCin p.hdr) p.b0 p.b1 p.b2 = p := by
  simp only [packetOf, header_eq]

theorem cin_eq_of_high (c : BitVec 4) (h : c.getLsbD 3 = true) : (1 : BitVec 1) ++ c.extractLsb 2 0 = c := by
  revert c; decide

theorem cin_eq_of_low (c : BitVec 4) (h4 : c ≠ 4) (h5 : c ≠ 5) (h6 : c ≠ 6) (h7 : c ≠ 7) (h : c.getLsbD 3 = false) :
    (0 : BitVec 2) ++ c.extractLsb 1 0 = c := by
  revert c; decide

/-! What a packet does, by its CIN (R131 to R134, R137). -/

theorem accept_of_cin4 {p : Packet} (h : headerCin p.hdr = 4) : accept p = acceptCin4 p.b0 p.b1 p.b2 := by
  funext s; simp [accept, h]

theorem accept_of_cin5 {p : Packet} (h : headerCin p.hdr = 5) : accept p = acceptCin5 p.b0 := by
  funext s; simp [accept, h]

theorem accept_of_cin6 {p : Packet} (h : headerCin p.hdr = 6) : accept p = acceptCin6 p.b0 p.b1 := by
  funext s; simp [accept, h]

theorem accept_of_cin7 {p : Packet} (h : headerCin p.hdr = 7) : accept p = acceptCin7 p.b0 p.b1 p.b2 := by
  funext s; simp [accept, h]

theorem accept_of_other {p : Packet} (h4 : headerCin p.hdr ≠ 4) (h5 : headerCin p.hdr ≠ 5) (h6 : headerCin p.hdr ≠ 6)
    (h7 : headerCin p.hdr ≠ 7) : accept p = id := by
  funext s; simp only [accept, if_neg h4, if_neg h5, if_neg h6, if_neg h7, id]

/-- R130: the instruction of a packet is the RX step of that packet, whatever its CIN. -/
theorem exec_decodePacket (p : Packet) (s : State) : exec (decodePacket p) s = .next (rxStep p s) := by
  have hp := packetOf_header p
  simp only [decodePacket, rxStep]
  split
  · rename_i h4
    rw [h4] at hp
    rw [exec, execRxCin4, hp, accept_of_cin4 h4]
  split
  · rename_i h5
    rw [h5] at hp
    rw [exec, execRxCin5, hp, accept_of_cin5 h5]
  split
  · rename_i h6
    rw [h6] at hp
    rw [exec, execRxCin6, hp, accept_of_cin6 h6]
  split
  · rename_i h7
    rw [h7] at hp
    rw [exec, execRxCin7, hp, accept_of_cin7 h7]
  rename_i h4 h5 h6 h7
  split
  · rename_i high
    rw [exec, execRxOther8F, cin_eq_of_high _ high, hp, accept_of_other h4 h5 h6 h7]
  · rename_i low
    rw [exec, execRxOther03, cin_eq_of_low _ h4 h5 h6 h7 (by simpa using low), hp, accept_of_other h4 h5 h6 h7]

/-- R130, D52: where RX does not step a packet is not seen. -/
theorem rxStep_of_disabled (p : Packet) (h : s.rxEnabled = false) : rxStep p s = s := by
  simp [rxStep, receive, h]

theorem State.rxEnabled_eq_false (h : s.mode = .boot ∨ s.mode = .jumped) : s.rxEnabled = false := by
  rcases h with h | h <;> simp [State.rxEnabled, h]

/-- Settles O13: a packet's instruction is its RX step, and RX steps in neither mode. -/
theorem packetsUnseenOutsideService : Obligations.PacketsUnseenOutsideService := by
  intro s p hmode
  rw [exec_decodePacket, rxStep_of_disabled p (State.rxEnabled_eq_false hmode)]

/-- R135: RX_CIN4 cuts the buffer with its three bytes at the capacity. -/
theorem acceptCin4_eq_take (b0 b1 b2 : Byte) (h : s.rxBuf.length ≤ Config.sysexMax) :
    acceptCin4 b0 b1 b2 s = s.setRxBuf ((s.rxBuf ++ [b0, b1, b2]).take Config.sysexMax) :=
  append_append_append_eq_take b0 b1 b2 h

theorem receive_of_enabled (h : s.rxEnabled = true) (p : Packet) (f : State → State) :
    receive p f s = f (s.emit (.received p)) := by
  simp only [receive, h, if_true]

/-- Settles O10: the packet is recorded, and its bytes are appended up to the capacity. -/
theorem continuePacketAppends : Obligations.ContinuePacketAppends := by
  intro s cable b0 b1 b2 hrx hlen
  simp only [exec, execRxCin4]
  rw [receive_of_enabled hrx, acceptCin4_eq_take (s := s.emit _) b0 b1 b2 hlen]
  rfl

end Sys2Proof.Machine
end

section
/-! PROOFS. What a step keeps of flash (R53), and that what WriteFlash has written verifies (R62, R195, R197). -/

namespace Sys2Proof.Machine

variable {s t u w : State}

/-! ## What a step keeps of flash -/

theorem Booted.kept (h : Booted s w) : Kept s w where
  platform := h.platform
  wf hw := h.flash ▸ hw
  outside _ _ := by rw [h.flash]

/-- However an instruction ends, it has kept flash outside the block's reach. -/
theorem Advanced.kept (ha : Advanced s w) : Kept s w := by
  cases ha with
  | moved hm => exact hm.toKept
  | booted _ hb => exact hb.kept
  | reset m k hm ends => exact ends ▸ hm.afterReset k

/-- Settles O56: preparing a step leaves flash as it is, the instruction keeps it outside the block's reach, also where a
reset lands inside, and the end of the step leaves it as it is. -/
theorem flashChangesOnlyInside : Obligations.FlashChangesOnlyInside := by
  intro s t a hstep ha
  obtain ⟨u, w, hp, hadv, rfl⟩ := step_advances hstep
  have hu : ¬ Touchable u.params a := by rwa [hp.params]
  calc (w.setLandings []).flash.read a
      = w.flash.read a := by rw [State.setLandings_flash]
    _ = u.flash.read a := hadv.kept.outside a hu
    _ = s.flash.read a := by rw [hp.flash]

/-! ## What has been written verifies -/

theorem operandBytes_length_self (data : List Byte) : operandBytes data data.length = data := by
  rw [operandBytes_of_le (Nat.le_refl _), List.take_length]

/-- R62: STORE puts the new byte, and so does AND over a byte 0xFF. -/
theorem combine_eq_new {sem : ProgramSem} {old new : Byte} (h : sem = .store ∨ old = 0xFF) : combine sem old new = new := by
  cases sem with
  | store => rfl
  | and =>
    have hold : old = BitVec.allOnes 8 := h.resolve_left (by decide)
    rw [combine, hold, BitVec.allOnes_and]

/-- Memory holds one list of each length at an address. -/
theorem State.Holds.holds_iff_eq {a : Nat} {data other : List Byte} (h : s.Holds a data)
    (hlen : other.length = data.length) : s.Holds a other ↔ other = data := by
  constructor
  · intro ho
    refine List.ext_getElem hlen fun i hi hi' => ?_
    have hbyte : byteAt other i = byteAt data i := (ho i hi).symm.trans (h i hi')
    simpa [byteAt, hi, hi'] using hbyte
  · rintro rfl
    exact h

theorem Programmed.holds {offset : Nat} {data : List Byte} (h : Programmed s t offset data)
    (hnew : s.params.programSem = .store ∨ ∀ i < data.length, s.flash.read (s.params.appLo + offset + i) = 0xFF) :
    t.Holds (s.params.appLo + offset) data := by
  intro i hi
  rw [h.bytes i hi, combine_eq_new (hnew.imp_right fun hff => hff i hi)]

/-- A write in range with every unit accepted, of no data too: it answers OK, nothing is left to land, the configuration is as
it was, and flash holds the data (R195, R196). -/
theorem runWrite_holds {offset : Nat} {data : List Byte} (hr : offset + data.length ≤ s.params.appMaxSize.toNat)
    (h : s.Accepts (programCalls s.params offset data).length)
    (hnew : s.params.programSem = .store ∨ ∀ i < data.length, s.flash.read (s.params.appLo + offset + i) = 0xFF) :
    ∃ t, runWrite offset data s = .done true t ∧ t.landings = [] ∧ t.params = s.params ∧
      t.Holds (s.params.appLo + offset) data := by
  rcases Nat.eq_zero_or_pos data.length with hzero | hpos
  · refine ⟨s, ?_, h.1, rfl, fun i hi => ?_⟩
    · rw [runWrite, inRange, decide_eq_true hr, if_pos rfl, if_pos hzero]
    · omega
  · obtain ⟨t, hrun, hprog⟩ := runWrite_accept hr hpos h
    refine ⟨t, hrun, ?_, ?_, hprog.holds hnew⟩
    · rw [hprog.frame]; exact h.1
    · rw [hprog.frame]; rfl

/-- A comparison in range with bytes that flash holds: TRUE for these and FALSE for any other as long (R197). -/
theorem runVerify_of_holds {offset : Nat} {data other : List Byte} (hl : s.landings = [])
    (hr : offset + data.length ≤ s.params.appMaxSize.toNat) (hlen : other.length = data.length)
    (h : s.Holds (s.params.appLo + offset) data) : ∃ u, runVerify offset other s = .done (decide (other = data)) u := by
  obtain ⟨b, es, hrun, hb, -⟩ := runVerify_done offset other hl
  have heq : b = true ↔ other = data := by rw [hb, h.holds_iff_eq hlen, hlen, and_iff_right hr]
  rw [Bool.eq_iff_iff.mpr (heq.trans decide_eq_true_iff.symm)] at hrun
  exact ⟨_, hrun⟩

/-- Settles O37: the write leaves its data in flash, and the comparison answers whether flash holds the other. -/
theorem writtenDataVerifies : Obligations.WrittenDataVerifies := by
  intro s offset data other len hlen hother hr haccepts hnew
  obtain ⟨t, hwrite, hl, hparams, hholds⟩ := runWrite_holds hr haccepts hnew
  obtain ⟨u, hverify⟩ := runVerify_of_holds (s := t.setResult .ok) (offset := offset.toNat) (data := data) (other := other)
    hl (by rwa [State.setResult_params, hparams]) hother (by rw [State.setResult_params, hparams]; exact hholds)
  have hdata : operandBytes data len.toNat = data := by rw [hlen, operandBytes_length_self]
  have hcompared : operandBytes other len.toNat = other := by rw [hlen, ← hother, operandBytes_length_self]
  refine ⟨t.setResult .ok, u.setResult (.truth (decide (other = data))), ?_, rfl, ?_, rfl⟩
  · rw [exec, execWriteFlash, hdata, hwrite]; rfl
  · rw [exec, execVerifyFlash, hcompared, hverify]; rfl

end Sys2Proof.Machine
end

section
/-! PROOFS. The wire forms: the checksum law (R89), the wire integers (R91, R92), the bytes of the responses (R99 to R103), and
the packets of a message (R84, R122 to R124, R127). -/

namespace Sys2Proof.Machine

/-! ## Checksum and wire integers -/

/-- Settles O4: `Chk` is what the sum lacks to the next multiple of 128. -/
theorem checksumLaw : Obligations.ChecksumLaw := by
  intro S
  rw [checksum_toNat]
  constructor <;> omega

/-- R91: "only `c0[3:0]` contributes". -/
theorem dec5_mask_first (c0 c1 c2 c3 c4 : Byte) : dec5 c0 c1 c2 c3 c4 = dec5 (c0 &&& 0x0F) c1 c2 c3 c4 := by
  have hmask : (c0 &&& 0x0F).toNat = c0.toNat % 16 := Nat.and_two_pow_sub_one_eq_mod c0.toNat 4
  apply BitVec.eq_of_toNat_eq
  rw [dec5_toNat, dec5_toNat, hmask, Nat.mod_mod]

theorem enc5_dec5 (c0 c1 c2 c3 c4 : Byte) : enc5 (dec5 c0 c1 c2 c3 c4) =
    [BitVec.ofNat 8 (c0.toNat % 16), BitVec.ofNat 8 (c1.toNat % 128), BitVec.ofNat 8 (c2.toNat % 128),
      BitVec.ofNat 8 (c3.toNat % 128), BitVec.ofNat 8 (c4.toNat % 128)] := by
  simp only [enc5_eq, dec5_toNat, List.cons.injEq, and_true]
  refine ⟨?_, ?_, ?_, ?_, ?_⟩ <;> refine congrArg (BitVec.ofNat 8) ?_ <;> omega

/-- A byte that a mask to the values below `n` leaves as it is. -/
theorem ofNat_mod_eq_self_iff {n : Nat} (hpos : 0 < n) (hn : n ≤ 256) (c : Byte) :
    BitVec.ofNat 8 (c.toNat % n) = c ↔ c.toNat < n := by
  have hlt : c.toNat % n < n := Nat.mod_lt _ hpos
  rw [← BitVec.toNat_inj, BitVec.toNat_ofNat, Nat.mod_eq_of_lt (a := c.toNat % n) (by omega)]
  exact ⟨fun h => h ▸ hlt, Nat.mod_eq_of_lt⟩

/-- R91: the canonical bytes are those that the masks of `Dec5` leave as they are. -/
theorem enc5_dec5_eq_self_iff (c0 c1 c2 c3 c4 : Byte) : enc5 (dec5 c0 c1 c2 c3 c4) = [c0, c1, c2, c3, c4] ↔
    c0 ≤ 0x0F ∧ c1 ≤ 0x7F ∧ c2 ≤ 0x7F ∧ c3 ≤ 0x7F ∧ c4 ≤ 0x7F := by
  have h4 (c : Byte) : BitVec.ofNat 8 (c.toNat % 16) = c ↔ c ≤ 0x0F :=
    (ofNat_mod_eq_self_iff (by decide) (by decide) c).trans Nat.lt_succ_iff
  have h7 (c : Byte) : BitVec.ofNat 8 (c.toNat % 128) = c ↔ c ≤ 0x7F :=
    (ofNat_mod_eq_self_iff (by decide) (by decide) c).trans Nat.lt_succ_iff
  simp only [enc5_dec5, List.cons.injEq, and_true, h4, h7]

/-- R91: "`Dec5(Enc5(v)) = v` for every v in [0, 2^32 - 1]". -/
theorem dec5_enc5 (v : Word) : ∃ c0 c1 c2 c3 c4 : Byte, enc5 v = [c0, c1, c2, c3, c4] ∧ dec5 c0 c1 c2 c3 c4 = v := by
  refine ⟨_, _, _, _, _, enc5_eq v, BitVec.eq_of_toNat_eq ?_⟩
  have := v.isLt
  simp only [dec5_toNat, BitVec.toNat_ofNat]
  omega

theorem dec2_lt (c0 c1 : Byte) : dec2 c0 c1 < 2 ^ 14 := by
  simp only [dec2]
  omega

/-- `Enc2` on numbers. -/
theorem enc2_eq (n : BitVec 14) : enc2 n = [BitVec.ofNat 8 (n.toNat / 2 ^ 7), BitVec.ofNat 8 (n.toNat % 2 ^ 7)] := by
  have := n.isLt
  simp only [enc2, List.cons.injEq, and_true]
  constructor <;> apply BitVec.eq_of_toNat_eq <;>
    simp only [BitVec.toNat_setWidth, BitVec.extractLsb_toNat, BitVec.toNat_ofNat, Nat.shiftRight_eq_div_pow] <;> omega

/-- R92: "`Dec2(Enc2(n)) = n`", the upper 7 bits first. -/
theorem dec2_enc2 (n : BitVec 14) : ∃ c0 c1 : Byte, enc2 n = [c0, c1] ∧ c0.toNat = n.toNat / 2 ^ 7 ∧
    c1.toNat = n.toNat % 2 ^ 7 ∧ dec2 c0 c1 = n.toNat := by
  have := n.isLt
  refine ⟨_, _, enc2_eq n, ?_, ?_, ?_⟩ <;> simp only [dec2, BitVec.toNat_ofNat] <;> omega

/-- Settles O5: each wire integer on numbers, and what its masks leave. -/
theorem wireIntegersMaskAndInvert : Obligations.WireIntegersMaskAndInvert := by
  refine ⟨fun c0 c1 c2 c3 c4 => ⟨?_, dec5_mask_first .., enc5_dec5_eq_self_iff ..⟩, dec5_enc5,
    fun c0 c1 => ⟨rfl, dec2_lt c0 c1⟩, dec2_enc2⟩
  rw [dec5_toNat]
  omega

/-! ## Responses -/

/-- Settles O6: each response is `BuildMsg` of its selector and operands, laid out. -/
theorem responseLayouts : Obligations.ResponseLayouts :=
  ⟨fun cmd v => ⟨rfl, ackMsg_length cmd v⟩, fun cmd code => ⟨rfl, errorMsg_length cmd code⟩,
    fun p => ⟨rfl, infoMsg_length p⟩⟩

/-- Settles O31: the code is refused before the response is built. -/
theorem reservedErrorCodeIsRefused : Obligations.ReservedErrorCodeIsRefused := by
  intro s cmd
  rw [exec, execError, if_pos rfl]

/-! ## The packets of a message -/

/-- The first F7 of a message is its byte `j`. -/
structure FirstEnd (d : List Byte) (j : Nat) : Prop where
  inside : j < d.length
  isEnd : byteAt d j = 0xF7
  noneBefore : ∀ i < j, byteAt d i ≠ 0xF7

/-- The packet at place `k` of a message whose first F7 is byte `j`: the bytes at `3k` to `3k+2`, those past `j` 0x00 (R84),
with CIN 4 but in the last packet (R123, R124). -/
def packetAt (c : BitVec 4) (d : List Byte) (j k : Nat) : Packet where
  hdr := header c (if k + 1 < (j + 3) / 3 then 4 else BitVec.ofNat 4 (5 + j % 3))
  b0 := byteAt d (3 * k)
  b1 := if 3 * k + 1 ≤ j then byteAt d (3 * k + 1) else 0x00
  b2 := if 3 * k + 2 ≤ j then byteAt d (3 * k + 2) else 0x00

/-- Behind a continue packet the message goes on three bytes later. -/
theorem FirstEnd.afterThree {x y z : Byte} {rest : List Byte} {j : Nat} (h : FirstEnd (x :: y :: z :: rest) (j + 3)) :
    FirstEnd rest j where
  inside := by simpa using h.inside
  isEnd := h.isEnd
  noneBefore i hi := h.noneBefore (i + 3) (by omega)

theorem packetAt_afterThree (c : BitVec 4) (x y z : Byte) (rest : List Byte) (j k : Nat) :
    packetAt c (x :: y :: z :: rest) (j + 3) (k + 1) = packetAt c rest j k := by
  have hlast : k + 1 + 1 < (j + 3 + 3) / 3 ↔ k + 1 < (j + 3) / 3 := by omega
  have hcin : (j + 3) % 3 = j % 3 := by omega
  have h1 : 3 * (k + 1) + 1 ≤ j + 3 ↔ 3 * k + 1 ≤ j := by omega
  have h2 : 3 * (k + 1) + 2 ≤ j + 3 ↔ 3 * k + 2 ≤ j := by omega
  simp only [packetAt, hlast, hcin, h1, h2]
  rfl

/-! What `EncodePackets` does at a scan position, by where the first F7 is (R123, R124). -/

theorem encodePackets_end_first (c : BitVec 4) (rest : List Byte) :
    encodePackets c (0xF7 :: rest) = [⟨header c 5, 0xF7, 0, 0⟩] := by
  match rest with
  | [] => rfl
  | [_] => rfl
  | _ :: _ :: _ => rfl

theorem encodePackets_end_second (c : BitVec 4) {x : Byte} (hx : x ≠ 0xF7) (rest : List Byte) :
    encodePackets c (x :: 0xF7 :: rest) = [⟨header c 6, x, 0xF7, 0⟩] := by
  match rest with
  | [] => rw [encodePackets, if_neg hx]
  | _ :: _ => rw [encodePackets, if_neg hx, if_pos rfl]

theorem encodePackets_end_third (c : BitVec 4) {x y : Byte} (hx : x ≠ 0xF7) (hy : y ≠ 0xF7) (rest : List Byte) :
    encodePackets c (x :: y :: 0xF7 :: rest) = [⟨header c 7, x, y, 0xF7⟩] := by
  rw [encodePackets, if_neg hx, if_neg hy, if_pos rfl]

theorem encodePackets_continue (c : BitVec 4) {x y z : Byte} (hx : x ≠ 0xF7) (hy : y ≠ 0xF7) (hz : z ≠ 0xF7)
    (rest : List Byte) : encodePackets c (x :: y :: z :: rest) = ⟨header c 4, x, y, z⟩ :: encodePackets c rest := by
  rw [encodePackets, if_neg hx, if_neg hy, if_neg hz]

theorem packetAt_zero_of_continue (c : BitVec 4) (x y z : Byte) (rest : List Byte) (j : Nat) :
    packetAt c (x :: y :: z :: rest) (j + 3) 0 = ⟨header c 4, x, y, z⟩ := by
  have hmore : 0 + 1 < (j + 3 + 3) / 3 := by omega
  simp only [packetAt, if_pos hmore, if_pos (show 3 * 0 + 1 ≤ j + 3 by omega), if_pos (show 3 * 0 + 2 ≤ j + 3 by omega)]
  rfl

/-- R122 to R124: the packets of a message up to its first F7, one for each three bytes begun. -/
theorem encodePackets_eq_map (c : BitVec 4) : ∀ {d : List Byte} {j : Nat}, FirstEnd d j →
    encodePackets c d = (List.range ((j + 3) / 3)).map (packetAt c d j)
  | [], _, h => absurd h.inside (Nat.not_lt_zero _)
  | [_], _ + 1, h => absurd h.inside (by simp)
  | [_, _], _ + 2, h => absurd h.inside (by simp)
  | x :: rest, 0, h => by
    obtain rfl : x = 0xF7 := h.isEnd
    exact encodePackets_end_first c rest
  | x :: y :: rest, 1, h => by
    obtain rfl : y = 0xF7 := h.isEnd
    exact encodePackets_end_second c (h.noneBefore 0 (by omega)) rest
  | x :: y :: z :: rest, 2, h => by
    obtain rfl : z = 0xF7 := h.isEnd
    exact encodePackets_end_third c (h.noneBefore 0 (by omega)) (h.noneBefore 1 (by omega)) rest
  | x :: y :: z :: rest, j + 3, h => by
    have hcount : (j + 3 + 3) / 3 = (j + 3) / 3 + 1 := by omega
    have htail : packetAt c (x :: y :: z :: rest) (j + 3) ∘ Nat.succ = packetAt c rest j :=
      funext (packetAt_afterThree c x y z rest j)
    have hx : x ≠ 0xF7 := h.noneBefore 0 (by omega)
    have hy : y ≠ 0xF7 := h.noneBefore 1 (by omega)
    have hz : z ≠ 0xF7 := h.noneBefore 2 (by omega)
    rw [encodePackets_continue c hx hy hz, encodePackets_eq_map c h.afterThree, hcount, List.range_succ_eq_map,
      List.map_cons, List.map_map, htail, packetAt_zero_of_continue]

/-- The CIN of each packet (R127). -/
theorem packetAt_cin (c : BitVec 4) (d : List Byte) (j k : Nat) : (headerCin (packetAt c d j k).hdr).toNat =
    if k + 1 < (j + 3) / 3 then 4 else 5 + j % 3 := by
  rw [packetAt, headerCin_header]
  split
  · rfl
  · rw [BitVec.toNat_ofNat]
    omega

/-- Settles O14: the packets are `packetAt` at each place. -/
theorem packetsCarryTheMessage : Obligations.PacketsCarryTheMessage := by
  intro c d j hj hend hnone
  rw [encodePackets_eq_map c ⟨hj, hend, hnone⟩]
  refine ⟨by rw [List.length_map, List.length_range], fun k p hp => ?_⟩
  obtain rfl : packetAt c d j k = p := by
    obtain ⟨hk, hp⟩ := List.getElem?_eq_some_iff.mp hp
    rw [← hp, List.getElem_map, List.getElem_range]
  exact ⟨headerCable_header _ _, packetAt_cin c d j k, rfl, rfl, rfl⟩

end Sys2Proof.Machine
end

section
/-! PROOFS. The round trips of 30_encoding.md: decoding an encoding, and encoding what was decoded. -/

namespace Sys2Proof.Machine

/-! ## Packets (R80 to R83) -/

/-- What a packet decodes to is a packet row, and its encoding is the packet. -/
theorem encode_decodePacket (ps : Params) (p : Packet) :
    (decodePacket p).format = .packet ∧ encode ps (decodePacket p) = some p.bytes := by
  have hp := packetOf_header p
  rw [decodePacket]
  split
  · rename_i h4
    exact ⟨rfl, by rw [encode, ← h4, hp]⟩
  split
  · rename_i h5
    exact ⟨rfl, by rw [encode, ← h5, hp]⟩
  split
  · rename_i h6
    exact ⟨rfl, by rw [encode, ← h6, hp]⟩
  split
  · rename_i h7
    exact ⟨rfl, by rw [encode, ← h7, hp]⟩
  rename_i h4 h5 h6 h7
  split
  · rename_i high
    exact ⟨rfl, by rw [encode, cin_eq_of_high _ high, hp]⟩
  · rename_i low
    exact ⟨rfl, by rw [encode, cin_eq_of_low _ h4 h5 h6 h7 (by simpa using low), hp]⟩

theorem decodePacket_packetOf (cable cin : BitVec 4) (b0 b1 b2 : Byte) : decodePacket (packetOf cable cin b0 b1 b2) =
    if cin = 4 then .rxCin4 cable b0 b1 b2
    else if cin = 5 then .rxCin5 cable b0 b1 b2
    else if cin = 6 then .rxCin6 cable b0 b1 b2
    else if cin = 7 then .rxCin7 cable b0 b1 b2
    else if cin.getLsbD 3 then .rxOther8F cable (cin.extractLsb 2 0) b0 b1 b2
    else .rxOther03 cable (cin.extractLsb 1 0) b0 b1 b2 := by
  simp only [decodePacket, packetOf, headerCin_header, headerCable_header]

/-- A CIN of 0 to 3 (R137). -/
theorem cin_low (n : BitVec 2) : (0 : BitVec 2) ++ n ≠ (4 : BitVec 4) ∧ (0 : BitVec 2) ++ n ≠ (5 : BitVec 4) ∧
    (0 : BitVec 2) ++ n ≠ (6 : BitVec 4) ∧ (0 : BitVec 2) ++ n ≠ (7 : BitVec 4) ∧
    ((0 : BitVec 2) ++ n).getLsbD 3 = false ∧ ((0 : BitVec 2) ++ n).extractLsb 1 0 = n := by
  revert n; decide

/-- A CIN of 8 to F (R137). -/
theorem cin_high (n : BitVec 3) : (1 : BitVec 1) ++ n ≠ (4 : BitVec 4) ∧ (1 : BitVec 1) ++ n ≠ (5 : BitVec 4) ∧
    (1 : BitVec 1) ++ n ≠ (6 : BitVec 4) ∧ (1 : BitVec 1) ++ n ≠ (7 : BitVec 4) ∧
    ((1 : BitVec 1) ++ n).getLsbD 3 = true ∧ ((1 : BitVec 1) ++ n).extractLsb 2 0 = n := by
  revert n; decide

/-- The packet of a packet row decodes to the row. -/
theorem decode_encode_packet {ps : Params} {i : Instr} {bs : List Byte} (hf : i.format = .packet)
    (he : encode ps i = some bs) : decode ps .packet bs = .ok i := by
  cases i with
  | rxCin4 | rxCin5 | rxCin6 | rxCin7 =>
    cases he
    rw [decode_packet_bytes, decodePacket_packetOf]
    rfl
  | rxOther03 cable cin b0 b1 b2 =>
    obtain ⟨h4, h5, h6, h7, low, hbits⟩ := cin_low cin
    cases he
    rw [decode_packet_bytes, decodePacket_packetOf, if_neg h4, if_neg h5, if_neg h6, if_neg h7, low, hbits]
    rfl
  | rxOther8F cable cin b0 b1 b2 =>
    obtain ⟨h4, h5, h6, h7, high, hbits⟩ := cin_high cin
    cases he
    rw [decode_packet_bytes, decodePacket_packetOf, if_neg h4, if_neg h5, if_neg h6, if_neg h7, high, hbits]
    rfl
  | _ => cases hf

/-- A packet's bytes are the only bytes that decode as one. -/
theorem exists_packet_of_decode {ps : Params} {bs : List Byte} {i : Instr} (h : decode ps .packet bs = .ok i) :
    ∃ p : Packet, bs = p.bytes ∧ i = decodePacket p := by
  match bs, h with
  | [hdr, b0, b1, b2], h => exact ⟨⟨hdr, b0, b1, b2⟩, rfl, (Except.ok.inj h).symm⟩

/-! ## Requests (R86, R87, R93) -/

/-- A command is a request, and its encoding is laid out as R86 says. -/
theorem encode_commandOf (ps : Params) (dev : DevId) (cmd : Byte) (payload : List Byte) (chk : Byte) :
    (commandOf dev cmd payload chk).format = .request ∧
      encode ps (commandOf dev cmd payload chk) = some (layout (devIdByte dev) cmd payload chk) := by
  rw [commandOf]
  split
  · subst cmd; exact ⟨rfl, rfl⟩
  split
  · subst cmd; exact ⟨rfl, rfl⟩
  split
  · subst cmd; exact ⟨rfl, rfl⟩
  split
  · subst cmd; exact ⟨rfl, rfl⟩
  · exact ⟨rfl, rfl⟩

theorem commandOf_of_unknown {cmd : Byte} (h : knownCmd cmd = false) (dev : DevId) (payload : List Byte) (chk : Byte) :
    commandOf dev cmd payload chk = .unknownCmd dev cmd payload chk := by
  simp only [knownCmd, Bool.or_eq_false_iff, beq_eq_false_iff_ne] at h
  obtain ⟨⟨⟨h1, h2⟩, h4⟩, h5⟩ := h
  simp only [commandOf, if_neg h1, if_neg h2, if_neg h4, if_neg h5]

/-- A well-formed request is the command of some device id, selector, payload and checksum byte. -/
theorem exists_commandOf_of_request {i : Instr} (hwf : i.wf = true) (hf : i.format = .request) :
    ∃ dev cmd payload chk, i = commandOf dev cmd payload chk := by
  cases i with
  | query dev payload chk => exact ⟨dev, 0x01, payload, chk, rfl⟩
  | writeBlock dev payload chk => exact ⟨dev, 0x02, payload, chk, rfl⟩
  | eraseApp dev payload chk => exact ⟨dev, 0x04, payload, chk, rfl⟩
  | jumpApp dev payload chk => exact ⟨dev, 0x05, payload, chk, rfl⟩
  | unknownCmd dev cmd payload chk =>
    simp only [Instr.wf, Bool.and_eq_true, Bool.not_eq_true'] at hwf
    exact ⟨dev, cmd, payload, chk, (commandOf_of_unknown hwf.left dev payload chk).symm⟩
  | _ => cases hf

/-- A message that passes R151 to R153 is laid out as R86 says, and decodes to its command. -/
theorem exists_layout_of_decodeRequest {m : List Byte} {i : Instr} (h : decodeRequest m = .ok i) :
    ∃ dev cmd payload chk, m = layout (devIdByte dev) cmd payload chk ∧ i = commandOf dev cmd payload chk := by
  simp only [decodeRequest] at h
  split at h
  · cases h
  rename_i hlen
  split at h
  · cases h
  rename_i hframe
  split at h
  · cases h
  rename_i hmanuf
  split at h
  · cases h
  rename_i dev hdev
  obtain ⟨hfirst, hlast⟩ := not_or.mp hframe
  refine ⟨dev, _, _, _, ?_, (Except.ok.inj h).symm⟩
  rw [devIdByte_of_some hdev,
    layout_of_bytes (Nat.le_of_not_lt hlen) (not_not.mp hfirst) (not_not.mp hlast) (not_not.mp hmanuf)]

/-! ## Responses (R98 to R103) -/

theorem decodeResponse_ackMsg (ps : Params) (cmd : Byte) (v : Word) :
    decodeResponse ps (ackMsg cmd v) = .ok (.ack cmd v) := by
  obtain ⟨c0, c1, c2, c3, c4, henc, hdec⟩ := dec5_enc5 v
  have hcmd : byteAt (ackMsg cmd v) 6 = cmd := rfl
  have hvalue : dec5 (byteAt (ackMsg cmd v) 7) (byteAt (ackMsg cmd v) 8) (byteAt (ackMsg cmd v) 9)
      (byteAt (ackMsg cmd v) 10) (byteAt (ackMsg cmd v) 11) = v := by
    rw [ackMsg, henc]
    exact hdec
  simp only [decodeResponse, hcmd, hvalue, if_pos]

/-! The lengths of R99 to R101 tell the three responses apart. -/

theorem errorMsg_ne_ackMsg (cmd cmd' : Byte) (code : ErrorCode) (v : Word) : errorMsg cmd code ≠ ackMsg cmd' v :=
  fun h => absurd (congrArg List.length h) (by rw [errorMsg_length, ackMsg_length]; decide)

theorem infoMsg_ne_ackMsg (ps : Params) (cmd : Byte) (v : Word) : infoMsg ps ≠ ackMsg cmd v :=
  fun h => absurd (congrArg List.length h) (by rw [infoMsg_length, ackMsg_length]; decide)

theorem infoMsg_ne_errorMsg (ps : Params) (cmd : Byte) (code : ErrorCode) : infoMsg ps ≠ errorMsg cmd code :=
  fun h => absurd (congrArg List.length h) (by rw [infoMsg_length, errorMsg_length]; decide)

theorem decodeResponse_errorMsg (ps : Params) (cmd : Byte) {code : ErrorCode} (h : code ≠ .invalidAddr) :
    decodeResponse ps (errorMsg cmd code) = .ok (.error cmd code) := by
  have hcmd : byteAt (errorMsg cmd code) 6 = cmd := rfl
  have hcode : byteAt (errorMsg cmd code) 7 = errorByte code := rfl
  simp only [decodeResponse, hcmd, hcode, errorOfByte_errorByte, if_neg (errorMsg_ne_ackMsg _ _ _ _), if_neg h, if_pos]

theorem decodeResponse_infoMsg (ps : Params) : decodeResponse ps (infoMsg ps) = .ok .info := by
  simp only [decodeResponse, if_neg (infoMsg_ne_ackMsg _ _ _), if_neg (infoMsg_ne_errorMsg _ _ _), if_pos]
  split <;> rfl

/-- A well-formed response decodes to its row. -/
theorem decode_encode_response {ps : Params} {i : Instr} {bs : List Byte} (hwf : i.wf = true) (hf : i.format = .response)
    (he : encode ps i = some bs) : decode ps .response bs = .ok i := by
  cases i with
  | ack cmd v =>
    cases he
    exact decodeResponse_ackMsg ps cmd v
  | error cmd code =>
    cases he
    exact decodeResponse_errorMsg ps cmd (bne_iff_ne.mp hwf)
  | info =>
    cases he
    exact decodeResponse_infoMsg ps
  | _ => cases hf

/-- The last branch of the response decoder, where the bytes are no ACK and no ERROR: INFO or nothing (R101). -/
theorem encode_of_infoMsg {ps : Params} {m : List Byte} {i : Instr}
    (h : (if m = infoMsg ps then Except.ok Instr.info else .error Reject.notAResponse) = .ok i) :
    i.format = .response ∧ encode ps i = some m := by
  split at h
  · rename_i hinfo
    cases h
    exact ⟨rfl, congrArg some hinfo.symm⟩
  · cases h

/-- What bytes decode to as a response is a response row, and its encoding is the bytes. -/
theorem encode_of_decodeResponse {ps : Params} {m : List Byte} {i : Instr} (h : decodeResponse ps m = .ok i) :
    i.format = .response ∧ encode ps i = some m := by
  simp only [decodeResponse] at h
  split at h
  · rename_i hack
    cases h
    exact ⟨rfl, congrArg some hack.symm⟩
  split at h
  · split at h
    · rename_i herror
      split at h
      · cases h
      · cases h
        exact ⟨rfl, congrArg some herror.symm⟩
    · exact encode_of_infoMsg h
  · exact encode_of_infoMsg h

/-! ## The round trips -/

theorem encode_of_internal (ps : Params) {i : Instr} (h : i.format = .internal) : encode ps i = none := by
  cases i with
  | sendSysex | eraseApplication | writeFlash | verifyFlash | crc32 | checkApplication | jumpToApplication | bootStep
  | requestEntry | settleDone => rfl
  | _ => cases h

/-- Settles O1: format by format, a request through the command that its layout decodes to. -/
theorem decodeInvertsEncode : Obligations.DecodeInvertsEncode := by
  intro ps i bs hwf he
  cases hf : i.format with
  | packet => exact decode_encode_packet hf he
  | request =>
    obtain ⟨dev, cmd, payload, chk, rfl⟩ := exists_commandOf_of_request hwf hf
    obtain ⟨-, hlayout⟩ := encode_commandOf ps dev cmd payload chk
    obtain rfl := Option.some.inj (hlayout.symm.trans he)
    exact decodeRequest_layout dev cmd payload chk
  | response => exact decode_encode_response hwf hf he
  | internal => cases (encode_of_internal ps hf).symm.trans he

/-- Settles O2: in each format the bytes that decode have the one form that the encoder gives. -/
theorem encodeInvertsDecode : Obligations.EncodeInvertsDecode := by
  intro ps f bs i h
  cases f with
  | packet =>
    obtain ⟨p, rfl, rfl⟩ := exists_packet_of_decode h
    exact encode_decodePacket ps p
  | request =>
    obtain ⟨dev, cmd, payload, chk, rfl, rfl⟩ := exists_layout_of_decodeRequest h
    exact encode_commandOf ps dev cmd payload chk
  | response => exact encode_of_decodeResponse h
  | internal => cases h

end Sys2Proof.Machine
end

section
/-! PROOFS. The packet codec: terminal packets and those of other CINs (R132 to R137), the round trip of a buffer through its
packets (R139), and SendSysex with the responses it transmits (R121, R126, R171). -/

namespace Sys2Proof.Machine

variable {s t u : State}

/-! ## Terminal packets and packets of other CINs -/

/-! R132 to R134: a terminal packet cuts the buffer with its bytes at the capacity, and completes it. -/

theorem acceptCin5_eq_complete (b0 : Byte) (h : s.rxBuf.length ≤ Config.sysexMax) :
    acceptCin5 b0 s = complete (s.setRxBuf ((s.rxBuf ++ [b0]).take Config.sysexMax)) :=
  congrArg complete (append_eq_take b0 h)

theorem acceptCin6_eq_complete (b0 b1 : Byte) (h : s.rxBuf.length ≤ Config.sysexMax) :
    acceptCin6 b0 b1 s = complete (s.setRxBuf ((s.rxBuf ++ [b0, b1]).take Config.sysexMax)) :=
  congrArg complete (append_append_eq_take b0 b1 h)

theorem acceptCin7_eq_complete (b0 b1 b2 : Byte) (h : s.rxBuf.length ≤ Config.sysexMax) :
    acceptCin7 b0 b1 b2 s = complete (s.setRxBuf ((s.rxBuf ++ [b0, b1, b2]).take Config.sysexMax)) :=
  congrArg complete (append_append_append_eq_take b0 b1 b2 h)

/-- Settles O11: each terminal packet is recorded, and completes the buffer with its bytes. -/
theorem terminalPacketsDeliver : Obligations.TerminalPacketsDeliver := by
  intro s cable b0 b1 b2 hrx hlen deliver
  refine ⟨?cin5, ?cin6, ?cin7⟩
  case cin5 =>
    rw [exec, execRxCin5, receive_of_enabled hrx, acceptCin5_eq_complete (s := s.emit _) b0 hlen, complete_eq]
    rfl
  case cin6 =>
    rw [exec, execRxCin6, receive_of_enabled hrx, acceptCin6_eq_complete (s := s.emit _) b0 b1 hlen, complete_eq]
    rfl
  case cin7 =>
    rw [exec, execRxCin7, receive_of_enabled hrx, acceptCin7_eq_complete (s := s.emit _) b0 b1 b2 hlen, complete_eq]
    rfl

/-- Settles O12: a packet of another CIN is recorded, and nothing acts on it. -/
theorem otherPacketsChangeNothing : Obligations.OtherPacketsChangeNothing := by
  intro s cable b0 b1 b2 hrx
  constructor
  · intro cin
    rw [exec, execRxOther03, receive_of_enabled hrx]
    rfl
  · intro cin
    rw [exec, execRxOther8F, receive_of_enabled hrx]
    rfl

/-! ## Packet turns -/

/-- RX steps do not see the schedule. -/
theorem fed_setTurns (ps : List Packet) (s : State) (ts : List Turn) :
    (s.setTurns ts).fed ps = (s.fed ps).setTurns ts := by
  have hsame : SameRx s (s.setTurns ts) := ⟨rfl, rfl, rfl, rfl⟩
  have hx : SameRx (s.fed ps) ((s.setTurns ts).fed ps) := hsame.fed ps
  rw [fed_frame ps (s.setTurns ts), hx.rxBuf, hx.msgQ]
  conv_rhs => rw [fed_frame ps s]
  rfl

/-- R130: the step of a packet turn is the RX step of its packet. -/
theorem step_of_packet {p : Packet} {rest : List Turn} (hl : s.landings = []) (h : s.turns = .packet p :: rest) :
    step s = .next ((rxStep p s).setTurns rest) := by
  have hrx : rxStep p (s.setTurns rest) = (rxStep p s).setTurns rest := fed_setTurns [p] s rest
  have hnone : ((rxStep p s).setTurns rest).landings = [] := (rxStep_landings p s).trans hl
  rw [step_of_fetch_run (fetch_of_turns_cons h), exec_decodePacket, hrx, endStep_of_next, ← hnone]

theorem run_succ_of_step {M : Host.Core} {a b : M.State} (h : M.step a = .next b) (k : Nat) :
    M.run (k + 1) a = M.run k b := by
  simp only [Host.Core.run, h]

/-- Packet turns run one after another take their packets in order. -/
theorem run_packets : ∀ (ps : List Packet) {rest : List Turn} {s : State}, s.landings = [] →
    s.turns = ps.map .packet ++ rest →
    Host.Core.run Sys2Proof.core ps.length s = .next ((s.fed ps).setTurns rest)
  | [], _, _, _, h => by
    cases h
    rfl
  | p :: ps, rest, s, hl, h => by
    have hstep : step s = .next ((rxStep p s).setTurns (ps.map .packet ++ rest)) := step_of_packet hl h
    have hnone : (rxStep p s).landings = [] := (rxStep_landings p s).trans hl
    have hrun := run_packets ps (s := (rxStep p s).setTurns (ps.map .packet ++ rest)) hnone rfl
    rw [fed_setTurns] at hrun
    exact (run_succ_of_step (M := Sys2Proof.core) hstep ps.length).trans hrun

/-! ## The packets of a buffer -/

theorem SameRx.trans (h : SameRx s t) (k : SameRx t u) : SameRx s u :=
  ⟨k.platform.trans h.platform, k.mode.trans h.mode, k.rxBuf.trans h.rxBuf, k.msgQ.trans h.msgQ⟩

theorem SameRx.rxEnabled (h : SameRx s t) : t.rxEnabled = s.rxEnabled := by
  rw [State.rxEnabled, h.mode, State.rxEnabled]

/-- Where RX steps, a packet does to the receive side what its CIN says. -/
theorem sameRx_accept_rxStep (p : Packet) (h : s.rxEnabled = true) : SameRx (accept p s) (rxStep p s) := by
  rw [rxStep, receive_of_enabled h]
  have hsame : SameRx s (s.emit (.received p)) := ⟨rfl, rfl, rfl, rfl⟩
  exact hsame.accept p

/-- While its bytes fit, a packet does to the receive side what it would do without a capacity. -/
theorem sameRx_rxStep_of_fits {p : Packet} {f g : State → State} {bs : List Byte} (hp : accept p = f)
    (hf : s.rxBuf.length ≤ Config.sysexMax → f s = g (s.setRxBuf ((s.rxBuf ++ bs).take Config.sysexMax)))
    (h : s.rxEnabled = true) (hfit : (s.rxBuf ++ bs).length ≤ Config.sysexMax) :
    SameRx (g (s.setRxBuf (s.rxBuf ++ bs))) (rxStep p s) := by
  have hlen : s.rxBuf.length ≤ Config.sysexMax := by rw [List.length_append] at hfit; omega
  have hx : SameRx (accept p s) (rxStep p s) := sameRx_accept_rxStep p h
  rwa [hp, hf hlen, List.take_of_length_le hfit] at hx

/-- R137: a packet that carries no message bytes leaves the receive side as it is. -/
theorem sameRx_of_other {p : Packet} (h : carriesMessage p = false) : SameRx s (rxStep p s) := by
  have hne (n : BitVec 4) (hn : (4 ≤ n.toNat && n.toNat ≤ 7) = true) : headerCin p.hdr ≠ n := by
    rintro rfl
    exact absurd hn (by rw [← carriesMessage, h]; decide)
  rw [rxStep, accept_of_other (hne 4 rfl) (hne 5 rfl) (hne 6 rfl) (hne 7 rfl), receive]
  split
  · exact ⟨rfl, rfl, rfl, rfl⟩
  · exact ⟨rfl, rfl, rfl, rfl⟩

/-- Packets of other CINs in between make no difference to the receive side (R137). -/
theorem sameRx_fed_filter (ps : List Packet) (s : State) : SameRx (s.fed (ps.filter carriesMessage)) (s.fed ps) := by
  induction ps generalizing s with
  | nil => exact ⟨rfl, rfl, rfl, rfl⟩
  | cons p ps ih =>
    cases hp : carriesMessage p with
    | true =>
      rw [List.filter_cons_of_pos hp]
      exact ih (rxStep p s)
    | false =>
      rw [List.filter_cons_of_neg (by simp [hp])]
      exact ((sameRx_of_other hp).fed _).trans (ih (rxStep p s))

/-- R139: the packets of bytes whose first F7 is the last append them to the buffer and complete it, if they fit. -/
theorem sameRx_fed_encodePackets (c : BitVec 4) : ∀ {d : List Byte} {s : State}, FirstEnd d (d.length - 1) →
    s.rxEnabled = true → (s.rxBuf ++ d).length ≤ Config.sysexMax →
    SameRx (complete (s.setRxBuf (s.rxBuf ++ d))) (s.fed (encodePackets c d))
  | [], _, h, _, _ => absurd h.inside (Nat.not_lt_zero _)
  | [x], _, h, hrx, hfit => by
    obtain rfl : x = 0xF7 := h.isEnd
    exact sameRx_rxStep_of_fits (accept_of_cin5 (headerCin_header c 5)) (acceptCin5_eq_complete _) hrx hfit
  | [x, y], _, h, hrx, hfit => by
    obtain rfl : y = 0xF7 := h.isEnd
    have hx : x ≠ 0xF7 := h.noneBefore 0 (by simp)
    rw [encodePackets_end_second c hx]
    exact sameRx_rxStep_of_fits (accept_of_cin6 (headerCin_header c 6)) (acceptCin6_eq_complete _ _) hrx hfit
  | [x, y, z], _, h, hrx, hfit => by
    obtain rfl : z = 0xF7 := h.isEnd
    have hx : x ≠ 0xF7 := h.noneBefore 0 (by simp)
    have hy : y ≠ 0xF7 := h.noneBefore 1 (by simp)
    rw [encodePackets_end_third c hx hy]
    exact sameRx_rxStep_of_fits (accept_of_cin7 (headerCin_header c 7)) (acceptCin7_eq_complete _ _ _) hrx hfit
  | x :: y :: z :: w :: rest, s, h, hrx, hfit => by
    have hlast : FirstEnd (x :: y :: z :: w :: rest) (rest.length + 3) := h
    have hx : x ≠ 0xF7 := hlast.noneBefore 0 (by omega)
    have hy : y ≠ 0xF7 := hlast.noneBefore 1 (by omega)
    have hz : z ≠ 0xF7 := hlast.noneBefore 2 (by omega)
    rw [encodePackets_continue c hx hy hz]
    have hsplit : s.rxBuf ++ x :: y :: z :: w :: rest = (s.rxBuf ++ [x, y, z]) ++ w :: rest := by simp
    rw [hsplit] at hfit ⊢
    have hfirst : SameRx (s.setRxBuf (s.rxBuf ++ [x, y, z])) (rxStep ⟨header c 4, x, y, z⟩ s) :=
      sameRx_rxStep_of_fits (g := id) (accept_of_cin4 (headerCin_header c 4)) (acceptCin4_eq_take _ _ _) hrx
        (by rw [List.length_append] at hfit; omega)
    have hbuf : (rxStep ⟨header c 4, x, y, z⟩ s).rxBuf = s.rxBuf ++ [x, y, z] := hfirst.rxBuf
    have hrest := sameRx_fed_encodePackets c hlast.afterThree (hfirst.rxEnabled.trans hrx) (hbuf ▸ hfit)
    rw [hbuf] at hrest
    have hbefore : SameRx (s.setRxBuf ((s.rxBuf ++ [x, y, z]) ++ w :: rest))
        ((rxStep ⟨header c 4, x, y, z⟩ s).setRxBuf ((s.rxBuf ++ [x, y, z]) ++ w :: rest)) :=
      ⟨hfirst.platform, hfirst.mode, rfl, hfirst.msgQ⟩
    exact hbefore.complete.trans hrest

/-- Settles O15: the packet turns feed the packets to RX; those of other CINs leave the receive side alone, and the others
complete the buffer. -/
theorem codecRoundTrip : Obligations.CodecRoundTrip := by
  intro s B c ps rest hrx hempty hl _ hend hmin hmax hnone _ hps hturns
  have hfirst : FirstEnd B (B.length - 1) := ⟨by omega, hend, fun i hi => hnone i (by omega)⟩
  have hfit : (s.rxBuf ++ B).length ≤ Config.sysexMax := by rw [hempty]; exact hmax
  have hx : SameRx (complete (s.setRxBuf B)) (s.fed ps) := by
    have hB := sameRx_fed_encodePackets c hfirst hrx hfit
    rw [hempty, List.nil_append, ← hps] at hB
    exact hB.trans (sameRx_fed_filter ps s)
  have hbuf : (s.fed ps).rxBuf = s.rxBuf := by rw [hx.rxBuf, complete_eq, hempty]
  have hqueue : (s.fed ps).msgQ = if s.msgQ.length < s.params.queueDepth then s.msgQ ++ [B] else s.msgQ := by
    rw [hx.msgQ, complete_eq]; rfl
  rw [run_packets ps hl hturns, fed_frame ps s, hbuf, hqueue, State.heard, if_pos hrx]
  rfl

/-! ## SendSysex and the responses -/

/-- The precondition of R121. -/
theorem sendable_iff (data : List Byte) (cable : Nat) : sendable data cable = true ↔
    data ≠ [] ∧ byteAt data 0 = 0xF0 ∧ byteAt data (data.length - 1) = 0xF7 ∧ cable ≤ 3 := by
  simp [sendable, and_assoc]

/-- Settles O16: the precondition fails, and FAIL is all that is left. -/
theorem sendSysexRejectsMalformed : Obligations.SendSysexRejectsMalformed := by
  intro s data cable hbad
  have hnot : ¬ sendable data cable = true := by
    rw [sendable_iff]
    rintro ⟨hne, hfirst, hlast, hcable⟩
    rcases hbad with h | h | h | h
    · exact hne h
    · exact h hfirst
    · exact h hlast
    · exact absurd hcable (Nat.not_le_of_lt h)
  rw [exec, execSendSysex, runSendSysex, if_neg hnot]
  rfl

/-- Settles O17: what is sendable goes out as its packets, up to a refused one. -/
theorem sendSysexTransmits : Obligations.SendSysexTransmits := by
  intro s data cable hne hfirst hlast hcable ps
  have hsend : runSendSysex data cable s = transmitAll ps s :=
    if_pos ((sendable_iff data cable).mpr ⟨hne, hfirst, hlast, hcable⟩)
  rw [exec, execSendSysex, hsend]
  constructor
  · intro haccepts
    rw [transmitAll_accept ps s haccepts]
    rfl
  · intro k p hk hrefuses
    rw [transmitAll_refuse ps k p s hk hrefuses]
    rfl

/-- R171: a response that goes out whole leaves RESPONDED. -/
theorem finish_respond_of_accepts {r : List Byte} (hr : IsOwnMessage r)
    (h : s.Accepts (replyPackets s.params r).length) :
    (respond r s).finish (fun st s => s.setStatus st) = s.afterReply r := by
  obtain ⟨u, hrespond, hreply⟩ := respond_accept hr h
  rw [hrespond]
  exact hreply

/-- Settles O30: ACK, ERROR and INFO each offer their message and write the status. -/
theorem acceptedResponseGoesOutWhole : Obligations.AcceptedResponseGoesOutWhole := by
  intro s
  refine ⟨?ack, ?error, ?info⟩
  case ack =>
    intro cmd v haccepts
    rw [exec, execAck, finish_respond_of_accepts (ackMsg_own cmd v) haccepts]
  case error =>
    intro cmd code hcode haccepts
    rw [exec, execError, if_neg hcode, finish_respond_of_accepts (errorMsg_own cmd code) haccepts]
  case info =>
    intro haccepts
    rw [exec, execInfo, finish_respond_of_accepts (infoMsg_own s.params) haccepts]

end Sys2Proof.Machine
end

section
/-! PROOFS. Which messages run a command (R151 to R156), and the commands and responses that only respond (R155, R157, R162,
R164, R168 to R171). -/

namespace Sys2Proof.Machine

variable {s t u : State}

/-! ## Which messages run a command -/

/-- R87: the two device ids accepted on receive. -/
theorem exists_devIdByte_iff (b : Byte) : (∃ dev, devIdByte dev = b) ↔ b = 0x40 ∨ b = 0x4E := by
  constructor
  · rintro ⟨dev, rfl⟩
    cases dev with
    | standard => exact .inl rfl
    | legacy => exact .inr rfl
  · rintro (rfl | rfl)
    · exact ⟨.standard, rfl⟩
    · exact ⟨.legacy, rfl⟩

theorem acceptedHeader_layout (dev : DevId) (cmd : Byte) (payload : List Byte) (chk : Byte) :
    acceptedHeader (layout (devIdByte dev) cmd payload chk) := by
  refine ⟨?length, rfl, ?last, rfl, (exists_devIdByte_iff _).mp ⟨dev, rfl⟩⟩
  case length => rw [layout_length]; omega
  case last => rw [layout_eq]; exact byteAt_last_append _ _

/-- R151 to R153: what does not pass decodes to nothing. -/
theorem decodeRequest_of_not_acceptedHeader {m : List Byte} (h : ¬ acceptedHeader m) :
    ∃ r, decodeRequest m = .error r := by
  cases hdec : decodeRequest m with
  | error r => exact ⟨r, rfl⟩
  | ok i =>
    obtain ⟨dev, cmd, payload, chk, rfl, -⟩ := exists_layout_of_decodeRequest hdec
    exact absurd (acceptedHeader_layout dev cmd payload chk) h

/-- R93, R156: what passes decodes to the command that its selector names. -/
theorem decodeRequest_of_acceptedHeader {m : List Byte} (h : acceptedHeader m) : ∃ dev : DevId, devIdByte dev = byteAt m 4 ∧
    decodeRequest m = .ok (commandOf dev (byteAt m 5) (slice m 6 (m.length - 2)) (byteAt m (m.length - 2))) := by
  obtain ⟨hlen, hfirst, hlast, hmanuf, hid⟩ := h
  obtain ⟨dev, hdev⟩ := (exists_devIdByte_iff _).mpr hid
  have hm := layout_of_bytes hlen hfirst hlast hmanuf
  have hdec := decodeRequest_layout dev (byteAt m 5) (slice m 6 (m.length - 2)) (byteAt m (m.length - 2))
  rw [hdev, hm] at hdec
  exact ⟨dev, hdev, hdec⟩

/-- R154: a message that decodes to nothing is dequeued, and nothing runs. -/
theorem fetchOwn_of_ignored {m : List Byte} {q : List (List Byte)} {r : Reject} (hmode : u.mode = .bootloader)
    (hq : u.msgQ = m :: q) (hdec : decodeRequest m = .error r) :
    fetchOwn u = .idle ((u.setMsgQ q).setStatus .ignored) := by
  have hdec' : decode u.params .request m = .error r := hdec
  simp only [fetchOwn, hmode, hq, hdec']

/-- Settles O9: whether the head message decodes is whether it passes R151 to R153. -/
theorem ignoredMessages : Obligations.IgnoredMessages := by
  intro s u m q hown hmode hq
  have hfetch : fetch s = fetchOwn u := fetch_of_ownTurn hown
  have humode : u.mode = .bootloader := hown.mode_eq.trans hmode
  have huq : u.msgQ = m :: q := hown.msgQ_eq.trans hq
  constructor
  · intro hnot
    obtain ⟨r, hdec⟩ := decodeRequest_of_not_acceptedHeader hnot
    exact step_of_fetch_idle (hfetch.trans (fetchOwn_of_ignored humode huq hdec))
  · intro haccepted
    obtain ⟨dev, hdev, hdec⟩ := decodeRequest_of_acceptedHeader haccepted
    exact ⟨dev, hdev, step_of_fetch_run (hfetch.trans (fetchOwn_of_request (ps := u.params) humode huq hdec))⟩

/-! ## The frame of a command, in mode BOOTLOADER -/

/-- R155: with its own checksum the command's body runs. -/
theorem serve_of_checksum {cmd chk : Byte} {payload : List Byte} (hmode : s.mode = .bootloader)
    (hchk : chk = checksum (cmd :: payload)) (body : State → Run SvcStatus) :
    serve cmd payload chk body s = (body s).finish fun st s => s.setStatus st := by
  have hok : checksumOk cmd payload chk = true := beq_iff_eq.mpr hchk
  rw [serve, if_pos hmode, if_pos hok]

/-- R155: with another checksum byte it does not, and the error is all there is. -/
theorem serve_of_wrong_checksum {cmd chk : Byte} {payload : List Byte} (hmode : s.mode = .bootloader)
    (hchk : chk ≠ checksum (cmd :: payload)) (body : State → Run SvcStatus) :
    serve cmd payload chk body s = (respond (errorMsg cmd .checksum) s).finish fun st s => s.setStatus st := by
  have hbad : ¬ checksumOk cmd payload chk = true := fun h => hchk (beq_iff_eq.mp h)
  rw [serve, if_pos hmode, if_neg hbad, raiseErr]

/-! ## What only responds -/

/-- A response and its outcome in `last_status` (R150, R171). -/
theorem responds_finish_respond {r : List Byte} (hr : IsOwnMessage r) (h : s.landings = []) :
    Responds s ((respond r s).finish fun st s => s.setStatus st) r := by
  obtain ⟨st, u, hrun, hresponds⟩ := respond_responds hr h
  rw [hrun]
  exact hresponds

/-- Settles O18: QUERY's body is the response INFO. -/
theorem queryAnswersInfo : Obligations.QueryAnswersInfo := by
  intro s dev payload chk hmode hl hchk
  refine ⟨_, ?_, responds_finish_respond (infoMsg_own s.params) hl⟩
  rw [exec, execQuery, serve_of_checksum hmode hchk]

/-- Settles O19: by whether the checksum is the command's own. -/
theorem unknownCommandAnswersError : Obligations.UnknownCommandAnswersError := by
  intro s dev cmd payload chk hmode hl _ _ _ _
  refine ⟨_, ?_, responds_finish_respond (errorMsg_own cmd _) hl⟩
  by_cases hchk : chk = checksum (cmd :: payload)
  · rw [exec, execUnknownCmd, serve_of_checksum hmode hchk, if_pos hchk, raiseErr]
  · rw [exec, execUnknownCmd, serve_of_wrong_checksum hmode hchk, if_neg hchk]

/-- Settles O20: every command runs in `serve`, which compares the checksum before the body. -/
theorem wrongChecksumAnswersError : Obligations.WrongChecksumAnswersError := by
  intro s dev cmd payload chk hmode hl hchk
  obtain ⟨body, hexec⟩ := exec_commandOf_eq_serve dev cmd payload chk s
  refine ⟨_, ?_, responds_finish_respond (errorMsg_own cmd .checksum) hl⟩
  rw [hexec, serve_of_wrong_checksum hmode hchk]

/-- Settles O28: the mode is written after the response, whatever its outcome. -/
theorem jumpAppAcknowledgesAndSettles : Obligations.JumpAppAcknowledgesAndSettles := by
  intro s dev payload chk hmode hl hchk
  obtain ⟨st, u, hrun, hresponds⟩ := respond_responds (ackMsg_own 0x05 s.params.appStart) hl
  refine ⟨u.setStatus st, ?_, hresponds⟩
  rw [exec, execJumpApp, serve_of_checksum hmode hchk, hrun]
  rfl

/-- Settles O29: each is its response, and ERROR with another code than the reserved one is not refused. -/
theorem responsesAreOffered : Obligations.ResponsesAreOffered := by
  intro s hl
  refine ⟨?ack, ?error, ?info⟩
  case ack =>
    intro cmd v
    exact ⟨_, rfl, responds_finish_respond (ackMsg_own cmd v) hl⟩
  case error =>
    intro cmd code hcode
    exact ⟨_, if_neg hcode, responds_finish_respond (errorMsg_own cmd code) hl⟩
  case info =>
    exact ⟨_, rfl, responds_finish_respond (infoMsg_own s.params) hl⟩

end Sys2Proof.Machine
end

section
/-! PROOFS. WRITE_BLOCK and ERASE_APP with nothing landing inside (R158 to R161, R191 to R197). -/

namespace Sys2Proof.Machine

variable {s t u : State} {payload data : List Byte} {offset : Word}

/-! ## The frames of the flash sequencer's results -/

theorem Programmed.landings {o : Nat} (h : Programmed s t o data) : t.landings = s.landings :=
  by rw [h.frame]

theorem Programmed.params {o : Nat} (h : Programmed s t o data) : t.params = s.params := by rw [h.frame]; rfl

theorem ProgrammedUpTo.landings {o k : Nat} {c : Nat × List Byte} (h : ProgrammedUpTo s t o data k c) :
    t.landings = s.landings := by rw [h.frame]

theorem Erased.landings (h : Erased s t) : t.landings = s.landings := by rw [h.frame]

theorem ErasedUpTo.landings {k : Nat} {x : Sector} (h : ErasedUpTo s t k x) : t.landings = s.landings :=
  by rw [h.frame]

/-! ## The parts of WRITE_BLOCK -/

/-- R160: what has been written is compared, and the comparison answered. -/
def verifyBlock (offset : Word) (data : List Byte) (s : State) : Run SvcStatus :=
  (runVerify offset.toNat data s).bind fun verified s =>
    if verified then respond (ackMsg 0x02 offset) s else raiseErr 0x02 .verifyFailed s

/-- R159: the data of an accepted block is programmed, and compared where that succeeded. -/
def programBlock (offset : Word) (data : List Byte) (s : State) : Run SvcStatus :=
  (runWrite offset.toNat data s).bind fun written s =>
    if written then verifyBlock offset data s else raiseErr 0x02 .writeFailed s

/-- WRITE_BLOCK's body: the payload is parsed (R158), and what it names is programmed and compared. -/
def writeBlockBody (payload : List Byte) (s : State) : Run SvcStatus :=
  match parseWriteBlock payload with
  | none => raiseErr 0x02 .invalidLen s
  | some (offset, data) => programBlock offset data s

theorem exec_writeBlock (dev : DevId) (payload : List Byte) (chk : Byte) (s : State) :
    exec (.writeBlock dev payload chk) s = .next (serve 0x02 payload chk (writeBlockBody payload) s) := rfl

theorem writeBlockBody_of_operands (h : BlockOperands payload offset data) (s : State) :
    writeBlockBody payload s = programBlock offset data s := by
  simp only [writeBlockBody, parseWriteBlock_of_operands h]

theorem exec_writeBlock_of_operands (dev : DevId) {chk : Byte} (hmode : s.mode = .bootloader)
    (hchk : chk = checksum (0x02 :: payload)) (h : BlockOperands payload offset data) :
    exec (.writeBlock dev payload chk) s = .next ((programBlock offset data s).finish fun st s => s.setStatus st) := by
  rw [exec_writeBlock, serve_of_checksum hmode hchk, writeBlockBody_of_operands h]

/-! ## WRITE_BLOCK without a flash call -/

/-- R158: the four conditions under which WRITE_BLOCK has no operands. -/
theorem parseWriteBlock_of_bad_length
    (h : payload.length + 8 < 15 ∨ dec2 (byteAt payload 5) (byteAt payload 6) = 0 ∨
      dec2 (byteAt payload 5) (byteAt payload 6) > 256 ∨
      payload.length + 8 ≠ 15 + dec2 (byteAt payload 5) (byteAt payload 6)) :
    parseWriteBlock payload = none := by
  by_cases hshort : payload.length + 8 < 15
  · exact if_pos hshort
  · simp only [parseWriteBlock, if_neg hshort]
    exact if_pos (h.resolve_left hshort)

/-- Settles O22: the parse fails, and the error is all there is. -/
theorem writeBlockBadLength : Obligations.WriteBlockBadLength := by
  intro s dev payload chk hmode hl hchk hbad
  have hbody : writeBlockBody payload s = respond (errorMsg 0x02 .invalidLen) s := by
    simp only [writeBlockBody, parseWriteBlock_of_bad_length hbad, raiseErr]
  refine ⟨_, ?_, responds_finish_respond (errorMsg_own 0x02 .invalidLen) hl⟩
  rw [exec_writeBlock, serve_of_checksum hmode hchk, hbody]

/-- R193: the range check comes before any call. -/
theorem runWrite_of_out_of_range {o : Nat} (h : s.params.appMaxSize.toNat < o + data.length) :
    runWrite o data s = .done false s := by
  have hout : ¬ inRange s.params o data.length = true := by
    rw [inRange, decide_eq_true_eq]; omega
  rw [runWrite, if_neg hout]

theorem programBlock_of_write_failed (h : runWrite offset.toNat data s = .done false u) :
    programBlock offset data s = respond (errorMsg 0x02 .writeFailed) u := by
  rw [programBlock, h]
  rfl

/-- Settles O23: the write fails in the state it began in. -/
theorem writeBlockOutOfRange : Obligations.WriteBlockOutOfRange := by
  intro s dev payload chk offset data hmode hl hchk hops hout
  refine ⟨_, ?_, responds_finish_respond (errorMsg_own 0x02 .writeFailed) hl⟩
  rw [exec_writeBlock_of_operands dev hmode hchk hops, programBlock_of_write_failed (runWrite_of_out_of_range hout)]

/-! ## WRITE_BLOCK in range -/

theorem programBlock_of_written (h : runWrite offset.toNat data s = .done true u) :
    programBlock offset data s = verifyBlock offset data u := by
  rw [programBlock, h]
  rfl

theorem verifyBlock_of_equal (h : runVerify offset.toNat data s = .done true u) :
    verifyBlock offset data s = respond (ackMsg 0x02 offset) u := by
  rw [verifyBlock, h]
  rfl

theorem verifyBlock_of_different (h : runVerify offset.toNat data s = .done false u) :
    verifyBlock offset data s = respond (errorMsg 0x02 .verifyFailed) u := by
  rw [verifyBlock, h]
  rfl

/-- Settles O24: the write leaves the state `Programmed` describes, and the response is the comparison's, by whether flash
then holds the data. -/
theorem writeBlockProgramsAndVerifies : Obligations.WriteBlockProgramsAndVerifies := by
  intro s dev payload chk offset data hmode hchk hops hr haccepts start
  obtain ⟨u, hwrite, hprog⟩ := runWrite_accept hr hops.bound.1 haccepts
  have hl : u.landings = [] := hprog.landings.trans haccepts.1
  obtain ⟨b, es, hverify, hb, -, hequal, hreads⟩ := runVerify_done offset.toNat data hl
  rw [hprog.params, and_iff_right hr] at hb
  rw [hprog.params] at hequal
  have hexec := exec_writeBlock_of_operands dev hmode hchk hops
  rw [programBlock_of_written hwrite] at hexec
  cases b with
  | true =>
    rw [verifyBlock_of_equal hverify] at hexec
    exact ⟨u, _, _, hexec, hprog, rfl,
      fun _ => ⟨by rw [hequal rfl], responds_finish_respond (ackMsg_own 0x02 offset) hl⟩,
      fun hnot => absurd (hb.mp rfl) hnot⟩
  | false =>
    rw [verifyBlock_of_different hverify] at hexec
    exact ⟨u, _, _, hexec, hprog, rfl,
      fun hholds => absurd (hb.mpr hholds) Bool.false_ne_true,
      fun _ => ⟨⟨es, rfl, hreads⟩, responds_finish_respond (errorMsg_own 0x02 .verifyFailed) hl⟩⟩

/-- Settles O25: the write fails at the refused unit, and nothing is compared. -/
theorem writeBlockRefusedUnit : Obligations.WriteBlockRefusedUnit := by
  intro s dev payload chk offset data k c hmode hchk hops hr hc hrefuses
  obtain ⟨u, hwrite, hprog⟩ := runWrite_refuse hr hops.bound.1 hc hrefuses
  have hl : u.landings = [] := hprog.landings.trans hrefuses.1
  refine ⟨u, _, ?_, hprog, responds_finish_respond (errorMsg_own 0x02 .writeFailed) hl⟩
  rw [exec_writeBlock_of_operands dev hmode hchk hops, programBlock_of_write_failed hwrite]

/-! ## ERASE_APP -/

/-- ERASE_APP's body (R161). -/
def eraseAppBody (s : State) : Run SvcStatus :=
  (runErase s).bind fun erased s => if erased then respond (ackMsg 0x04 0) s else raiseErr 0x04 .eraseFailed s

theorem exec_eraseApp (dev : DevId) (payload : List Byte) (chk : Byte) (s : State) :
    exec (.eraseApp dev payload chk) s = .next (serve 0x04 payload chk eraseAppBody s) := rfl

/-- Settles O26: the erase succeeds, and is acknowledged. -/
theorem eraseAppErasesAll : Obligations.EraseAppErasesAll := by
  intro s dev payload chk hmode hchk haccepts
  obtain ⟨u, hrun, herased⟩ := runErase_accept haccepts
  have hl : u.landings = [] := herased.landings.trans haccepts.1
  refine ⟨u, _, ?_, herased, responds_finish_respond (ackMsg_own 0x04 0) hl⟩
  rw [exec_eraseApp, serve_of_checksum hmode hchk, eraseAppBody, hrun]
  rfl

/-- Settles O27: the erase fails at the refused sector, and the error says so. -/
theorem eraseAppStopsAtRefusal : Obligations.EraseAppStopsAtRefusal := by
  intro s dev payload chk k x hmode hchk hx hrefuses
  obtain ⟨u, hrun, herased⟩ := runErase_refuse hx hrefuses
  have hl : u.landings = [] := herased.landings.trans hrefuses.1
  refine ⟨u, _, ?_, herased, responds_finish_respond (errorMsg_own 0x04 .eraseFailed) hl⟩
  rw [exec_eraseApp, serve_of_checksum hmode hchk, eraseAppBody, hrun]
  rfl

end Sys2Proof.Machine
end

section
/-! PROOFS. The jump with packets landing before it (R210, R211, R252), and the jump step of JUMP_APP (R163). -/

namespace Sys2Proof.Machine

variable {s t x : State} {α : Type}

/-! ## SettleDone -/

theorem exec_settleDone_of_settle (h : s.mode = .settle) :
    exec .settleDone s = .next ((runJump s).finish stayIfRemained) := congrArg Host.Outcome.next (if_pos h)

theorem exec_settleDone_of_ne_settle (h : s.mode ≠ .settle) : exec .settleDone s = .next s :=
  congrArg Host.Outcome.next (if_neg h)

/-- R212: a fault at either vector read, and nothing but reads has been done. -/
theorem runJump_fault (h : s.landings = []) (hfault : s.answer = .fail ∨ s.drawn.answer = .fail) :
    ∃ (l : List Answer) (d : Nat) (es : List Event),
      runJump s = .done false { s with trace := s.trace ++ es, answers := l, draws := d } ∧
        ∀ e ∈ es, ∃ a r, e = .memRead a 4 r := by
  obtain ⟨l, d, es, hread, hes⟩ := readVectorTable_fault h hfault
  exact ⟨l, d, es, by rw [runJump, hread]; rfl, hes⟩

/-- Settles O45: by what the jump answers. -/
theorem settleDoneJumpsOrReturns : Obligations.SettleDoneJumpsOrReturns := by
  intro s
  refine ⟨?decides, ?faults, exec_settleDone_of_ne_settle⟩
  case decides =>
    intro hmode haccepts hmapped
    rw [exec_settleDone_of_settle hmode]
    cases hvalid : validTable s.params s.vectorTable with
    | true => rw [runJump_valid haccepts hmapped hvalid]; rfl
    | false => rw [runJump_invalid haccepts hmapped hvalid]; rfl
  case faults =>
    intro hmode hl hfault
    obtain ⟨l, d, es, hrun, hes⟩ := runJump_fault hl hfault
    have hexec := exec_settleDone_of_settle hmode
    rw [hrun] at hexec
    exact ⟨_, es, hexec, rfl, hes⟩

/-! ## Amid a step that packets land in -/

/-- `x` amid a step that began in `s`: the packets `ps` have arrived, the receive side is what their RX steps make of that of
`s`, the trace is `tr`, and `ls` is yet to land. -/
def State.amid (x s : State) (ps : List Packet) (tr : List Event) (ls : List Landing) : State :=
  x.besides (s.fed ps).rxBuf (s.fed ps).msgQ tr ls

/-- A step begins amid itself. -/
theorem State.amid_nil (s : State) : s.amid s [] s.trace s.landings = s := rfl

/-- A change that neither reads nor writes what packets change. -/
def IgnoresArrivals (f : State → State) : Prop :=
  ∀ (x : State) (buf : List Byte) (q : List (List Byte)) (tr : List Event) (ls : List Landing),
    f (x.besides buf q tr ls) = (f x).besides buf q tr ls

theorem heard_of_mode_eq (h : t.mode = s.mode) (ps : List Packet) : t.heard ps = s.heard ps := by
  rw [State.heard, State.rxEnabled, h]; rfl

/-- More packets arrive; RX reads the mode that the step began in. -/
theorem fed_amid (hplatform : x.platform = s.platform) (hmode : x.mode = s.mode) (ps qs : List Packet) (tr : List Event)
    (ls : List Landing) : (x.amid s ps tr ls).fed qs = x.amid s (ps ++ qs) (tr ++ s.heard qs) ls := by
  have hsame : SameRx (s.fed ps) (x.amid s ps tr ls) :=
    ⟨hplatform.trans (fed_still ps s).platform.symm, hmode.trans (fed_still ps s).mode.symm, rfl, rfl⟩
  have hfed : SameRx (s.fed (ps ++ qs)) ((x.amid s ps tr ls).fed qs) := by
    rw [fed_append]; exact hsame.fed qs
  have hheard : (x.amid s ps tr ls).heard qs = s.heard qs := heard_of_mode_eq hmode qs
  rw [fed_frame qs, hfed.rxBuf, hfed.msgQ, hheard]
  rfl

section
variable {ps : List Packet} {tr : List Event} {ls : List Landing} (hplatform : x.platform = s.platform)
  (hmode : x.mode = s.mode) (hls : OnlyPackets ls)
include hplatform hmode hls

/-- A call amid a step is made once the packets up to it have arrived. -/
theorem atCall_amid (p : State → State) (f : State → Run α) : atCall (x.amid s ps tr ls) p f =
    f (x.amid s (ps ++ packetsBefore 0 ls) (tr ++ s.heard (packetsBefore 0 ls)) (afterCalls 1 ls)) := by
  rw [atCall_packets (s := x.amid s ps tr ls) hls, fed_amid hplatform hmode]
  rfl

theorem memReadWord_amid {a : Nat} (ha : a + 4 ≤ Config.addressSpace) (hok : x.answer = .ok) :
    memReadWord a (x.amid s ps tr ls) = .done (some (x.word a)) (x.drawn.amid s (ps ++ packetsBefore 0 ls)
      (tr ++ s.heard (packetsBefore 0 ls) ++ [.memRead a 4 (some (x.bytes4 a))]) (afterCalls 1 ls)) := by
  rw [memReadWord, atCall_amid hplatform hmode hls]
  exact if_pos ⟨ha, hok⟩

theorem voidCall_amid (e : Event) {f : State → State} (hf : IgnoresArrivals f) : voidCall e f (x.amid s ps tr ls) =
    .done () ((f x).amid s (ps ++ packetsBefore 0 ls) (tr ++ s.heard (packetsBefore 0 ls) ++ [e]) (afterCalls 1 ls)) := by
  rw [voidCall, atCall_amid hplatform hmode hls, State.amid, hf]
  rfl

end

/-- R211, D41: where RX may not step, what would land before a call does not. -/
theorem maskedCall_amid {ps : List Packet} {tr : List Event} {ls : List Landing} (hls : OnlyPackets ls) (e : Event)
    {f : State → State} (hf : IgnoresArrivals f) :
    maskedCall e f (x.amid s ps tr ls) = .done () ((f x).amid s ps (tr ++ [e]) (afterCalls 1 ls)) := by
  have hcall : maskedCall e f (x.amid s ps tr ls) = .done () ((f (x.amid s ps tr (afterCalls 1 ls))).emit e) :=
    maskedCall_packets (s := x.amid s ps tr ls) hls
  rw [hcall, State.amid, hf]
  rfl

/-! ## The jump, call by call -/

theorem State.drawn_drawn (s : State) : s.drawn.drawn = { s with answers := s.answers.drop 2, draws := s.draws + 2 } := by
  have hanswers : s.answers.tail.tail = s.answers.drop 2 := by rw [← List.drop_one, drop_tail]
  rw [← hanswers]
  rfl

/-- The trace once both vector words have been read, each after the packets that landed before it (R206). -/
def State.traceOfVectorReads (s : State) : List Event :=
  s.trace ++ s.heard (packetsBefore 0 s.landings) ++ [.memRead s.params.appLo 4 (some (s.bytes4 s.params.appLo))] ++
    s.heard (packetsBefore 1 s.landings) ++ [.memRead (s.params.appLo + 4) 4 (some (s.bytes4 (s.params.appLo + 4)))]

/-- R206: both words read, with the packets before each received where it is read. -/
theorem readVectorTable_packets (hls : OnlyPackets s.landings) (hmapped : VectorsMapped s.params) (hok : s.answer = .ok)
    (hok' : s.drawn.answer = .ok) : readVectorTable s = .done (some s.vectorTable)
      (s.drawn.drawn.amid s (packetsBefore 0 s.landings ++ packetsBefore 1 s.landings)
        s.traceOfVectorReads (afterCalls 2 s.landings)) := by
  have hfirst : memReadWord s.params.appLo s = _ :=
    memReadWord_amid (x := s) (ps := []) (tr := s.trace) rfl rfl hls (by simp only [VectorsMapped] at hmapped; omega) hok
  rw [readVectorTable, hfirst, Run.bind_done]
  have hsecond := memReadWord_amid (x := s.drawn) (s := s) (ps := packetsBefore 0 s.landings)
    (tr := s.trace ++ s.heard (packetsBefore 0 s.landings) ++
      [.memRead s.params.appLo 4 (some (s.bytes4 s.params.appLo))]) rfl rfl hls.afterCalls
    (a := s.params.appLo + 4) hmapped hok'
  exact congrArg (fun r => Run.bind r _) hsecond

/-- R211: the packets before `DisableInterrupts()` are received, and then the four calls stand next to each other. -/
theorem jumpCalls_amid {ps : List Packet} {tr : List Event} {ls : List Landing} (hplatform : x.platform = s.platform)
    (hmode : x.mode = s.mode) (hls : OnlyPackets ls) (v : VectorTable) : jumpCalls v (x.amid s ps tr ls) =
      .done () ((x.setMode .jumped).amid s (ps ++ packetsBefore 0 ls) (tr ++ s.heard (packetsBefore 0 ls) ++
        [.disableInterrupts, .relocateVectorTable x.params.appStart, .setStackPointer v.sp, .branch v.rv])
        (afterCalls 4 ls)) := by
  have hid : IgnoresArrivals id := fun _ _ _ _ _ => rfl
  have hjumped : IgnoresArrivals fun s => s.setMode .jumped := fun _ _ _ _ _ => rfl
  have hls1 := hls.afterCalls
  have hls2 := hls1.afterCalls
  have hls3 := hls2.afterCalls
  rw [jumpCalls, voidCall_amid hplatform hmode hls _ hid, Run.bind_done, maskedCall_amid hls1 _ hid, Run.bind_done,
    maskedCall_amid hls2 _ hid, Run.bind_done, maskedCall_amid hls3 _ hjumped, Run.bind_done]
  simp only [List.append_assoc, List.cons_append, List.nil_append]
  rfl

/-- R210, R211: the state that JumpToApplication ends in with a valid table. -/
theorem runJump_packets (hls : OnlyPackets s.landings) (hmapped : VectorsMapped s.params) (hok : s.answer = .ok)
    (hok' : s.drawn.answer = .ok) (hvalid : validTable s.params s.vectorTable = true) :
    runJump s = .done true ((s.drawn.drawn.setMode .jumped).amid s
      (packetsBefore 0 s.landings ++ packetsBefore 1 s.landings ++ packetsBefore 2 s.landings)
      (s.traceOfVectorReads ++ s.heard (packetsBefore 2 s.landings) ++
        [.disableInterrupts, .relocateVectorTable s.params.appStart, .setStackPointer s.vectorTable.sp,
          .branch s.vectorTable.rv]) (afterCalls 6 s.landings)) := by
  have hls2 : OnlyPackets (afterCalls 2 s.landings) := hls.afterCalls.afterCalls
  rw [runJump, readVectorTable_packets hls hmapped hok hok', Run.bind_done]
  refine (if_pos hvalid).trans ?_
  rw [jumpCalls_amid (x := s.drawn.drawn) (s := s) rfl rfl hls2]
  rfl

/-- JumpToApplication, and SettleDone in SETTLE, are the jump where it does not return. -/
theorem exec_eq_of_runJump {i : Instr} (hi : i = .jumpToApplication ∨ i = .settleDone ∧ s.mode = .settle)
    (h : runJump s = .done true t) : exec i s = .next t := by
  rcases hi with rfl | ⟨rfl, hmode⟩
  · rw [exec, execJumpToApplication, h]; rfl
  · rw [exec_settleDone_of_settle hmode, h]; rfl

/-- Settles O43: the two reads, `DisableInterrupts()` and the three calls after it, one by one. -/
theorem jumpToApplicationJumps : Obligations.JumpToApplicationJumps := by
  intro s i hi hls hanswers hmapped hvalid p rx
  have haccepts : (s.setLandings []).Accepts 2 := ⟨rfl, hanswers⟩
  have hok : s.answer = .ok := haccepts.answer
  have hok' : s.drawn.answer = .ok := State.drawn_answer_of_accepts (s := s.setLandings []) haccepts
  rw [exec_eq_of_runJump hi (runJump_packets hls hmapped hok hok' hvalid), State.drawn_drawn]
  rfl

end Sys2Proof.Machine
end

section
/-! PROOFS. Every command with packets landing among its calls ends as it does without them, but for what the packets do
(R150, R254). -/

namespace Sys2Proof.Machine

variable {α : Type} {b t u : State}

/-! ## How the two runs end -/

/-- `t` and `u` are how a command begun in `b` ends, undisturbed and having met the packets among `ls`: what `Along` says of
the two runs under way, but for the mode, which the end of a command may write. -/
structure EndsAlong (b : State) (ls : List Landing) (t u : State) : Prop where
  met : b.landings = ls ++ u.landings
  frame : u = { t with
    rxBuf := (b.fed (packetsOf ls)).rxBuf
    msgQ := (b.fed (packetsOf ls)).msgQ
    trace := u.trace
    landings := u.landings }
  calls : u.trace.filter (fun e => !e.isReceived) = t.trace.filter (fun e => !e.isReceived)
  packets : u.trace.filter Event.isReceived = t.trace.filter Event.isReceived ++ (packetsOf ls).map .received

theorem Along.endsAlong {ls : List Landing} (h : Along b ls t u) : EndsAlong b ls t u := ⟨h.met, h.frame, h.calls, h.packets⟩

/-! A change that ignores arrivals leaves the trace and the landings alone. -/

theorem IgnoresArrivals.eq_besides {f : State → State} (hf : IgnoresArrivals f) (s : State) :
    f s = (f s).besides s.rxBuf s.msgQ s.trace s.landings :=
  hf s s.rxBuf s.msgQ s.trace s.landings

theorem IgnoresArrivals.trace_eq {f : State → State} (hf : IgnoresArrivals f) (s : State) : (f s).trace = s.trace := by
  rw [hf.eq_besides, State.besides]

theorem IgnoresArrivals.landings_eq {f : State → State} (hf : IgnoresArrivals f) (s : State) :
    (f s).landings = s.landings := by
  rw [hf.eq_besides, State.besides]

/-- The same change at the end of both runs. -/
theorem EndsAlong.map {ls : List Landing} {f : State → State} (h : EndsAlong b ls t u) (hf : IgnoresArrivals f) :
    EndsAlong b ls (f t) (f u) where
  met := by rw [hf.landings_eq]; exact h.met
  frame := by
    rw [hf.trace_eq, hf.landings_eq]
    conv_lhs => rw [h.frame]
    exact hf t (b.fed (packetsOf ls)).rxBuf (b.fed (packetsOf ls)).msgQ u.trace u.landings
  calls := by rw [hf.trace_eq, hf.trace_eq]; exact h.calls
  packets := by rw [hf.trace_eq, hf.trace_eq]; exact h.packets

theorem Follows.finish {op : State → Run α} {f : α → State → State} (h : Follows b op) (hf : ∀ a, IgnoresArrivals (f a)) :
    ∃ ls, EndsAlong b ls ((op { b with landings := [] }).finish f) ((op b).finish f) := by
  obtain ⟨a, t, u, ls, hrun, hrun', halong⟩ := h [] _ b (.begin b)
  rw [hrun, hrun']
  exact ⟨ls, halong.endsAlong.map (hf a)⟩

/-! ## The commands -/

/-- A command's body, with its outcome written to `last_status`, ends along with itself undisturbed. -/
def FinishesAlong (b : State) (body : State → Run SvcStatus) : Prop :=
  ∃ ls, EndsAlong b ls ((body { b with landings := [] }).finish fun st s => s.setStatus st)
    ((body b).finish fun st s => s.setStatus st)

theorem Follows.finishesAlong {body : State → Run SvcStatus} (h : Follows b body) : FinishesAlong b body :=
  h.finish fun _ _ _ _ _ _ => rfl

/-- JUMP_APP's body: the mode is written after the response (R162). -/
def jumpAppBody (s : State) : Run SvcStatus :=
  (respond (ackMsg 0x05 s.params.appStart) s).bind fun st s => .done st (s.setMode .settle)

theorem finish_bind_done (r : Run α) (f : State → State) (g : α → State → State) :
    (r.bind fun a s => .done a (f s)).finish g = r.finish fun a s => g a (f s) := by
  cases r with
  | done a s => rfl
  | cut s => rfl

section
variable (hb : b.rxEnabled = true) (ho : OnlyPackets b.landings)
include hb ho

theorem raiseErr_follows (cmd : Byte) (code : ErrorCode) : Follows b (raiseErr cmd code) :=
  respond_follows hb ho (errorMsg cmd code)

theorem query_finishesAlong : FinishesAlong b fun s => respond (infoMsg s.params) s :=
  (Follows.byParams (op := fun p => respond (infoMsg p)) fun p => respond_follows hb ho (infoMsg p)).finishesAlong

theorem verifyBlock_follows (offset : Word) (data : List Byte) : Follows b (verifyBlock offset data) := by
  refine (runVerify_follows hb ho offset.toNat data).bind fun verified => ?_
  cases verified with
  | true => exact respond_follows hb ho _
  | false => exact raiseErr_follows hb ho _ _

theorem programBlock_follows (offset : Word) (data : List Byte) : Follows b (programBlock offset data) := by
  refine (runWrite_follows hb ho offset.toNat data).bind fun written => ?_
  cases written with
  | true => exact verifyBlock_follows hb ho offset data
  | false => exact raiseErr_follows hb ho _ _

theorem writeBlock_finishesAlong (payload : List Byte) : FinishesAlong b (writeBlockBody payload) := by
  refine Follows.finishesAlong ?_
  unfold writeBlockBody
  split
  · exact raiseErr_follows hb ho _ _
  · exact programBlock_follows hb ho _ _

theorem eraseApp_finishesAlong : FinishesAlong b eraseAppBody := by
  refine Follows.finishesAlong ((runErase_follows hb ho).bind fun erased => ?_)
  cases erased with
  | true => exact respond_follows hb ho _
  | false => exact raiseErr_follows hb ho _ _

/-- The mode is written after the last call, where both runs have ended. -/
theorem jumpApp_finishesAlong : FinishesAlong b jumpAppBody := by
  have hack : Follows b fun s => respond (ackMsg 0x05 s.params.appStart) s :=
    Follows.byParams (op := fun p => respond (ackMsg 0x05 p.appStart)) fun p => respond_follows hb ho _
  unfold FinishesAlong jumpAppBody
  rw [finish_bind_done, finish_bind_done]
  exact hack.finish fun _ _ _ _ _ _ => rfl

/-- Every command runs a body in the one frame, and the body ends along with itself undisturbed. -/
theorem exec_commandOf_finishesAlong (dev : DevId) (cmd : Byte) (payload : List Byte) (chk : Byte) :
    ∃ body, (∀ s, exec (commandOf dev cmd payload chk) s = .next (serve cmd payload chk body s)) ∧ FinishesAlong b body := by
  unfold commandOf
  split
  · subst cmd; exact ⟨_, fun _ => rfl, query_finishesAlong hb ho⟩
  split
  · subst cmd; exact ⟨_, exec_writeBlock dev payload chk, writeBlock_finishesAlong hb ho payload⟩
  split
  · subst cmd; exact ⟨_, exec_eraseApp dev payload chk, eraseApp_finishesAlong hb ho⟩
  split
  · subst cmd; exact ⟨_, fun _ => rfl, jumpApp_finishesAlong hb ho⟩
  · exact ⟨_, fun _ => rfl, (raiseErr_follows hb ho cmd .invalidCmd).finishesAlong⟩

/-- The frame around a body: with a wrong checksum only the error is sent, along with itself too. -/
theorem serve_endsAlong {body : State → Run SvcStatus} (hmode : b.mode = .bootloader) (h : FinishesAlong b body)
    (cmd : Byte) (payload : List Byte) (chk : Byte) :
    ∃ ls, EndsAlong b ls (serve cmd payload chk body { b with landings := [] }) (serve cmd payload chk body b) := by
  by_cases hchk : chk = checksum (cmd :: payload)
  · rw [serve_of_checksum (s := { b with landings := [] }) hmode hchk, serve_of_checksum hmode hchk]
    exact h
  · rw [serve_of_wrong_checksum (s := { b with landings := [] }) hmode hchk, serve_of_wrong_checksum hmode hchk]
    exact (respond_follows hb ho _).finishesAlong

end

/-- Settles O60: an RX step is what a packet's instruction does, and each command's body ends along with itself
undisturbed. -/
theorem packetsInsideCommand : Obligations.PacketsInsideCommand := by
  refine ⟨exec_decodePacket, fun s t dev cmd payload chk hmode ho hplain => ?_⟩
  have hrx : s.rxEnabled = true := by simp [State.rxEnabled, hmode]
  obtain ⟨body, hexec, hbody⟩ := exec_commandOf_finishesAlong hrx ho dev cmd payload chk
  obtain ⟨ls, hends⟩ := serve_endsAlong hrx ho hmode hbody cmd payload chk
  rw [hexec] at hplain
  obtain rfl := Host.Outcome.next.inj hplain
  exact ⟨_, ls, hexec s, hends.met, hends.frame, hends.calls, hends.packets⟩

end Sys2Proof.Machine
end

section
/-! PROOFS. The flash service called directly (42_flash_service.md): the erase, WriteFlash and its units, VerifyFlash, and
CRC-32 (R191 to R200). -/

namespace Sys2Proof.Machine

variable {s t u : State} {data : List Byte} {offset len : Word}

/-! ## Erase (R191, R192) -/

theorem exec_eraseApplication_of_done {b : Bool} (h : runErase s = .done b u) :
    exec .eraseApplication s = .next { u with result := if b then .ok else .fail } := by
  rw [exec, execEraseApplication, h]
  rfl

/-- Settles O32: the erase's own result, kept as its answer. -/
theorem eraseApplicationErases : Obligations.EraseApplicationErases := by
  intro s
  constructor
  · intro haccepts
    obtain ⟨u, hrun, herased⟩ := runErase_accept haccepts
    exact ⟨u, exec_eraseApplication_of_done hrun, herased⟩
  · intro k x hx hrefuses
    obtain ⟨u, hrun, herased⟩ := runErase_refuse hx hrefuses
    exact ⟨u, exec_eraseApplication_of_done hrun, herased⟩

/-- R9 (d): sectors that cover a range hold each of its addresses. -/
theorem exists_sector_of_coversFrom {hi a : Nat} (ha : a < hi) : ∀ {xs : List Sector} {lo : Nat},
    coversFrom lo hi xs = true → lo ≤ a → ∃ x ∈ xs, x.Has a
  | [], lo, hcovers, hlo => by
    have hempty : hi ≤ lo := of_decide_eq_true hcovers
    omega
  | x :: xs, lo, hcovers, hlo => by
    simp only [coversFrom, Bool.or_eq_true, Bool.and_eq_true, decide_eq_true_eq] at hcovers
    rcases hcovers with hempty | ⟨hbase, hrest⟩
    · omega
    by_cases hx : a < x.hi
    · exact ⟨x, List.mem_cons_self .., by omega, hx⟩
    · obtain ⟨y, hy, hya⟩ := exists_sector_of_coversFrom ha hrest (by omega)
      exact ⟨y, List.mem_cons_of_mem x hy, hya⟩

theorem State.sectorsCover (s : State) : coversFrom s.params.appLo s.params.appHi s.params.sectors = true := by
  have hlegal := s.platform.2
  simp only [Params.legal, Bool.and_eq_true] at hlegal
  obtain ⟨⟨⟨⟨⟨⟨⟨_, hcover⟩, _⟩, _⟩, _⟩, _⟩, _⟩, _⟩ := hlegal
  exact hcover

/-- R50: canonical memory lists no address past the address space. -/
theorem Memory.read_past_end {m : Memory} (hm : m.wf) {a : Nat} (ha : Config.addressSpace ≤ a) : m.read a = Memory.blank := by
  have hnone : m.lookup a = none := by
    refine List.lookup_eq_none_iff.mpr fun c hc => ?_
    have hlt := (hm.2 c hc).2
    rw [bne_iff_ne]
    omega
  rw [Memory.read, hnone]
  rfl

theorem Erased.params (h : Erased s t) : t.params = s.params := by rw [h.frame]; rfl

/-- R192: an erase leaves flash that an erase has left as it is. -/
theorem Erased.flash_eq_of_again {r : OpResult} (h : Erased s t) (h' : Erased (t.setResult r) u) (ht : t.flash.wf)
    (hu : u.flash.wf) : u.flash = t.flash := by
  have hsectors : (t.setResult r).params = s.params := h.params
  refine Memory.eq_of_read_eq hu ht fun a => ?_
  by_cases hin : ∃ x ∈ s.params.sectors, x.Has a
  · obtain ⟨x, hx, hxa⟩ := hin
    by_cases ha : a < Config.addressSpace
    · rw [h.erased x hx a ha hxa, h'.erased x (by rwa [hsectors]) a ha hxa, hsectors]
    · rw [Memory.read_past_end hu (Nat.le_of_not_lt ha), Memory.read_past_end ht (Nat.le_of_not_lt ha)]
  · exact h'.kept a fun x hx hxa => hin ⟨x, by rwa [hsectors] at hx, hxa⟩

theorem runErase_wf {b : Bool} (h : runErase s = .done b t) (hs : s.flash.wf) : t.flash.wf := by
  have hquiet := runErase_ends s
  rw [h] at hquiet
  exact Quiet.wf hquiet hs

/-- An erase called directly, accepted throughout: its answer apart it ends in the state `Erased` describes. -/
theorem erased_of_exec (h : exec .eraseApplication s = .next u) (haccepts : s.Accepts s.params.sectors.length) :
    ∃ t, runErase s = .done true t ∧ Erased s t ∧ u = t.setResult .ok := by
  obtain ⟨t, hrun, herased⟩ := runErase_accept haccepts
  rw [exec_eraseApplication_of_done hrun, Host.Outcome.next.injEq] at h
  exact ⟨t, hrun, herased, h.symm⟩

/-- Settles O33: the sectors cover the region, and a second erase writes what is there. -/
theorem eraseCoversRegionAndIsIdempotent : Obligations.EraseCoversRegionAndIsIdempotent := by
  intro s u t hwf haccepts hexec
  obtain ⟨v, hrun, herased, rfl⟩ := erased_of_exec hexec haccepts
  constructor
  · intro a hlo hhi
    obtain ⟨x, hx, hxa⟩ := exists_sector_of_coversFrom hhi s.sectorsCover hlo
    exact herased.erased x hx a (Nat.lt_of_lt_of_le hhi (appHi_le s)) hxa
  · intro haccepts' hexec'
    obtain ⟨w, hrun', herased', rfl⟩ := erased_of_exec hexec' (by rwa [State.setResult_params, herased.params])
    have hwfv : v.flash.wf := runErase_wf hrun hwf
    have hwfw : w.flash.wf := runErase_wf hrun' hwfv
    have hsame : w.flash = v.flash := herased.flash_eq_of_again herased' hwfv hwfw
    exact hsame

/-! ## WriteFlash (R193 to R196) -/

theorem exec_writeFlash_of_done {b : Bool} (hlen : len.toNat ≤ data.length)
    (h : runWrite offset.toNat (data.take len.toNat) s = .done b u) :
    exec (.writeFlash offset data len) s = .next { u with result := if b then .ok else .fail } := by
  rw [exec, execWriteFlash, operandBytes_of_le hlen, h]
  rfl

/-- Settles O35: the write's own result, kept as its answer. -/
theorem writeFlashPrograms : Obligations.WriteFlashPrograms := by
  intro s offset data len hlen hpos hr calls
  have htake : (data.take len.toNat).length = len.toNat := List.length_take_of_le hlen
  rw [← htake] at hpos hr
  constructor
  · intro haccepts
    obtain ⟨u, hrun, hprog⟩ := runWrite_accept hr hpos haccepts
    exact ⟨u, exec_writeFlash_of_done hlen hrun, hprog⟩
  · intro k c hc hrefuses
    obtain ⟨u, hrun, hprog⟩ := runWrite_refuse hr hpos hc hrefuses
    exact ⟨u, exec_writeFlash_of_done hlen hrun, hprog⟩

/-- R196: no data in range is written without a call. -/
theorem runWrite_of_no_data {o : Nat} (hr : o ≤ s.params.appMaxSize.toNat) (h : data.length = 0) :
    runWrite o data s = .done true s := by
  have hin : inRange s.params o data.length = true := by rwa [inRange, decide_eq_true_eq, h]
  rw [runWrite, if_pos hin, if_pos h]

/-- Settles O34: the write ends in the state it began in, by whether it is in range. -/
theorem writeFlashWithoutCalls : Obligations.WriteFlashWithoutCalls := by
  intro s offset data len hlen
  have htake : (data.take len.toNat).length = len.toNat := List.length_take_of_le hlen
  constructor
  · intro hout
    rw [← htake] at hout
    exact exec_writeFlash_of_done hlen (runWrite_of_out_of_range hout)
  · intro hin hzero
    exact exec_writeFlash_of_done hlen (runWrite_of_no_data hin (htake.trans hzero))

/-! ## The units (R194) -/

/-- The first `n` units end to end are the data they reach and the padding past its end. -/
theorem flatten_progUnitBytes (p : Params) (data : List Byte) (n : Nat) :
    ((List.range n).map (progUnitBytes p data)).flatten =
      data.take (n * p.progUnit) ++ List.replicate (n * p.progUnit - data.length) p.erased := by
  induction n with
  | zero => simp
  | succ n ih =>
    have hnext : (n + 1) * p.progUnit = n * p.progUnit + p.progUnit := Nat.succ_mul ..
    rw [List.range_succ, List.map_append, List.flatten_append, ih, List.map_singleton, List.flatten_singleton,
      progUnitBytes, slice]
    rcases Nat.le_total (n * p.progUnit) data.length with hinside | hpast
    case inl =>
      have hsplit : data.take (n * p.progUnit) ++ (data.take ((n + 1) * p.progUnit)).drop (n * p.progUnit) =
          data.take ((n + 1) * p.progUnit) := by
        conv_rhs => rw [← List.take_append_drop (n * p.progUnit) (data.take ((n + 1) * p.progUnit))]
        rw [List.take_take, Nat.min_eq_left (by omega)]
      have hcount : p.progUnit - ((data.take ((n + 1) * p.progUnit)).drop (n * p.progUnit)).length =
          (n + 1) * p.progUnit - data.length := by
        rw [List.length_drop, List.length_take]
        omega
      rw [Nat.sub_eq_zero_of_le hinside, List.replicate_zero, List.append_nil, ← List.append_assoc, hsplit, hcount]
    case inr =>
      have hnone : (data.take ((n + 1) * p.progUnit)).drop (n * p.progUnit) = [] :=
        List.drop_eq_nil_of_le (by rw [List.length_take]; omega)
      have hcount : (n + 1) * p.progUnit - data.length = (n * p.progUnit - data.length) + p.progUnit := by omega
      rw [hnone, List.nil_append, List.length_nil, Nat.sub_zero, List.take_of_length_le hpast,
        List.take_of_length_le (by omega), hcount, List.replicate_add, List.append_assoc]

theorem map_snd_programCalls (p : Params) (o : Nat) (data : List Byte) : (programCalls p o data).map Prod.snd =
    (List.range (programCalls p o data).length).map (progUnitBytes p data) := by
  rw [programCalls_length, programCalls, List.map_map]
  rfl

/-- Unit `k`, where there is one. -/
theorem programCalls_getElem? {p : Params} {o k : Nat} {c : Nat × List Byte} (h : (programCalls p o data)[k]? = some c) :
    c = (p.appLo + o + k * p.progUnit, progUnitBytes p data k) := by
  obtain ⟨hk, hc⟩ := List.getElem?_eq_some_iff.mp h
  rw [← hc]
  simp only [programCalls, List.getElem_map, List.getElem_range]

/-- Settles O36: the units are laid end to end, and reach past the data. -/
theorem unitsCarryDataAndPadding : Obligations.UnitsCarryDataAndPadding := by
  intro s offset data P calls
  have hcover : data.length ≤ calls.length * P := by
    rw [programCalls_length]
    exact units_cover (Platform.progUnit_pos s)
  refine ⟨programCalls_length .., ?units, ?contents⟩
  case units =>
    intro k c hc
    rw [programCalls_getElem? hc]
    exact ⟨rfl, progUnitBytes_length ..⟩
  case contents =>
    rw [map_snd_programCalls, flatten_progUnitBytes, List.take_of_length_le hcover]

/-! ## VerifyFlash (R197) -/

theorem exec_verifyFlash_of_done {b : Bool} (hlen : len.toNat ≤ data.length)
    (h : runVerify offset.toNat (data.take len.toNat) s = .done b u) :
    exec (.verifyFlash offset data len) s = .next { u with result := .truth b } := by
  rw [exec, execVerifyFlash, operandBytes_of_le hlen, h]
  rfl

/-- R197: a comparison in range that meets a difference has read each byte up to the first that differs. -/
theorem runVerify_differs {o k : Nat} (hl : s.landings = []) (hr : o + data.length ≤ s.params.appMaxSize.toNat)
    (hk : k < data.length) (heq : s.Holds (s.params.appLo + o) (data.take k))
    (hne : s.flash.read (s.params.appLo + o + k) ≠ byteAt data k) :
    runVerify o data s = .done false { s with
      trace := s.trace ++ (compareReads (s.params.appLo + o) (data.take k) ++
        [.memRead (s.params.appLo + o + k) 1 (some [s.flash.read (s.params.appLo + o + k)])]) } := by
  have hin : inRange s.params o data.length = true := by rwa [inRange, decide_eq_true_eq]
  rw [runVerify, if_pos hin, compareFlash_differs data _ s hl hk heq hne]

/-- Settles O38: the comparison's own result, kept as its answer; where a byte differs, the reads are those up to it. -/
theorem verifyFlashCompares : Obligations.VerifyFlashCompares := by
  intro s offset data len hl hlen d start inside
  have hd : d.length = len.toNat := List.length_take_of_le hlen
  obtain ⟨b, es, hrun, hb, hout, hequal, hreads⟩ := runVerify_done offset.toNat d hl
  rw [hd] at hb hout
  have hdiffers : ∀ k < d.length, inside → s.Holds start (d.take k) → s.flash.read (start + k) ≠ byteAt d k →
      es = compareReads start (d.take k) ++ [.memRead (start + k) 1 (some [s.flash.read (start + k)])] := by
    intro k hk hin heq hne
    have hstop := runVerify_differs hl (hd.symm ▸ hin) hk heq hne
    rw [hrun, Run.done.injEq, State.mk.injEq] at hstop
    simpa only [List.append_cancel_left_eq, and_true, true_and] using hstop.2
  exact ⟨_, b, es, exec_verifyFlash_of_done hlen hrun, rfl, hb, hreads,
    fun houtside => hout (Nat.lt_of_not_le houtside), hequal, hdiffers⟩

/-! ## CRC-32 (R198 to R200) -/

/-- Settles O39: five closed values. -/
theorem crc32CornerCases : Obligations.Crc32CornerCases := by
  unfold Obligations.Crc32CornerCases
  decide +kernel

/-- Settles O40: within the operand's length its bytes are the first `len`. -/
theorem crc32IsPure : Obligations.Crc32IsPure := by
  intro s data len hlen
  rw [exec, execCrc32, operandBytes_of_le hlen]
  rfl

end Sys2Proof.Machine
end

section
/-! PROOFS. The application check, the jump and the boot step with nothing landing inside (R206 to R212, R230, R232), and which
steps enter JUMPED (R207, R211). -/

namespace Sys2Proof.Machine

variable {s t u w : State}

/-! ## Which steps enter JUMPED -/

theorem validTable_of_eq (hplatform : t.platform = s.platform) (hflash : t.flash = s.flash) :
    validTable t.params t.vectorTable = validTable s.params s.vectorTable := by
  simp only [State.vectorTable, State.word, State.params, hplatform, hflash]

/-- An instruction enters JUMPED only by a jump, its own or the boot decision's, and a jump validates the table and leaves flash
as it is. -/
theorem Advanced.valid_of_jumped (h : Advanced s w) (hs : s.mode ≠ .jumped) (hw : w.mode = .jumped) :
    validTable s.params s.vectorTable = true ∧ w.flash = s.flash := by
  cases h with
  | moved hm =>
    rcases hm.mode with hsame | ⟨-, hother | hother⟩ | ⟨-, -, hvalid, hflash⟩
    · exact absurd (hsame.symm.trans hw) hs
    · exact absurd (hother.symm.trans hw) (by decide)
    · exact absurd (hother.symm.trans hw) (by decide)
    · exact ⟨hvalid, hflash⟩
  | booted _ hb =>
    rcases hb.mode with hstays | ⟨-, hvalid⟩
    · exact absurd (hstays.symm.trans hw) (by decide)
    · exact ⟨hvalid, hb.flash⟩
  | reset m k _ ends =>
    rw [ends, State.afterReset_mode] at hw
    exact absurd hw (by decide)

/-- Settles O57: neither what prepares a step nor what ends it touches mode, configuration or flash. -/
theorem jumpsOnlyIntoValidImage : Obligations.JumpsOnlyIntoValidImage := by
  intro s t hstep hs ht
  obtain ⟨u, w, hp, hadv, rfl⟩ := step_advances hstep
  obtain ⟨hvalid, hflash⟩ := hadv.valid_of_jumped (by rwa [hp.mode]) ht
  have hsame : validTable (w.setLandings []).params (w.setLandings []).vectorTable = validTable u.params u.vectorTable :=
    validTable_of_eq hadv.platform hflash
  exact ⟨hsame.trans hvalid, hflash.trans hp.flash⟩

/-! ## The check (R206 to R208) -/

/-- R207: the low bit of a word is that of its number. -/
theorem getLsbD_zero_eq (v : Word) : v.getLsbD 0 = decide (v.toNat % 2 = 1) := by
  rw [BitVec.getLsbD, Nat.testBit_zero]

/-- R207 on numbers. -/
theorem validTable_eq_decide (p : Params) (v : VectorTable) : validTable p v =
    decide (p.ramLo.toNat ≤ v.sp.toNat ∧ v.sp.toNat ≤ p.ramHi.toNat ∧ p.appLo ≤ v.rv.toNat ∧ v.rv.toNat < p.appHi ∧
      v.rv.toNat % 2 = 1) := by
  simp only [validTable, getLsbD_zero_eq, Bool.decide_and, Bool.and_assoc]

theorem validTable_of_even {p : Params} {v : VectorTable} (h : v.rv.toNat % 2 = 0) : validTable p v = false := by
  rw [validTable_eq_decide, decide_eq_false_iff_not]
  rintro ⟨-, -, -, -, hodd⟩
  omega

theorem exec_checkApplication_of_done {b : Bool} (h : runCheck s = .done b u) :
    exec .checkApplication s = .next { u with result := .truth b } := by
  rw [exec, execCheckApplication, h]
  rfl

/-- The operation answers FALSE, or REMAINED, and all it has done is to read words, each by a draw. -/
def FailsByReads (s : State) (r : Run Bool) : Prop :=
  ∃ (l : List Answer) (d : Nat) (es : List Event),
    r = .done false { s with trace := s.trace ++ es, answers := l, draws := d } ∧ ∀ e ∈ es, ∃ a v, e = .memRead a 4 v

/-- R208: a fault at either vector read makes the check FALSE. -/
theorem runCheck_fault (hl : s.landings = []) (hfault : s.answer = .fail ∨ s.drawn.answer = .fail) :
    FailsByReads s (runCheck s) := by
  obtain ⟨l, d, es, hread, hes⟩ := readVectorTable_fault hl hfault
  exact ⟨l, d, es, by rw [runCheck, hread]; rfl, hes⟩

/-- Settles O41: both reads answered, and the table judged on numbers; or one of them faulted. -/
theorem checkApplicationDecides : Obligations.CheckApplicationDecides := by
  intro s hl hmapped
  constructor
  · intro hok hok'
    rw [exec_checkApplication_of_done (runCheck_ok hl hmapped hok hok'), validTable_eq_decide]
    rfl
  · intro hfault
    obtain ⟨l, d, es, hrun, -⟩ := runCheck_fault hl hfault
    exact ⟨_, exec_checkApplication_of_done hrun, rfl, rfl⟩

/-- R208: a table that is not valid is rejected whatever the reads answer. -/
theorem runCheck_of_invalid (hl : s.landings = []) (hinvalid : validTable s.params s.vectorTable = false) :
    FailsByReads s (runCheck s) := by
  obtain ⟨v, l, d, es, hread, hes, hv⟩ := readVectorTable_any hl
  refine ⟨l, d, es, ?_, hes⟩
  rw [runCheck, hread, Run.bind_done]
  cases v with
  | none => rfl
  | some v =>
    rw [hv v rfl]
    exact congrArg (fun b => Run.done b _) hinvalid

/-- Settles O42: an even reset vector makes the table invalid. -/
theorem evenResetVectorIsRejected : Obligations.EvenResetVectorIsRejected := by
  intro s hl heven
  obtain ⟨_, _, _, hrun, -⟩ := runCheck_of_invalid hl (validTable_of_even heven)
  exact ⟨_, exec_checkApplication_of_done hrun, rfl⟩

/-! ## The jump that remains (R210, R212) -/

/-- R212: with a table that is not valid the jump remains whatever the reads answer. -/
theorem runJump_of_invalid (hl : s.landings = []) (hinvalid : validTable s.params s.vectorTable = false) :
    FailsByReads s (runJump s) := by
  obtain ⟨v, l, d, es, hread, hes, hv⟩ := readVectorTable_any hl
  refine ⟨l, d, es, ?_, hes⟩
  rw [runJump, hread, Run.bind_done]
  cases v with
  | none => rfl
  | some v =>
    rw [hv v rfl]
    exact if_neg (Bool.not_eq_true _ ▸ hinvalid)

theorem exec_jumpToApplication_of_remained (h : runJump s = .done false u) :
    exec .jumpToApplication s = .next { u with result := .remained } := by
  rw [exec, execJumpToApplication, h]
  rfl

/-- Settles O44: by whether the table is invalid or a read faults. -/
theorem jumpToApplicationRemains : Obligations.JumpToApplicationRemains := by
  intro s hl hremains
  obtain ⟨l, d, es, hrun, hes⟩ : FailsByReads s (runJump s) := by
    rcases hremains with hinvalid | hfault
    · exact runJump_of_invalid hl hinvalid
    · exact runJump_fault hl hfault
  exact ⟨_, es, exec_jumpToApplication_of_remained hrun, rfl, hes⟩

/-! ## The boot step without the sentinel (R230, R232) -/

/-- The flag has been read (R58). -/
def State.afterFlagRead (s : State) : State :=
  s.emit (.memRead s.params.flagAddr.toNat 4 (some (le32Bytes s.pflag)))

theorem readFlag_plain (hl : s.landings = []) : readFlag s = .done s.pflag s.afterFlagRead := by
  rw [readFlag, atCall_plain hl]
  rfl

/-- R230: without the sentinel the decision is the check's. -/
theorem runBootEval_of_check {b : Bool} (hl : s.landings = []) (hflag : s.pflag ≠ s.params.magic)
    (h : runCheck s.afterFlagRead = .done b u) : runBootEval s = .done (if b then .none else .noApp) u := by
  rw [runBootEval, readFlag_plain hl, Run.bind_done]
  refine (if_neg hflag).trans ?_
  rw [h]
  rfl

theorem exec_bootStep_of_ne_boot (h : s.mode ≠ .boot) : exec .bootStep s = .next s :=
  congrArg Host.Outcome.next (if_neg h)

/-- R231, R232: a reason to stay. -/
theorem exec_bootStep_of_stay {r : EntryReason} (hmode : s.mode = .boot) (h : runBootEval s = .done r u)
    (hstay : r.stay = true) : exec .bootStep s = .next ((u.setReason (some r)).setMode .bootloader) := by
  rw [exec, execBootStep, if_pos hmode, h]
  exact congrArg Host.Outcome.next (if_pos hstay)

/-- R232: no reason to stay, and the jump is tried. -/
theorem exec_bootStep_of_none (hmode : s.mode = .boot) (h : runBootEval s = .done .none u) :
    exec .bootStep s = .next ((runJump (u.setReason (some .none))).finish stayIfRemained) := by
  rw [exec, execBootStep, if_pos hmode, h]
  rfl

/-- Settles O48: the check fails at its fault, and where it passed the jump remains at its own. -/
theorem bootStepStaysOnFault : Obligations.BootStepStaysOnFault := by
  intro s stays
  refine ⟨?check, ?jump, exec_bootStep_of_ne_boot⟩
  case check =>
    intro hmode hl hflag hfault
    obtain ⟨l, d, es, hrun, hes⟩ := runCheck_fault (s := s.afterFlagRead) hl hfault
    refine ⟨_, .memRead s.params.flagAddr.toNat 4 (some (le32Bytes s.pflag)) :: es,
      exec_bootStep_of_stay hmode (runBootEval_of_check hl hflag hrun) rfl, ?_, ?_⟩
    · simp [State.afterFlagRead, State.emit, State.setReason, State.setMode]
    · simpa using hes
  case jump =>
    intro hmode hflag haccepts hmapped hvalid hfault
    have hl := haccepts.1
    have hcheck := runCheck_ok (s := s.afterFlagRead) hl hmapped haccepts.answer (State.drawn_answer_of_accepts haccepts)
    rw [show validTable s.afterFlagRead.params s.afterFlagRead.vectorTable = true from hvalid] at hcheck
    have hexec := exec_bootStep_of_none hmode (runBootEval_of_check hl hflag hcheck)
    obtain ⟨l, d, es, hrun, hes⟩ :=
      runJump_fault (s := s.afterFlagRead.afterVectorReads.setReason (some .none)) hl hfault
    rw [hrun] at hexec
    refine ⟨_, .memRead s.params.flagAddr.toNat 4 (some (le32Bytes s.pflag)) ::
      .memRead s.params.appLo 4 (some (s.bytes4 s.params.appLo)) ::
      .memRead (s.params.appLo + 4) 4 (some (s.bytes4 (s.params.appLo + 4))) :: es, hexec, ?_, ?_⟩
    · simp [stayIfRemained, State.afterVectorReads, State.afterFlagRead, State.emit, State.setReason, State.setMode,
        State.params, State.bytes4]
    · simpa using hes

end Sys2Proof.Machine
end

section
/-! PROOFS. The entry controller with nothing landing inside: the boot step with the sentinel and with a check that is answered
(R230 to R232), RequestEntry (R233), and that a request is honoured once (R234). -/

namespace Sys2Proof.Machine

variable {s t u : State}

/-! ## Runs of answers -/

theorem State.Accepts.mono {m n : Nat} (h : s.Accepts n) (hmn : m ≤ n) : s.Accepts m := by
  obtain ⟨hl, hanswers⟩ := h
  refine ⟨hl, ?_⟩
  rw [← Nat.min_eq_left hmn, ← List.take_take, hanswers, List.take_replicate]

/-- The two vector reads take two answers. -/
theorem State.Accepts.afterVectorReads {n : Nat} (h : s.Accepts (n + 2)) : s.afterVectorReads.Accepts n := by
  obtain ⟨hl, hanswers⟩ := h
  have hdrop := congrArg (List.drop 2) hanswers
  rw [List.drop_take, List.drop_replicate] at hdrop
  exact ⟨hl, hdrop⟩

/-! ## The boot step with the sentinel (R230, R232) -/

theorem writeFlag_plain (hl : s.landings = []) (v : Word) :
    writeFlag v s = .done () ((s.setPflag v).emit (.memWrite s.params.flagAddr.toNat 4 v)) :=
  voidCall_plain hl _ _

/-- R230: the sentinel is cleared, and the decision is REQUEST without a check. -/
theorem runBootEval_of_sentinel (hl : s.landings = []) (hflag : s.pflag = s.params.magic) :
    runBootEval s = .done .request ((s.afterFlagRead.setPflag s.params.magicClear).emit
      (.memWrite s.params.flagAddr.toNat 4 s.params.magicClear)) := by
  rw [runBootEval, readFlag_plain hl, Run.bind_done]
  refine (if_pos hflag).trans ?_
  rw [writeFlag_plain (s := s.afterFlagRead) hl]
  rfl

/-- Settles O46: REQUEST is a reason to stay. -/
theorem bootStepHonoursRequest : Obligations.BootStepHonoursRequest := by
  intro s hmode hl hflag
  rw [exec_bootStep_of_stay hmode (runBootEval_of_sentinel hl hflag) rfl, ← hflag]
  simp [State.afterFlagRead, State.emit, State.setPflag, State.setReason, State.setMode]

/-! ## The boot step with a check that is answered (R230, R232) -/

/-- R230: without the sentinel, and with both vector reads answered, the decision is by the table flash holds. -/
theorem runBootEval_of_accepts (haccepts : s.Accepts 2) (hflag : s.pflag ≠ s.params.magic)
    (hmapped : VectorsMapped s.params) : runBootEval s =
      .done (if validTable s.params s.vectorTable then .none else .noApp) s.afterFlagRead.afterVectorReads :=
  runBootEval_of_check haccepts.1 hflag
    (runCheck_ok (s := s.afterFlagRead) haccepts.1 hmapped haccepts.answer (State.drawn_answer_of_accepts haccepts))

/-- Settles O47: an invalid table is a reason to stay; a valid one is read again by the jump. -/
theorem bootStepChecksApplication : Obligations.BootStepChecksApplication := by
  intro s hmode hflag hmapped r
  constructor
  · intro haccepts hinvalid
    have heval := runBootEval_of_accepts haccepts hflag hmapped
    rw [hinvalid] at heval
    exact exec_bootStep_of_stay hmode heval rfl
  · intro haccepts hvalid
    have heval := runBootEval_of_accepts (haccepts.mono (by decide)) hflag hmapped
    rw [hvalid] at heval
    have hrest : s.afterVectorReads.Accepts 2 := haccepts.afterVectorReads
    rw [exec_bootStep_of_none hmode heval,
      runJump_valid (s := s.afterFlagRead.afterVectorReads.setReason (some .none)) hrest hmapped hvalid]
    rfl

/-! ## RequestEntry (R233) -/

/-- Settles O49: the flag write, and then the reset. -/
theorem requestEntryWritesFlagAndResets : Obligations.RequestEntryWritesFlagAndResets := by
  intro s hl
  rw [exec, execRequestEntry, writeFlag_plain hl, Run.finish_done, systemReset]
  simp [State.afterReset, State.emit, State.setPflag, hl]

/-! ## A request is honoured once (R234) -/

/-- R9 (f): clearing the flag removes the sentinel. -/
theorem State.magicClear_ne_magic (s : State) : s.params.magicClear ≠ s.params.magic := by
  have hlegal := s.platform.2
  simp only [Params.legal, Params.magicDiffers, Bool.and_eq_true, bne_iff_ne] at hlegal
  obtain ⟨⟨⟨⟨-, hdiffers⟩, -⟩, -⟩, -⟩ := hlegal
  exact hdiffers.symm

/-- The block's own turn changes the schedule and the landings alone. -/
theorem OwnTurn.exists_eq (h : OwnTurn s u) : ∃ ts ls, u = { s with turns := ts, landings := ls } := by
  rcases h with ⟨-, rfl⟩ | ⟨ls, rest, -, rfl⟩
  · exact ⟨u.turns, u.landings, rfl⟩
  · exact ⟨rest, ls, rfl⟩

/-- In BOOT the block's own turn ends where the boot step does. -/
theorem step_of_bootStep (hown : OwnTurn s u) (hmode : s.mode = .boot) (h : exec .bootStep u = .next t) :
    step s = .next { t with landings := [] } := by
  obtain ⟨hboot, -⟩ := ownStepOfEachMode s u hown
  rw [hboot hmode, h, endStep_of_next]

theorem step_platform (h : step s = .next t) : t.platform = s.platform := by
  obtain ⟨u, w, hp, ha, rfl⟩ := step_advances h
  exact ha.platform.trans hp.platform

/-- A run of `k + 1` steps that reaches a state makes a step, and then a run of `k`. -/
theorem exists_step_of_run_succ {M : Host.Core} {a c : M.State} {k : Nat} (h : M.run (k + 1) a = .next c) :
    ∃ b, M.step a = .next b ∧ M.run k b = .next c := by
  rw [Host.Core.run] at h
  split at h
  next b hstep => exact ⟨b, hstep, h⟩
  next => cases h
  next => cases h

theorem run_platform : ∀ (n : Nat) {s t : State}, Host.Core.run Sys2Proof.core n s = .next t → t.platform = s.platform
  | 0, _, _, h => by
    cases h
    rfl
  | n + 1, _, _, h => by
    obtain ⟨_, hstep, hrun⟩ := exists_step_of_run_succ h
    exact (run_platform n hrun).trans (step_platform hstep)

/-- Settles O50: the first boot clears the sentinel, no step changes the configuration, and so a later boot that finds the flag
as the first one left it finds no sentinel. -/
theorem requestIsOneShot : Obligations.RequestIsOneShot := by
  intro s u hown hl hmode hflag
  obtain ⟨ts, ls, rfl⟩ := hown.exists_eq
  refine ⟨_, step_of_bootStep hown hmode (bootStepHonoursRequest _ hmode hl hflag), rfl, rfl, rfl, ?_⟩
  intro n v w hrun hkept hmode' hown' haccepts hmapped hvalid
  have hplatform := run_platform n hrun
  have hparams : v.params = s.params := congrArg Subtype.val hplatform
  have hcleared : v.pflag = s.params.magicClear := hkept
  have hnone : v.pflag ≠ v.params.magic := by
    rw [hcleared, hparams]
    exact s.magicClear_ne_magic
  obtain ⟨ts', ls', rfl⟩ := hown'.exists_eq
  obtain ⟨-, hjumps⟩ := bootStepChecksApplication { v with turns := ts', landings := ls' } hmode' hnone hmapped
  exact ⟨_, step_of_bootStep hown' hmode' (hjumps haccepts hvalid), rfl, rfl, hcleared⟩

end Sys2Proof.Machine
end

section
/-! PROOFS. A reset that lands inside a flash command, before one of its calls or while that call is in progress (R280). -/

namespace Sys2Proof.Machine

variable {α β : Type} {s t u m : State} {ls rest : List Landing} {during : Bool} {kind : ResetKind} {k : Nat}

/-! ## What lands at one call -/

theorem atCall_of_call (h : s.landings = .call :: ls) (p : State → State) (f : State → Run α) :
    atCall s p f = f (s.setLandings ls) := by
  rw [atCall, h, land]

theorem atCall_of_reset (h : s.landings = .reset during kind :: rest) (p : State → State) (f : State → Run α) :
    atCall s p f = .cut ((if during then p s else s).afterReset kind) := by
  rw [atCall, h, land]

theorem voidCall_of_call (h : s.landings = .call :: ls) (e : Event) (f : State → State) :
    voidCall e f s = .done () ((f (s.setLandings ls)).emit e) :=
  atCall_of_call h _ _

/-- What a reset finds that lands at a flash call on the `n` bytes from `lo`: the call not made, or, if `during`, in progress,
recorded as `e` with its bytes unspecified (R280). -/
def State.caught (s : State) (during : Bool) (lo n : Nat) (e : Event) : State :=
  if during then (s.scramble lo n).emit e else s

theorem State.caught_pflag (lo n : Nat) (e : Event) : (s.caught during lo n e).pflag = s.pflag := by
  cases during <;> rfl

theorem State.caught_trace (lo n : Nat) (e : Event) :
    (s.caught during lo n e).trace = s.trace ++ if during then [e] else [] := by
  cases during with
  | false => exact (List.append_nil _).symm
  | true => rfl

/-- Only the bytes of a call in progress are touched. -/
theorem State.caught_read {lo n a : Nat} (h : ¬ (during = true ∧ lo ≤ a ∧ a < lo + n)) (e : Event) :
    (s.caught during lo n e).flash.read a = s.flash.read a := by
  cases during with
  | false => rfl
  | true => exact Memory.read_overwrite_outside (fun hin => h ⟨rfl, hin⟩) _ _

theorem flashEraseSector_of_reset (x : Sector) (h : s.landings = .reset during kind :: rest) :
    flashEraseSector x s = .cut ((s.caught during x.lo x.size (.flashEraseSector x.number none)).afterReset kind) :=
  atCall_of_reset h _ _

/-- The programming call of one unit, as `programCalls` lists it. -/
def programUnit (c : Nat × List Byte) : State → Run Answer := flashProgramUnit c.1 c.2

theorem programUnit_of_reset (c : Nat × List Byte) (h : s.landings = .reset during kind :: rest) :
    programUnit c s = .cut ((s.caught during c.1 c.2.length (.flashProgramUnit c.1 c.2 none)).afterReset kind) :=
  atCall_of_reset h _ _

/-- R35, R280: every element but flash after a reset of `m`, which a step begun in `s` and recorded as `es` had reached. -/
theorem resetTo_afterReset {es : List Event} (hpflag : m.pflag = s.pflag) (htrace : m.trace = s.trace ++ es) :
    ResetTo s (m.afterReset kind) kind es where
  mode := by simp
  rxLen := by simp [State.rxLen]
  msgQ := by simp
  flashLock := by simp
  entryReason := by simp
  lastStatus := by simp
  soft := by rintro rfl; simp [hpflag, htrace]
  powerOn := by rintro flag rfl; simp

/-- The same at the flash call `e`, which the trace holds if it was in progress. -/
theorem resetTo_caught {es : List Event} {lo n : Nat} {e : Event} (hpflag : m.pflag = s.pflag)
    (htrace : m.trace = s.trace ++ es) :
    ResetTo s ((m.caught during lo n e).afterReset kind) kind (es ++ if during then [e] else []) :=
  resetTo_afterReset ((State.caught_pflag lo n e).trans hpflag) (by rw [State.caught_trace, htrace, List.append_assoc])

/-! ## Calls in order, up to the first refused one -/

/-- The loop that the sectors (R191) and the units (R195) share: `eraseSectors_eq_callAll`, `programUnits_eq_callAll`. -/
def callAll (call : β → State → Run Answer) : List β → State → Run Bool
  | [], s => .done true s
  | x :: xs, s => (call x s).bind fun a s =>
    match a with
    | .ok => callAll call xs s
    | .fail => .done false s

theorem eraseSectors_eq_callAll (xs : List Sector) : eraseSectors xs = callAll flashEraseSector xs := by
  induction xs with
  | nil => rfl
  | cons x xs ih => funext s; rw [eraseSectors, ih]; rfl

theorem programUnits_eq_callAll (cs : List (Nat × List Byte)) : programUnits cs = callAll programUnit cs := by
  induction cs with
  | nil => rfl
  | cons c cs ih => funext s; rw [programUnits, ih]; rfl

/-- A call that is let through is made as with nothing waiting to land, and what is yet to land stays. -/
def PassesThrough (call : State → Run Answer) : Prop :=
  ∀ (s t : State) (ls : List Landing), s.landings = .call :: ls → call (s.setLandings []) = .done .ok t →
    t.landings = [] ∧ call s = .done .ok (t.setLandings ls)

theorem passesThrough_atCall {p f' g : State → State} {f : State → Run Answer}
    (hok : ∀ s, s.answer = .ok → f s = .done .ok (g s)) (hfail : ∀ s, s.answer = .fail → f s = .done .fail (f' s))
    (hg : ∀ s ls, g (s.setLandings ls) = (g s).setLandings ls) : PassesThrough fun s => atCall s p f := by
  intro s t ls hl h
  simp only [atCall_plain (State.setLandings_landings (s := s) (v := [])), atCall_of_call hl] at h ⊢
  cases ha : s.answer with
  | ok =>
    rw [hok (s.setLandings []) ha, Run.done.injEq, hg] at h
    obtain ⟨-, rfl⟩ := h
    rw [hok (s.setLandings ls) ha, hg]
    exact ⟨rfl, rfl⟩
  | fail =>
    rw [hfail (s.setLandings []) ha] at h
    simp at h

theorem flashEraseSector_passesThrough (x : Sector) : PassesThrough (flashEraseSector x) :=
  passesThrough_atCall (fun _ ha => by rw [ha]) (fun _ ha => by rw [ha]) fun _ _ => rfl

theorem programUnit_passesThrough (c : Nat × List Byte) : PassesThrough (programUnit c) :=
  passesThrough_atCall (fun _ ha => by rw [ha]) (fun _ ha => by rw [ha]) fun _ _ => rfl

/-- Calls that all succeed begin with one that does. -/
theorem exists_of_callAll_cons {call : β → State → Run Answer} {x : β} {xs : List β}
    (h : callAll call (x :: xs) s = .done true t) : ∃ m, call x s = .done .ok m ∧ callAll call xs m = .done true t := by
  rw [callAll] at h
  cases hx : call x s with
  | cut m => simp [hx] at h
  | done a m =>
    cases a with
    | ok => exact ⟨m, rfl, by simpa [hx] using h⟩
    | fail => simp [hx] at h

theorem callAll_cons_of_ok {call : β → State → Run Answer} {x : β} (xs : List β) (h : call x s = .done .ok m) :
    callAll call (x :: xs) s = callAll call xs m := by
  rw [callAll, h]
  rfl

/-- R280: where `k` calls are let through and the one after them is cut, the first `k` do what they do undisturbed. -/
theorem callAll_cut {call : β → State → Run Answer} (hcall : ∀ x, PassesThrough (call x)) {xs : List β} {x : β}
    (hx : xs[k]? = some x) (hl : s.landings = List.replicate k .call ++ ls)
    (hrun : callAll call (xs.take k) (s.setLandings []) = .done true t) (hcut : call x (t.setLandings ls) = .cut u) :
    callAll call xs s = .cut u := by
  induction xs generalizing s k with
  | nil => simp at hx
  | cons y ys ih =>
    cases k with
    | zero =>
      obtain rfl : y = x := by simpa using hx
      obtain rfl : s.setLandings [] = t := by simpa [callAll] using hrun
      have hs : (s.setLandings []).setLandings ls = s := congrArg s.setLandings hl.symm
      rw [hs] at hcut
      rw [callAll, hcut, Run.bind_cut]
    | succ k =>
      obtain ⟨m, hy, hys⟩ := exists_of_callAll_cons hrun
      rw [List.replicate_succ, List.cons_append] at hl
      obtain ⟨hm, hpass⟩ := hcall y s m (List.replicate k .call ++ ls) hl hy
      have hback : (m.setLandings (List.replicate k .call ++ ls)).setLandings [] = m := congrArg m.setLandings hm.symm
      rw [callAll_cons_of_ok ys hpass]
      exact ih hx rfl (by rwa [hback])

/-- R190, R280: the same within the bracket, whose unlock is the first call let through; no lock follows the cut. -/
theorem bracketed_callAll_cut {call : β → State → Run Answer} (hcall : ∀ x, PassesThrough (call x)) {xs : List β} {x : β}
    (hx : xs[k]? = some x) (hl : s.landings = List.replicate (k + 1) .call ++ ls)
    (hrun : callAll call (xs.take k) (((s.setLock .unlocked).emit .flashUnlock).setLandings []) = .done true t)
    (hcut : call x (t.setLandings ls) = .cut u) : bracketed (callAll call xs) s = .cut u := by
  rw [List.replicate_succ, List.cons_append] at hl
  have hloop : callAll call xs (((s.setLandings (List.replicate k .call ++ ls)).setLock .unlocked).emit .flashUnlock) =
      .cut u := callAll_cut hcall hx rfl hrun hcut
  rw [bracketed, flashUnlock, voidCall_of_call hl, Run.bind_done, hloop, Run.bind_cut]

/-! ## ERASE_APP (R161, R191) -/

/-- `m` is what a reset finds at the sector after the first `k` (R191, R192). -/
structure ErasedBefore (s m : State) (k : Nat) : Prop where
  pflag : m.pflag = s.pflag
  trace : m.trace = s.trace ++ ([.flashUnlock] ++
    (s.params.sectors.take k).map fun y => .flashEraseSector y.number (some .ok))
  erased : ∀ y ∈ s.params.sectors.take k, ∀ a < Config.addressSpace, y.Has a → m.flash.read a = s.params.erased
  kept : ∀ a, (∀ y ∈ s.params.sectors.take k, ¬ y.Has a) → m.flash.read a = s.flash.read a

theorem runErase_cut {x : Sector} (hx : s.params.sectors[k]? = some x) (hanswers : s.answers.take k = List.replicate k .ok)
    (hl : s.landings = List.replicate (k + 1) .call ++ .reset during kind :: rest) :
    ∃ m, ErasedBefore s m k ∧
      runErase s = .cut ((m.caught during x.lo x.size (.flashEraseSector x.number none)).afterReset kind) := by
  have hk : (s.params.sectors.take k).length = k :=
    List.length_take_of_le (Nat.le_of_lt (List.getElem?_eq_some_iff.mp hx).1)
  obtain ⟨f, hrun, herased, hkept⟩ := eraseSectors_accept (s.params.sectors.take k)
    (((s.setLock .unlocked).emit .flashUnlock).setLandings []) ⟨rfl, by rw [hk]; exact hanswers⟩
  rw [eraseSectors_eq_callAll] at hrun
  have hcut := bracketed_callAll_cut flashEraseSector_passesThrough hx hl hrun (flashEraseSector_of_reset x rfl)
  rw [← eraseSectors_eq_callAll] at hcut
  refine ⟨_, ?found, hcut⟩
  case found => exact ⟨rfl, by simp, herased, hkept⟩

/-- What cuts the erase cuts the command. -/
theorem exec_eraseApp_of_cut (dev : DevId) {payload : List Byte} {chk : Byte} (hmode : s.mode = .bootloader)
    (hchk : chk = checksum (0x04 :: payload)) (h : runErase s = .cut u) :
    exec (.eraseApp dev payload chk) s = .next u := by
  rw [exec_eraseApp, serve_of_checksum hmode hchk, eraseAppBody, h]
  rfl

/-! ## WRITE_BLOCK (R159, R195) -/

/-- `m` is what a reset finds at the unit after the first `k` (R62, R195). -/
structure ProgrammedBefore (s m : State) (o : Nat) (data : List Byte) (k : Nat) : Prop where
  pflag : m.pflag = s.pflag
  trace : m.trace = s.trace ++ ([.flashUnlock] ++
    ((programCalls s.params o data).take k).map fun c => .flashProgramUnit c.1 c.2 (some .ok))
  bytes : ∀ i < k * s.params.progUnit, m.flash.read (s.params.appLo + o + i) =
    combine s.params.programSem (s.flash.read (s.params.appLo + o + i)) (byteAt data i)
  kept : ∀ a, ¬ (s.params.appLo + o ≤ a ∧ a < s.params.appLo + o + k * s.params.progUnit) →
    m.flash.read a = s.flash.read a

theorem take_programCalls {p : Params} {o : Nat} {data : List Byte} (h : k ≤ (programCalls p o data).length) :
    (programCalls p o data).take k = unitRow (p.appLo + o) p.progUnit (progUnitBytes p data) 0 k := by
  rw [programCalls_length] at h
  rw [programCalls_eq, unitRow, unitRow, ← List.map_take, ← List.range_eq_range', ← List.range_eq_range',
    List.take_range, Nat.min_eq_left h]

/-- Every unit begins inside the data, and so the units before it are full. -/
theorem mul_progUnit_lt_length {o : Nat} {data : List Byte} (h : k < (programCalls s.params o data).length) :
    k * s.params.progUnit < data.length := by
  have hP := Platform.progUnit_pos s
  rw [programCalls_length] at h
  have hmul := (Nat.le_div_iff_mul_le hP).mp h
  rw [Nat.succ_mul] at hmul
  omega

theorem runWrite_cut {o : Nat} {data : List Byte} {c : Nat × List Byte}
    (hr : o + data.length ≤ s.params.appMaxSize.toNat) (hc : (programCalls s.params o data)[k]? = some c)
    (hanswers : s.answers.take k = List.replicate k .ok)
    (hl : s.landings = List.replicate (k + 1) .call ++ .reset during kind :: rest) :
    ∃ m, ProgrammedBefore s m o data k ∧
      runWrite o data s = .cut ((m.caught during c.1 c.2.length (.flashProgramUnit c.1 c.2 none)).afterReset kind) := by
  have hk := (List.getElem?_eq_some_iff.mp hc).1
  have hfull := mul_progUnit_lt_length hk
  have htake := take_programCalls (Nat.le_of_lt hk)
  obtain ⟨f, hrun, hbytes, hkept⟩ := programUnits_accept (s.params.appLo + o) s.params.progUnit (Platform.progUnit_pos s)
    (progUnitBytes s.params data) (progUnitBytes_length s.params data) k 0
    (((s.setLock .unlocked).emit .flashUnlock).setLandings []) ⟨rfl, hanswers⟩
  rw [← htake, programUnits_eq_callAll] at hrun
  rw [Nat.zero_mul, Nat.add_zero, Nat.zero_add] at hbytes hkept
  have hcut := bracketed_callAll_cut programUnit_passesThrough hc hl hrun (programUnit_of_reset c rfl)
  rw [← programUnits_eq_callAll] at hcut
  have hwrite : runWrite o data s = bracketed (programUnits (programCalls s.params o data)) s := by
    rw [runWrite, inRange, decide_eq_true hr, if_pos rfl, if_neg (by omega)]
  refine ⟨_, ?found, hwrite.trans hcut⟩
  case found =>
    refine ⟨rfl, by simp, fun i hi => ?_, hkept⟩
    have hmapped := appHi_le s
    have hP := Platform.progUnit_pos s
    have hbyte := hbytes (s.params.appLo + o + i) (by simp only [Params.appHi, Params.appLo] at *; omega)
      (by omega) (by omega)
    rw [Nat.add_sub_cancel_left, progUnitBytes_byte _ _ _ _ (Nat.mod_lt _ hP), div_mod_split, if_pos (by omega)] at hbyte
    exact hbyte

/-- What cuts the write cuts the command. -/
theorem exec_writeBlock_of_cut (dev : DevId) {payload data : List Byte} {chk : Byte} {offset : Word}
    (hmode : s.mode = .bootloader) (hchk : chk = checksum (0x02 :: payload)) (hops : BlockOperands payload offset data)
    (h : runWrite offset.toNat data s = .cut u) : exec (.writeBlock dev payload chk) s = .next u := by
  rw [exec_writeBlock_of_operands dev hmode hchk hops, programBlock, h]
  rfl

/-- Settles O52: the calls before the reset do what they do undisturbed, and the reset adds the bytes of the call in progress
at most. -/
theorem resetInsideFlashCommand : Obligations.ResetInsideFlashCommand := by
  constructor
  · intro s dev payload chk k x during kind rest hmode hchk hx hanswers hl
    obtain ⟨m, hm, hcut⟩ := runErase_cut hx hanswers hl
    refine ⟨_, exec_eraseApp_of_cut dev hmode hchk hcut, resetTo_caught hm.pflag hm.trace, ?erased, ?kept⟩
    case erased =>
      intro y hy a ha hya hxa
      rw [State.afterReset_flash, State.caught_read hxa, hm.erased y hy a ha hya]
    case kept =>
      intro a hbefore hxa
      rw [State.afterReset_flash, State.caught_read hxa, hm.kept a hbefore]
  · intro s dev payload chk offset data k c during kind rest hmode hchk hops hr hc hanswers hl start
    obtain ⟨m, hm, hcut⟩ := runWrite_cut hr hc hanswers hl
    have hnext : (k + 1) * s.params.progUnit = k * s.params.progUnit + s.params.progUnit := Nat.succ_mul ..
    obtain rfl := programCalls_getElem? hc
    rw [progUnitBytes_length] at hcut
    refine ⟨_, exec_writeBlock_of_cut dev hmode hchk hops hcut, resetTo_caught hm.pflag hm.trace, ?bytes, ?keptBytes⟩
    case bytes =>
      intro i hi
      rw [State.afterReset_flash, State.caught_read (by omega), hm.bytes i hi]
    case keptBytes =>
      intro a ha
      cases during with
      | false => rw [State.afterReset_flash, State.caught_read (by simp), hm.kept a ha]
      | true =>
        rw [if_pos rfl, hnext] at ha
        rw [State.afterReset_flash, State.caught_read (by omega), hm.kept a (by omega)]

end Sys2Proof.Machine
end

section
/-! PROOFS. The words written out from the spec's encodings (R80 to R83, R94 to R101): each is the encoding of the row it stands
for, and so decodes to it. -/

namespace Sys2Proof.Machine

/-- The round trip of requests (R86, R93), read at a given message. -/
theorem decode_encode_request {ps : Params} {i : Instr} {bs : List Byte} (hwf : i.wf = true) (hf : i.format = .request)
    (he : encode ps i = some bs) : decode ps .request bs = .ok i :=
  hf ▸ decodeInvertsEncode ps i bs hwf he

/-- Settles O3, format by format, through the encoder: that is where the headers, the checksums and the wire integers of the
written bytes are computed. -/
theorem writtenWordsDecode : Obligations.WrittenWordsDecode := by
  refine ⟨?rxCin4, ?rxCin5, ?rxCin6, ?rxCin7, ?rxOther03, ?rxOther8F, ?query, ?writeBlock, ?eraseApp, ?jumpApp, ?unknownCmd,
    ?error, ?ack, ?info⟩
  case rxCin4 | rxCin5 | rxCin6 | rxCin7 | rxOther03 | rxOther8F => exact decode_encode_packet rfl (by decide)
  case query | writeBlock | eraseApp | jumpApp | unknownCmd => exact decode_encode_request (by decide) rfl (by decide)
  case error | ack | info => exact decode_encode_response (by decide) rfl (by decide)

end Sys2Proof.Machine
end
